-- ==== Sys2Proof/Word.lean ====
section
/-! DEFINITION. The word and byte types of the block (00_scope.md R7: ADDR_W = DATA_W = 32), the widths of a bus
access, and the three-channel family of values. -/

namespace Sys2Proof

/-- A 32-bit address or datum (00_scope.md R7, R8). -/
abbrev Word := BitVec 32

/-- One byte of a command stream (30_encoding.md R71). -/
abbrev Byte := BitVec 8

/-- The width of a bus access: 1, 2 or 4 bytes (20_memory.md R59). -/
inductive Width where
  | w8
  | w16
  | w32
deriving DecidableEq, Repr

/-- The three DMA channels (00_scope.md R7: N_CH = 3). -/
inductive Chan where
  | c0
  | c1
  | c2
deriving DecidableEq, Repr

/-- One value per DMA channel. -/
structure Trio (α : Type) where
  c0 : α
  c1 : α
  c2 : α
deriving DecidableEq, Repr

/-- The value of one channel. -/
def Trio.get {α : Type} (t : Trio α) (c : Chan) : α :=
  match c with
  | .c0 => t.c0
  | .c1 => t.c1
  | .c2 => t.c2

/-- Replace the value of one channel. -/
def Trio.set {α : Type} (t : Trio α) (c : Chan) (a : α) : Trio α :=
  match c with
  | .c0 => { t with c0 := a }
  | .c1 => { t with c1 := a }
  | .c2 => { t with c2 := a }

end Sys2Proof
end

