-- ==== Sys2Proof/Config.lean ====
section
/-! DEFINITION. The parameters of 00_scope.md R7 that the spec asks a model to take as arguments, with the listed
defaults; the device identifiers; the controller registers' names; and the free values (00_scope.md R12, 40_dispatcher.md R105), which are opaque
constants without a body. -/

namespace Sys2Proof

/-- An external device that provides the six-function contract (10_state.md R22). -/
inductive ExtDevice where
  | rom
  | smpc
  | bup
  | lwram
  | icapS
  | icapM
  | cs0
  | cs1
  | cs2
  | sndram
  | scsp
  | vdp1
  | vdp2
  | hwram
  | vdp2reg
  /-- A further device of the parameter `extraDevices`, by its code (30_encoding.md R95: 17 and up). -/
  | other (code : Word)
deriving DecidableEq, Repr

/-- An entry of the page-handler table: never null (10_state.md R21, R22). -/
inductive DeviceId where
  /-- The unhandled stub (40_dispatcher.md R106). -/
  | unhandled
  /-- The combined video/system discriminator (40_dispatcher.md R107). -/
  | combo
  /-- An external device (40_dispatcher.md R105). -/
  | ext (d : ExtDevice)
deriving DecidableEq, Repr

/-- The external collaborators the block calls (10_state.md R34). -/
inductive Collab where
  | device (d : ExtDevice)
  | dataArray
  | addrArray
  | onChip
  | scuOther
deriving DecidableEq, Repr

/-- The two CPU cores (60_exceptions.md R203): core 0 is the primary, core 1 the secondary. -/
inductive CpuCore where
  | primary
  | secondary
deriving DecidableEq, Repr

/-- An interrupt record: vector, level, mask value, status value (10_state.md R28). -/
structure IrqRecord where
  vector : BitVec 8
  level  : BitVec 4
  mask   : BitVec 16
  status : BitVec 32
deriving DecidableEq, Repr

/-- Which level is delivered first (44_interrupt_arbiter.md R175). -/
inductive PriorityOrder where
  | lowLevelFirst
  | highLevelFirst
deriving DecidableEq, Repr

/-- Deliveries per retest (44_interrupt_arbiter.md R177). -/
inductive RetestMode where
  | all
  | one
deriving DecidableEq, Repr

/-- An entry of MIRROR: an immediate delivery of `vector` also delivers `toVector`, `toLevel` to core 1
(44_interrupt_arbiter.md R178). -/
structure MirrorRow where
  vector   : BitVec 8
  toVector : BitVec 8
  toLevel  : BitVec 4
deriving DecidableEq, Repr

/-- An entry of INIT_PAGE_MAP (40_dispatcher.md R110). -/
structure PageRow where
  first : BitVec 8
  last  : BitVec 8
  dev   : DeviceId
deriving DecidableEq, Repr

/-- The operands of a mask fill (41_region_mask.md R113), as INIT_MASK_FILLS lists them. -/
structure MaskFill where
  start : Word
  stop  : Word
  wmask : Word
  r     : Bool
  w     : Bool
deriving DecidableEq, Repr

/-- Who raises an interrupt source (60_exceptions.md R192). -/
inductive Raiser where
  | external
  | dmaChannel (c : Chan)
  | nobody
deriving DecidableEq, Repr

/-- A row of the default interrupt sources (60_exceptions.md R192). -/
structure SourceRow where
  raiser : Raiser
  irq    : IrqRecord
deriving DecidableEq, Repr

/-- The registers of a DMA channel (10_state.md R24). -/
inductive DmaField where
  | r
  | w
  | c
  | ad
  | en
  | md
deriving DecidableEq, Repr

/-- What an offset of the controller page selects (30_encoding.md R80). -/
inductive CtrlReg where
  | dma (ch : Chan) (f : DmaField)
  | dstp
  | dsta
  | ims
  | ist
  | aiack
  /-- A register of a unit outside the block, known by its offset (42_controller_registers.md R138). -/
  | forwarded
  | reserved
deriving DecidableEq, Repr

/-- An entry of the register offset map (30_encoding.md R80). -/
structure OffsetRow where
  off : BitVec 8
  reg : CtrlReg
deriving DecidableEq, Repr

/-- The parameters of 00_scope.md R7 that are arguments of the model. -/
structure Config where
  /-- CTRL_SEL_MASK (40_dispatcher.md R107). -/
  ctrlSelMask   : Word
  /-- CTRL_BASE (40_dispatcher.md R107). -/
  ctrlBase      : Word
  /-- The register offset map (30_encoding.md R80; 93_implementation_defined.md part 1, 18; 92_eei_decisions.md D12):
  the first entry of an offset counts, and an offset without one is reserved. -/
  regOffsets    : List OffsetRow
  /-- CMASK(c) (30_encoding.md R90). -/
  cmask         : Trio Word
  /-- CMAX(c) (30_encoding.md R90). -/
  cmax          : Trio Word
  /-- BBUS_LO, BBUS_HI (43_dma.md R151). -/
  bbusLo        : Word
  bbusHi        : Word
  /-- WRAM_RANGES, inclusive (43_dma.md R159). -/
  wramRanges    : List (Word × Word)
  /-- CONST_SRC: pairs (mask, match) (43_dma.md R152). -/
  constSrc      : List (Word × Word)
  /-- DMA_END(c) (43_dma.md R162). -/
  dmaEnd        : Trio IrqRecord
  /-- PRIORITY_ORDER (44_interrupt_arbiter.md R175). -/
  priorityOrder : PriorityOrder
  /-- RETEST_MODE (44_interrupt_arbiter.md R177). -/
  retestMode    : RetestMode
  /-- ACK_MASK (44_interrupt_arbiter.md R174). -/
  ackMask       : BitVec 16
  /-- MIRROR (44_interrupt_arbiter.md R178). -/
  mirror        : List MirrorRow
  /-- INIT_PAGE_MAP (40_dispatcher.md R110). -/
  initPageMap   : List PageRow
  /-- INIT_MASK_FILLS (40_dispatcher.md R109), OPEN. -/
  initMaskFills : List MaskFill
  /-- RESET_* of DcAD, DcEN, DcMD, IMS, IST, AIACK (10_state.md R42). -/
  resetAd       : Word
  resetEn       : Word
  resetMd       : Word
  resetIms      : BitVec 16
  resetIst      : BitVec 32
  resetAiack    : Bool
  /-- SOURCES (60_exceptions.md R192): the block checks nothing against it. -/
  sources       : List SourceRow
  /-- The codes, 17 and up, of further devices (30_encoding.md R95). -/
  extraDevices  : List Word
deriving DecidableEq, Repr

/-- The default page map, in the source's order (40_dispatcher.md R110). -/
def defaultPageMap : List PageRow :=
  [⟨0x00, 0x01, .ext .rom⟩, ⟨0x02, 0x02, .ext .smpc⟩, ⟨0x03, 0x03, .ext .bup⟩, ⟨0x04, 0x05, .ext .lwram⟩,
   ⟨0x20, 0x2F, .ext .icapS⟩, ⟨0x30, 0x3F, .ext .icapM⟩, ⟨0x40, 0x7F, .ext .cs0⟩, ⟨0x80, 0x9F, .ext .cs1⟩,
   ⟨0xB0, 0xB1, .ext .cs2⟩, ⟨0xB4, 0xB5, .ext .sndram⟩, ⟨0xB6, 0xB7, .ext .scsp⟩, ⟨0xB8, 0xBB, .ext .vdp1⟩,
   ⟨0xBC, 0xBE, .ext .vdp2⟩, ⟨0xBF, 0xBF, .combo⟩, ⟨0xC0, 0xFF, .ext .hwram⟩]

/-- External source n of the acknowledge-gated class (60_exceptions.md R192). -/
def externalSource (n : Nat) : SourceRow :=
  { raiser := .external
    irq :=
      { vector := BitVec.ofNat 8 (0x50 + n)
        level := if n ≤ 3 then 0x7 else if n ≤ 7 then 0x4 else 0x1
        mask := 0x8000
        status := 1#32 <<< (16 + n) } }

/-- The default interrupt sources (60_exceptions.md R192). -/
def defaultSources : List SourceRow :=
  [⟨.external, ⟨0x40, 0xF, 0x0001, 0x00000001⟩⟩, ⟨.external, ⟨0x41, 0xE, 0x0002, 0x00000002⟩⟩,
   ⟨.external, ⟨0x42, 0xD, 0x0004, 0x00000004⟩⟩, ⟨.external, ⟨0x43, 0xC, 0x0008, 0x00000008⟩⟩,
   ⟨.external, ⟨0x44, 0xB, 0x0010, 0x00000010⟩⟩, ⟨.external, ⟨0x45, 0xA, 0x0020, 0x00000020⟩⟩,
   ⟨.external, ⟨0x46, 0x9, 0x0040, 0x00000040⟩⟩, ⟨.external, ⟨0x47, 0x8, 0x0080, 0x00000080⟩⟩,
   ⟨.external, ⟨0x48, 0x8, 0x0100, 0x00000100⟩⟩, ⟨.dmaChannel .c2, ⟨0x49, 0x6, 0x0200, 0x00000200⟩⟩,
   ⟨.dmaChannel .c1, ⟨0x4A, 0x6, 0x0400, 0x00000400⟩⟩, ⟨.dmaChannel .c0, ⟨0x4B, 0x5, 0x0800, 0x00000800⟩⟩,
   ⟨.nobody, ⟨0x4C, 0x3, 0x1000, 0x00001000⟩⟩, ⟨.external, ⟨0x4D, 0x2, 0x2000, 0x00002000⟩⟩]
  ++ (List.range 16).map externalSource

/-- The default register offsets (30_encoding.md R80). -/
def defaultRegOffsets : List OffsetRow :=
  [⟨0x00, .dma .c0 .r⟩, ⟨0x04, .dma .c0 .w⟩, ⟨0x08, .dma .c0 .c⟩, ⟨0x0C, .dma .c0 .ad⟩, ⟨0x10, .dma .c0 .en⟩,
   ⟨0x14, .dma .c0 .md⟩, ⟨0x20, .dma .c1 .r⟩, ⟨0x24, .dma .c1 .w⟩, ⟨0x28, .dma .c1 .c⟩, ⟨0x2C, .dma .c1 .ad⟩,
   ⟨0x30, .dma .c1 .en⟩, ⟨0x34, .dma .c1 .md⟩, ⟨0x40, .dma .c2 .r⟩, ⟨0x44, .dma .c2 .w⟩, ⟨0x48, .dma .c2 .c⟩,
   ⟨0x4C, .dma .c2 .ad⟩, ⟨0x50, .dma .c2 .en⟩, ⟨0x54, .dma .c2 .md⟩, ⟨0x60, .dstp⟩, ⟨0x7C, .dsta⟩,
   ⟨0x80, .forwarded⟩, ⟨0x84, .forwarded⟩, ⟨0x88, .forwarded⟩, ⟨0x8C, .forwarded⟩, ⟨0x90, .forwarded⟩,
   ⟨0x94, .forwarded⟩, ⟨0x98, .forwarded⟩, ⟨0xA0, .ims⟩, ⟨0xA4, .ist⟩, ⟨0xA8, .aiack⟩, ⟨0xB0, .forwarded⟩,
   ⟨0xB4, .forwarded⟩, ⟨0xB8, .forwarded⟩, ⟨0xC4, .forwarded⟩, ⟨0xC8, .forwarded⟩]

/-- The values this hardware takes (00_scope.md R7). -/
def Config.default : Config where
  ctrlSelMask := 0xFFFF0000
  ctrlBase := 0x05FE0000
  regOffsets := defaultRegOffsets
  cmask := ⟨0xFFFFF, 0xFFF, 0xFFF⟩
  cmax := ⟨0x100000, 0x1000, 0x1000⟩
  bbusLo := 0x05A00000
  bbusHi := 0x05FF0000
  wramRanges := [(0x00200000, 0x002FFFFF), (0x06000000, 0x07FFFFFF)]
  constSrc :=
    [(0x1FF00000, 0x00200000), (0x1E000000, 0x06000000), (0x1FF00000, 0x05A00000), (0x1FD00000, 0x05C00000)]
  dmaEnd :=
    ⟨⟨0x4B, 5, 0x0800, 0x0800⟩, ⟨0x4A, 6, 0x0400, 0x0400⟩, ⟨0x49, 6, 0x0200, 0x0200⟩⟩
  priorityOrder := .lowLevelFirst
  retestMode := .all
  ackMask := 0x8000
  mirror := [⟨0x40, 0x43, 6⟩, ⟨0x42, 0x41, 2⟩]
  initPageMap := defaultPageMap
  initMaskFills := []
  resetAd := 0x00000101
  resetEn := 0x00000000
  resetMd := 0x00000007
  resetIms := 0xBFFF
  resetIst := 0x00000000
  resetAiack := false
  sources := defaultSources
  extraDevices := []

/-- QCAP: the interrupt queue capacity (00_scope.md R7, 10_state.md R29). -/
def queueCapacity : Nat := 30

/-- N_PAGES: the page-handler slots (00_scope.md R7, 10_state.md R21). -/
def pageCount : Nat := 256

/-- N_MASK_PAGES: the entries of each region mask table (00_scope.md R7, 10_state.md R23). -/
def maskPageCount : Nat := 65536

/-- FREE VALUE: the n-th draw, a value the sources leave open and no rule fixes (00_scope.md R12). -/
opaque Config.draw : Nat → Word

/-- FREE VALUE: what an external collaborator answers to a read, the n-th free value of the run
(40_dispatcher.md R105: "a value of the device's own model or an oracle draw"). -/
opaque Config.answer : Nat → Collab → Width → Word → Word

end Sys2Proof
end

