-- ==== Sys2Proof/Syntax.lean ====
section
/-! DEFINITION. The instructions: one constructor per row of spec/opcode_table.json. The 18 CMD rows are the
commands of 30_encoding.md R71 to R76; the 8 ADDR rows are bus accesses that the address decode of 20_memory.md R47
resolves to one zone route; the 36 REG rows are 32-bit accesses at one controller register offset of 30_encoding.md
R80. -/

namespace Sys2Proof

/-- A bus access without its address: direction, width and write datum (20_memory.md R59). -/
inductive BusOp where
  | read (w : Width)
  | write8 (v : BitVec 8)
  | write16 (v : BitVec 16)
  | write32 (v : BitVec 32)
deriving DecidableEq, Repr

/-- A 32-bit access without its address, the only kind the REG rows stand for (30_encoding.md R98). -/
inductive RegOp where
  | read
  | write (v : BitVec 32)
deriving DecidableEq, Repr

/-- The instructions. -/
inductive Instr where
  -- group 0: bus accesses (30_encoding.md R72)
  | rd8 (addr : Word)
  | rd16 (addr : Word)
  | rd32 (addr : Word)
  | wr8 (addr : Word) (data : BitVec 8)
  | wr16 (addr : Word) (data : BitVec 16)
  | wr32 (addr : Word) (data : BitVec 32)
  -- group 1: configuration (30_encoding.md R73)
  | map (first last : BitVec 8) (dev : DeviceId)
  | init
  | mfill (start stop wmask : Word) (r w : Bool)
  | mlkr (addr : Word)
  | mlkw (addr : Word)
  -- group 2: the controller step (30_encoding.md R74)
  | exec (ticks : Word)
  | drain
  -- group 3: interrupt inputs (30_encoding.md R75)
  | raise (vector : BitVec 8) (level : BitVec 4) (mask : BitVec 16) (status : BitVec 32)
  | remove (vector : BitVec 8) (level : BitVec 4) (status : BitVec 32)
  | retest
  | rmstat (before after : BitVec 32)
  -- group 4: reset (30_encoding.md R76)
  | reset
  -- the zone routes (20_memory.md R47): the address below its zone bits, and the access
  | zone0PageTable (a29 : BitVec 29) (op : BusOp)
  | zone1PageTable (a29 : BitVec 29) (op : BusOp)
  | zone5PageTable (a29 : BitVec 29) (op : BusOp)
  | zone2DataArray (a29 : BitVec 29) (op : BusOp)
  | zone6DataArray (a29 : BitVec 29) (op : BusOp)
  | zone3AddressArray (a29 : BitVec 29) (op : BusOp)
  | zone4Unhandled (a29 : BitVec 29) (op : BusOp)
  | zone7Onchip (a29 : BitVec 29) (op : BusOp)
  -- the controller registers (30_encoding.md R80): `m` is A29[15:8], the 256-byte mirror of R79
  | d0r (m : BitVec 8) (op : RegOp)
  | d0w (m : BitVec 8) (op : RegOp)
  | d0c (m : BitVec 8) (op : RegOp)
  | d0ad (m : BitVec 8) (op : RegOp)
  | d0en (m : BitVec 8) (op : RegOp)
  | d0md (m : BitVec 8) (op : RegOp)
  | d1r (m : BitVec 8) (op : RegOp)
  | d1w (m : BitVec 8) (op : RegOp)
  | d1c (m : BitVec 8) (op : RegOp)
  | d1ad (m : BitVec 8) (op : RegOp)
  | d1en (m : BitVec 8) (op : RegOp)
  | d1md (m : BitVec 8) (op : RegOp)
  | d2r (m : BitVec 8) (op : RegOp)
  | d2w (m : BitVec 8) (op : RegOp)
  | d2c (m : BitVec 8) (op : RegOp)
  | d2ad (m : BitVec 8) (op : RegOp)
  | d2en (m : BitVec 8) (op : RegOp)
  | d2md (m : BitVec 8) (op : RegOp)
  | dstp (m : BitVec 8) (op : RegOp)
  | dsta (m : BitVec 8) (op : RegOp)
  | ppaf (m : BitVec 8) (op : RegOp)
  | ppd (m : BitVec 8) (op : RegOp)
  | pda (m : BitVec 8) (op : RegOp)
  | pdd (m : BitVec 8) (op : RegOp)
  | t0c (m : BitVec 8) (op : RegOp)
  | t1s (m : BitVec 8) (op : RegOp)
  | t1md (m : BitVec 8) (op : RegOp)
  | ims (m : BitVec 8) (op : RegOp)
  | ist (m : BitVec 8) (op : RegOp)
  | aiack (m : BitVec 8) (op : RegOp)
  | asr0 (m : BitVec 8) (op : RegOp)
  | asr1 (m : BitVec 8) (op : RegOp)
  | aref (m : BitVec 8) (op : RegOp)
  | rsel (m : BitVec 8) (op : RegOp)
  | ver (m : BitVec 8) (op : RegOp)
  /-- A reserved offset `off` (30_encoding.md R80: every other multiple of 4). -/
  | reservedOffset (off m : BitVec 8) (op : RegOp)
deriving DecidableEq, Repr

end Sys2Proof
end

