-- ==== Sys2Proof/WellFormed.lean ====
section
/-! DEFINITION. Which instructions an encoding can name. The operand types already hold each field to its width
(30_encoding.md R72 to R75); what is left to check is that a MAP names a device (R95), that a zone-0 route is not one
of the register rows, and that a reserved offset is a multiple of 4 that no register row takes (R80). -/

namespace Sys2Proof

/-- The offsets of the named register rows (30_encoding.md R80). -/
def namedOffsets : List (BitVec 8) :=
  [0x00, 0x04, 0x08, 0x0C, 0x10, 0x14, 0x20, 0x24, 0x28, 0x2C, 0x30, 0x34, 0x40, 0x44, 0x48, 0x4C, 0x50, 0x54,
   0x60, 0x7C, 0x80, 0x84, 0x88, 0x8C, 0x90, 0x94, 0x98, 0xA0, 0xA4, 0xA8, 0xB0, 0xB4, 0xB8, 0xC4, 0xC8]

/-- A device a MAP operand may name: a listed one, or a further one of the parameter (30_encoding.md R95). -/
def DeviceId.named (extra : List Word) : DeviceId → Bool
  | .ext (.other code) => decide (17 ≤ code.toNat) && extra.contains code
  | _ => true

/-- A zone-0 word that a register row of the opcode table matches: A29[31:16] = 0x05FE and a multiple of 4
(30_encoding.md R79, R98). -/
def isRegisterWord (a29 : BitVec 29) : Bool :=
  a29.extractLsb' 16 13 == 0x05FE#13 && a29.extractLsb' 0 2 == 0#2

/-- An access of 32 bits. -/
def BusOp.is32 : BusOp → Bool
  | .read .w32 => true
  | .write32 _ => true
  | _ => false

/-- The check, against the codes of the further devices. -/
def Instr.wf (extra : List Word) : Instr → Bool
  | .map _ _ dev => dev.named extra
  | .zone0PageTable a29 op => !(isRegisterWord a29 && op.is32)
  | .reservedOffset off _ _ => off.extractLsb' 0 2 == 0#2 && !namedOffsets.contains off
  | _ => true

end Sys2Proof
end

