-- ==== Sys2Proof/Decode.lean ====
section
/-! DEFINITION. The decoder of command bytes (30_encoding.md R71 to R78), total: every byte string decodes to a
command, to INVALID by name, or to "incomplete". The decoder of a bus-port record (notes/assumptions/3.md), which
reads the address word as the ADDR and REG rows of the opcode table do (20_memory.md R47, 30_encoding.md R80, R98).
After them the encoder. -/

namespace Sys2Proof

/-- Why a byte string is INVALID (30_encoding.md R77). -/
inductive Invalid where
  /-- An OP byte with no command. -/
  | reservedOpcode
  /-- An operand word with a nonzero bit above its field. -/
  | operandAboveField
  /-- A device code that names no device (30_encoding.md R95). -/
  | unknownDevice
  /-- A bus-port record whose control byte names no access (notes/assumptions/3.md). -/
  | badAccess
deriving DecidableEq, Repr

/-- The verdict on a byte string (30_encoding.md R78). -/
inductive Verdict where
  | command (i : Instr) (rest : List Byte)
  | invalid (why : Invalid)
  | incomplete
deriving DecidableEq, Repr

/-- A word from its bytes, most significant first (30_encoding.md R71). -/
def wordOf (b0 b1 b2 b3 : Byte) : Word := b0 ++ b1 ++ b2 ++ b3

/-- The bytes of a word, most significant first (30_encoding.md R71). -/
def bytesOf (w : Word) : List Byte :=
  [w.extractLsb' 24 8, w.extractLsb' 16 8, w.extractLsb' 8 8, w.extractLsb' 0 8]

/-- Read k operand words. -/
def takeWords : Nat → List Byte → Option (List Word × List Byte)
  | 0, bs => some ([], bs)
  | k + 1, b0 :: b1 :: b2 :: b3 :: bs =>
    match takeWords k bs with
    | some (ws, rest) => some (wordOf b0 b1 b2 b3 :: ws, rest)
    | none => none
  | _ + 1, _ => none

/-- How many operand words an opcode fixes; none for a reserved opcode (30_encoding.md R72 to R77). -/
def operandCount (op : Byte) : Option Nat :=
  match op.toNat with
  | 0x00 => some 1
  | 0x01 => some 1
  | 0x02 => some 1
  | 0x04 => some 2
  | 0x05 => some 2
  | 0x06 => some 2
  | 0x10 => some 3
  | 0x11 => some 0
  | 0x12 => some 4
  | 0x13 => some 1
  | 0x14 => some 1
  | 0x20 => some 1
  | 0x21 => some 0
  | 0x30 => some 4
  | 0x31 => some 3
  | 0x32 => some 0
  | 0x33 => some 2
  | 0x40 => some 0
  | _ => none

/-- No bit of the word stands above its field of n bits (30_encoding.md R77). -/
def fits (n : Nat) (w : Word) : Bool := decide (w.toNat < 2 ^ n)

/-- The device a MAP operand names (30_encoding.md R95). -/
def deviceOf (extra : List Word) (code : Word) : Option DeviceId :=
  match code.toNat with
  | 0 => some .unhandled
  | 1 => some (.ext .rom)
  | 2 => some (.ext .smpc)
  | 3 => some (.ext .bup)
  | 4 => some (.ext .lwram)
  | 5 => some (.ext .icapS)
  | 6 => some (.ext .icapM)
  | 7 => some (.ext .cs0)
  | 8 => some (.ext .cs1)
  | 9 => some (.ext .cs2)
  | 10 => some (.ext .sndram)
  | 11 => some (.ext .scsp)
  | 12 => some (.ext .vdp1)
  | 13 => some (.ext .vdp2)
  | 14 => some .combo
  | 15 => some (.ext .hwram)
  | 16 => some (.ext .vdp2reg)
  | _ => if extra.contains code then some (.ext (.other code)) else none

/-- Use a list of no words. -/
def onNone (x : Except Invalid Instr) (ws : List Word) : Except Invalid Instr :=
  match ws with
  | [] => x
  | _ => .error .reservedOpcode

/-- Use a list of one word. -/
def onOne (f : Word → Except Invalid Instr) (ws : List Word) : Except Invalid Instr :=
  match ws with
  | [a] => f a
  | _ => .error .reservedOpcode

/-- Use a list of two words. -/
def onTwo (f : Word → Word → Except Invalid Instr) (ws : List Word) : Except Invalid Instr :=
  match ws with
  | [a, b] => f a b
  | _ => .error .reservedOpcode

/-- Use a list of three words. -/
def onThree (f : Word → Word → Word → Except Invalid Instr) (ws : List Word) : Except Invalid Instr :=
  match ws with
  | [a, b, c] => f a b c
  | _ => .error .reservedOpcode

/-- Use a list of four words. -/
def onFour (f : Word → Word → Word → Word → Except Invalid Instr) (ws : List Word) : Except Invalid Instr :=
  match ws with
  | [a, b, c, d] => f a b c d
  | _ => .error .reservedOpcode

/-- An instruction, if its operand words fit their fields (30_encoding.md R77). -/
def ifFits (ok : Bool) (i : Instr) : Except Invalid Instr := if ok then .ok i else .error .operandAboveField

/-- WR8 (30_encoding.md R72). -/
def makeWr8 (a d : Word) : Except Invalid Instr := ifFits (fits 8 d) (.wr8 a (d.setWidth 8))

/-- WR16 (30_encoding.md R72). -/
def makeWr16 (a d : Word) : Except Invalid Instr := ifFits (fits 16 d) (.wr16 a (d.setWidth 16))

/-- MAP (30_encoding.md R73, R95). -/
def makeMap (extra : List Word) (f l d : Word) : Except Invalid Instr :=
  if fits 8 f && fits 8 l then
    match deviceOf extra d with
    | some dev => .ok (.map (f.setWidth 8) (l.setWidth 8) dev)
    | none => .error .unknownDevice
  else .error .operandAboveField

/-- MFILL: bit 0 of the flags is `read_enabled`, bit 1 `write_enabled` (30_encoding.md R73). -/
def makeMfill (s e m f : Word) : Except Invalid Instr :=
  ifFits (fits 2 f) (.mfill s e m (f.getLsbD 0) (f.getLsbD 1))

/-- RAISE (30_encoding.md R75). -/
def makeRaise (v l m s : Word) : Except Invalid Instr :=
  ifFits (fits 8 v && fits 4 l && fits 16 m) (.raise (v.setWidth 8) (l.setWidth 4) (m.setWidth 16) s)

/-- REMOVE (30_encoding.md R75). -/
def makeRemove (v l s : Word) : Except Invalid Instr :=
  ifFits (fits 8 v && fits 4 l) (.remove (v.setWidth 8) (l.setWidth 4) s)

/-- The command an opcode and its operand words make (30_encoding.md R72 to R77). -/
def commandOf (extra : List Word) (op : Byte) (ws : List Word) : Except Invalid Instr :=
  match op.toNat with
  | 0x00 => onOne (fun a => .ok (.rd8 a)) ws
  | 0x01 => onOne (fun a => .ok (.rd16 a)) ws
  | 0x02 => onOne (fun a => .ok (.rd32 a)) ws
  | 0x04 => onTwo makeWr8 ws
  | 0x05 => onTwo makeWr16 ws
  | 0x06 => onTwo (fun a d => .ok (.wr32 a d)) ws
  | 0x10 => onThree (makeMap extra) ws
  | 0x11 => onNone (.ok .init) ws
  | 0x12 => onFour makeMfill ws
  | 0x13 => onOne (fun a => .ok (.mlkr a)) ws
  | 0x14 => onOne (fun a => .ok (.mlkw a)) ws
  | 0x20 => onOne (fun t => .ok (.exec t)) ws
  | 0x21 => onNone (.ok .drain) ws
  | 0x30 => onFour makeRaise ws
  | 0x31 => onThree makeRemove ws
  | 0x32 => onNone (.ok .retest) ws
  | 0x33 => onTwo (fun b a => .ok (.rmstat b a)) ws
  | 0x40 => onNone (.ok .reset) ws
  | _ => .error .reservedOpcode

/-- Decode the first command of a byte string (30_encoding.md R78); `extra` is the list of further device codes. -/
def decode (extra : List Word) (bs : List Byte) : Verdict :=
  match bs with
  | [] => .incomplete
  | op :: operands =>
    match operandCount op with
    | none => .invalid .reservedOpcode
    | some k =>
      match takeWords k operands with
      | none => .incomplete
      | some (ws, rest) =>
        match commandOf extra op ws with
        | .ok i => .command i rest
        | .error why => .invalid why

/-- The register row at an offset that is a multiple of 4 (30_encoding.md R80). -/
def registerRow (off m : BitVec 8) (op : RegOp) : Instr :=
  match off.toNat with
  | 0x00 => .d0r m op
  | 0x04 => .d0w m op
  | 0x08 => .d0c m op
  | 0x0C => .d0ad m op
  | 0x10 => .d0en m op
  | 0x14 => .d0md m op
  | 0x20 => .d1r m op
  | 0x24 => .d1w m op
  | 0x28 => .d1c m op
  | 0x2C => .d1ad m op
  | 0x30 => .d1en m op
  | 0x34 => .d1md m op
  | 0x40 => .d2r m op
  | 0x44 => .d2w m op
  | 0x48 => .d2c m op
  | 0x4C => .d2ad m op
  | 0x50 => .d2en m op
  | 0x54 => .d2md m op
  | 0x60 => .dstp m op
  | 0x7C => .dsta m op
  | 0x80 => .ppaf m op
  | 0x84 => .ppd m op
  | 0x88 => .pda m op
  | 0x8C => .pdd m op
  | 0x90 => .t0c m op
  | 0x94 => .t1s m op
  | 0x98 => .t1md m op
  | 0xA0 => .ims m op
  | 0xA4 => .ist m op
  | 0xA8 => .aiack m op
  | 0xB0 => .asr0 m op
  | 0xB4 => .asr1 m op
  | 0xB8 => .aref m op
  | 0xC4 => .rsel m op
  | 0xC8 => .ver m op
  | _ => .reservedOffset off m op

/-- The row of a zone-0 access: the register row its word matches if the access is of 32 bits, else the page-table
route (30_encoding.md R98; notes/assumptions/4.md). -/
def zone0Row (a29 : BitVec 29) (op : BusOp) : Instr :=
  if isRegisterWord a29 then
    match op with
    | .read .w32 => registerRow (a29.extractLsb' 0 8) (a29.extractLsb' 8 8) .read
    | .write32 v => registerRow (a29.extractLsb' 0 8) (a29.extractLsb' 8 8) (.write v)
    | op => .zone0PageTable a29 op
  else .zone0PageTable a29 op

/-- The row an access at an address decodes to (20_memory.md R47). -/
def accessRow (addr : Word) (op : BusOp) : Instr :=
  let a29 := addr.extractLsb' 0 29
  match (addr.extractLsb' 29 3).toNat with
  | 0 => zone0Row a29 op
  | 1 => .zone1PageTable a29 op
  | 2 => .zone2DataArray a29 op
  | 3 => .zone3AddressArray a29 op
  | 4 => .zone4Unhandled a29 op
  | 5 => .zone5PageTable a29 op
  | 6 => .zone6DataArray a29 op
  | _ => .zone7Onchip a29 op

/-- The access a bus-port record's control byte and datum make: bit 2 is the direction, bits 1 and 0 the size, with
00 = 4 bytes, 01 = 2 bytes, 10 = 1 byte (the model's own form, notes/assumptions/3.md). -/
def accessOf (control : Byte) (datum : Word) : Except Invalid BusOp :=
  match control.toNat with
  | 0x00 => if fits 0 datum then .ok (.read .w32) else .error .operandAboveField
  | 0x01 => if fits 0 datum then .ok (.read .w16) else .error .operandAboveField
  | 0x02 => if fits 0 datum then .ok (.read .w8) else .error .operandAboveField
  | 0x04 => .ok (.write32 datum)
  | 0x05 => if fits 16 datum then .ok (.write16 (datum.setWidth 16)) else .error .operandAboveField
  | 0x06 => if fits 8 datum then .ok (.write8 (datum.setWidth 8)) else .error .operandAboveField
  | _ => .error .badAccess

/-- Decode the first bus-port record of a byte string: address word, control byte, datum word. -/
def decodeAccess (bs : List Byte) : Verdict :=
  match bs with
  | a0 :: a1 :: a2 :: a3 :: control :: d0 :: d1 :: d2 :: d3 :: rest =>
    match accessOf control (wordOf d0 d1 d2 d3) with
    | .ok op => .command (accessRow (wordOf a0 a1 a2 a3) op) rest
    | .error why => .invalid why
  | _ => .incomplete

/-- The bytes of a table word of a command row: byte k is bits 8k+7 to 8k, and every bit from `nbits` up is 0. The
longest command has 17 bytes (30_encoding.md R73, R78). -/
def tableBytes (nbits w : Nat) : List Byte :=
  (List.range 17).map fun k => BitVec.ofNat 8 ((w % 2 ^ nbits) >>> (8 * k))

/-- The bytes of the one command that begins a table word. -/
def tableCommand (nbits w : Nat) : List Byte :=
  let bs := tableBytes nbits w
  match operandCount (bs.headD 0) with
  | some k => bs.take (1 + 4 * k)
  | none => bs.take 1

/-- The bytes of the bus-port record whose address word is a 32-bit table word, all else 0. -/
def tableAccess (w : Nat) : List Byte :=
  bytesOf (BitVec.ofNat 32 w) ++ List.replicate 5 0

/-- Whether a table word is an ADDR or REG word (32 bits) and not a command's. -/
def isAddressWord (nbits : Nat) : Bool := nbits == 32

/-- What a verdict names, if anything. -/
def Verdict.instr? : Verdict → Option Instr
  | .command i _ => some i
  | _ => none

/-- The instruction the decoder reads from a word of spec/opcode_table.json. -/
def decodeTableWord (nbits w : Nat) : Option Instr :=
  if isAddressWord nbits then (decodeAccess (tableAccess w)).instr?
  else (decode Config.default.extraDevices (tableCommand nbits w)).instr?

/-! The encoder. -/

/-- The code of a device (30_encoding.md R95). -/
def DeviceId.code : DeviceId → Word
  | .unhandled => 0
  | .ext .rom => 1
  | .ext .smpc => 2
  | .ext .bup => 3
  | .ext .lwram => 4
  | .ext .icapS => 5
  | .ext .icapM => 6
  | .ext .cs0 => 7
  | .ext .cs1 => 8
  | .ext .cs2 => 9
  | .ext .sndram => 10
  | .ext .scsp => 11
  | .ext .vdp1 => 12
  | .ext .vdp2 => 13
  | .combo => 14
  | .ext .hwram => 15
  | .ext .vdp2reg => 16
  | .ext (.other code) => code

/-- A command's bytes: the opcode, then each operand word (30_encoding.md R71). -/
def commandBytes (op : Byte) (ws : List Word) : List Byte := op :: ws.flatMap bytesOf

/-- The control byte of an access in a bus-port record. -/
def BusOp.control : BusOp → Byte
  | .read .w32 => 0x00
  | .read .w16 => 0x01
  | .read .w8 => 0x02
  | .write32 _ => 0x04
  | .write16 _ => 0x05
  | .write8 _ => 0x06

/-- The write datum of an access, zero-extended; 0 for a read. -/
def BusOp.datum : BusOp → Word
  | .read _ => 0
  | .write8 v => v.setWidth 32
  | .write16 v => v.setWidth 32
  | .write32 v => v

/-- A 32-bit access as a bus access. -/
def RegOp.toBus : RegOp → BusOp
  | .read => .read .w32
  | .write v => .write32 v

/-- A bus-port record's bytes. -/
def accessBytes (addr : Word) (op : BusOp) : List Byte :=
  bytesOf addr ++ op.control :: bytesOf op.datum

/-- A zone-relative address with its zone bits. -/
def withZone (z : BitVec 3) (a29 : BitVec 29) : Word := z ++ a29

/-- The A29 of a register row, as a word: 0x05FE, the mirror byte, the offset (30_encoding.md R79, R80). -/
def registerAddress (off m : BitVec 8) : Word := 0x05FE#16 ++ (m ++ off)

/-- The bytes of a REG row. -/
def registerBytes (off m : BitVec 8) (op : RegOp) : List Byte := accessBytes (registerAddress off m) op.toBus

/-- Whether an instruction comes from the bus port (an ADDR or REG row) and not from the command stream. -/
def Instr.fromPort : Instr → Bool
  | .rd8 _ | .rd16 _ | .rd32 _ | .wr8 _ _ | .wr16 _ _ | .wr32 _ _ | .map _ _ _ | .init | .mfill _ _ _ _ _
  | .mlkr _ | .mlkw _ | .exec _ | .drain | .raise _ _ _ _ | .remove _ _ _ | .retest | .rmstat _ _ | .reset => false
  | _ => true

/-- The bytes of an instruction: a command's of 30_encoding.md R71 to R76, or a bus-port record's. -/
def encode : Instr → List Byte
  | .rd8 a => commandBytes 0x00 [a]
  | .rd16 a => commandBytes 0x01 [a]
  | .rd32 a => commandBytes 0x02 [a]
  | .wr8 a d => commandBytes 0x04 [a, d.setWidth 32]
  | .wr16 a d => commandBytes 0x05 [a, d.setWidth 32]
  | .wr32 a d => commandBytes 0x06 [a, d]
  | .map f l dev => commandBytes 0x10 [f.setWidth 32, l.setWidth 32, dev.code]
  | .init => commandBytes 0x11 []
  | .mfill s e m r w => commandBytes 0x12 [s, e, m, 0#30 ++ (BitVec.ofBool w ++ BitVec.ofBool r)]
  | .mlkr a => commandBytes 0x13 [a]
  | .mlkw a => commandBytes 0x14 [a]
  | .exec t => commandBytes 0x20 [t]
  | .drain => commandBytes 0x21 []
  | .raise v l m s => commandBytes 0x30 [v.setWidth 32, l.setWidth 32, m.setWidth 32, s]
  | .remove v l s => commandBytes 0x31 [v.setWidth 32, l.setWidth 32, s]
  | .retest => commandBytes 0x32 []
  | .rmstat b a => commandBytes 0x33 [b, a]
  | .reset => commandBytes 0x40 []
  | .zone0PageTable a op => accessBytes (withZone 0 a) op
  | .zone1PageTable a op => accessBytes (withZone 1 a) op
  | .zone5PageTable a op => accessBytes (withZone 5 a) op
  | .zone2DataArray a op => accessBytes (withZone 2 a) op
  | .zone6DataArray a op => accessBytes (withZone 6 a) op
  | .zone3AddressArray a op => accessBytes (withZone 3 a) op
  | .zone4Unhandled a op => accessBytes (withZone 4 a) op
  | .zone7Onchip a op => accessBytes (withZone 7 a) op
  | .d0r m op => registerBytes 0x00 m op
  | .d0w m op => registerBytes 0x04 m op
  | .d0c m op => registerBytes 0x08 m op
  | .d0ad m op => registerBytes 0x0C m op
  | .d0en m op => registerBytes 0x10 m op
  | .d0md m op => registerBytes 0x14 m op
  | .d1r m op => registerBytes 0x20 m op
  | .d1w m op => registerBytes 0x24 m op
  | .d1c m op => registerBytes 0x28 m op
  | .d1ad m op => registerBytes 0x2C m op
  | .d1en m op => registerBytes 0x30 m op
  | .d1md m op => registerBytes 0x34 m op
  | .d2r m op => registerBytes 0x40 m op
  | .d2w m op => registerBytes 0x44 m op
  | .d2c m op => registerBytes 0x48 m op
  | .d2ad m op => registerBytes 0x4C m op
  | .d2en m op => registerBytes 0x50 m op
  | .d2md m op => registerBytes 0x54 m op
  | .dstp m op => registerBytes 0x60 m op
  | .dsta m op => registerBytes 0x7C m op
  | .ppaf m op => registerBytes 0x80 m op
  | .ppd m op => registerBytes 0x84 m op
  | .pda m op => registerBytes 0x88 m op
  | .pdd m op => registerBytes 0x8C m op
  | .t0c m op => registerBytes 0x90 m op
  | .t1s m op => registerBytes 0x94 m op
  | .t1md m op => registerBytes 0x98 m op
  | .ims m op => registerBytes 0xA0 m op
  | .ist m op => registerBytes 0xA4 m op
  | .aiack m op => registerBytes 0xA8 m op
  | .asr0 m op => registerBytes 0xB0 m op
  | .asr1 m op => registerBytes 0xB4 m op
  | .aref m op => registerBytes 0xB8 m op
  | .rsel m op => registerBytes 0xC4 m op
  | .ver m op => registerBytes 0xC8 m op
  | .reservedOffset off m op => registerBytes off m op

/-- Decode an instruction's bytes by the port they arrive at. -/
def decodeFor (fromPort : Bool) (extra : List Word) (bs : List Byte) : Verdict :=
  if fromPort then decodeAccess bs else decode extra bs

end Sys2Proof
end

