-- ==== Sys2Proof/Machine/State.lean ====
section
/-! DEFINITION. The state of the block as plain data (10_state.md), the model's own fields beside it, the reasons a step
can stop, and the state after reset (10_state.md R38 to R42). -/

namespace Sys2Proof.Machine

/-- A table of a fixed size by index, in one canonical form: indices strictly rising, none listed that holds what an
unlisted index reads as (10_state.md R38, R39 give that value). -/
abbrev Table (α : Type) := List (Nat × α)

/-- The six registers of one DMA channel (10_state.md R24). -/
structure DmaRegs where
  /-- DcR, the read address. -/
  r  : Word
  /-- DcW, the write address or descriptor table address. -/
  w  : Word
  /-- DcC, the byte count. -/
  c  : Word
  /-- DcAD, the address increments. -/
  ad : Word
  /-- DcEN, the enable and start bits. -/
  en : Word
  /-- DcMD, the mode. -/
  md : Word
deriving DecidableEq, Repr

/-- The in-flight state of one DMA channel (10_state.md R26). -/
structure Channel where
  active   : Bool
  indirect : Bool
  ra       : Word
  wa       : Word
  /-- Remaining bytes of the burst, a signed number (43_dma.md R150). -/
  tn       : BitVec 32
  raAdd    : Word
  waAdd    : Word
  rup      : Bool
  wup      : Bool
  ptr      : Word
  last     : Bool
  narrow   : Bool
  csrc     : Bool
  fvalid   : Bool
  fval     : BitVec 32
  /-- Which 16-bit half a narrow fill writes next: false is 0, the high half. -/
  half     : Bool
  seg      : Word
  segw     : Bool
deriving DecidableEq, Repr

/-- An idle channel: every field zero (10_state.md R27, R40). -/
def Channel.idle : Channel where
  active := false
  indirect := false
  ra := 0
  wa := 0
  tn := 0
  raAdd := 0
  waAdd := 0
  rup := false
  wup := false
  ptr := 0
  last := false
  narrow := false
  csrc := false
  fvalid := false
  fval := 0
  half := false
  seg := 0
  segw := false

/-- An output event (10_state.md R36). Data are zero-extended to 32 bits. -/
inductive Event where
  /-- `SendInterrupt(core, vector, level)` (44_interrupt_arbiter.md R183). -/
  | sendInterrupt (core : CpuCore) (vector : BitVec 8) (level : BitVec 4)
  /-- `NotifyWrite(start, length)` (43_dma.md R159). -/
  | notifyWrite (start length : Word)
  /-- A read call of an external collaborator, with the value it returned (40_dispatcher.md R105). -/
  | extRead (who : Collab) (w : Width) (addr value : Word)
  /-- A write call of an external collaborator (40_dispatcher.md R105). -/
  | extWrite (who : Collab) (w : Width) (addr value : Word)
  /-- `DspStep(T)` (43_dma.md R167). -/
  | dspStep (ticks : Word)
deriving DecidableEq, Repr

/-- What an external collaborator does at one call: the answer it gives (used if the call is a read), and the
commands its handler issues before it returns (20_memory.md R66). -/
structure Reaction where
  answer : Word
  nested : List Instr
deriving DecidableEq, Repr

/-- The reasons a step can stop with a fault. -/
inductive Fault where
  /-- The stuck state of a drain, or a forced drain, that never ends: the hang of 43_dma.md R169, which has no final
  state. It is no fault outcome of the block (00_scope.md R11, 60_exceptions.md R191): "fault" is only the host's
  form for a step that answers no state. SAFE: the model stops. See notes/assumptions/9.md. -/
  | dmaHang
deriving DecidableEq, Repr

/-- The reasons a step can be refused (60_exceptions.md R191). All are SAFE: the run ends, and nothing is claimed of a
state after it (00_scope.md R11, 60_exceptions.md R209). -/
inductive Refusal where
  /-- An instruction without a meaning in this model; no arm of `exec` uses it. -/
  | notModelled (mnemonic : String)
  /-- INVALID_COMMAND: an INVALID byte string or device code is executed (30_encoding.md R77, R95). -/
  | invalidCommand
  /-- CTRL_NARROW_WRITE: an 8- or 16-bit write reaches the controller (42_controller_registers.md R141). -/
  | ctrlNarrowWrite
  /-- CTRL_MISALIGNED: a misaligned 32-bit write reaches the controller (42_controller_registers.md R141). -/
  | ctrlMisaligned
  /-- DMA_FORCE_STOP: a DSTP write with bit 0 set (42_controller_registers.md R136). -/
  | dmaForceStop
  /-- DMA_START_FACTOR: a DcEN write with EN = 1 while FT is not 7 (43_dma.md R145). -/
  | dmaStartFactor
  /-- DMA_GO_WITHOUT_EN: a DcEN write with EN = 0, GO = 1, FT = 7 (43_dma.md R145). -/
  | dmaGoWithoutEn
  /-- DMA_TO_CONTROLLER: an access of the DMA engine reaches the controller (43_dma.md R158). -/
  | dmaToController
  /-- A step of a run that was refused before: the mark stays for good (10_state.md R35, 00_scope.md R11). -/
  | refusedBefore
deriving DecidableEq, Repr

/-- The state. The fields from `cfg` on are the model's own (INVENTORY.md). -/
structure State where
  /-- PT (10_state.md R21). -/
  pt : Table DeviceId
  /-- MR (10_state.md R23). -/
  mr : Table Word
  /-- MW (10_state.md R23). -/
  mw : Table Word
  /-- The DMA registers (10_state.md R24). -/
  dma : Trio DmaRegs
  /-- IMS (10_state.md R25). -/
  ims : BitVec 16
  /-- IST (10_state.md R25). -/
  ist : BitVec 32
  /-- AIACK (10_state.md R25). -/
  aiack : Bool
  /-- The channels in flight (10_state.md R26). -/
  ch : Trio Channel
  /-- The interrupt queue Q, lowest priority first (10_state.md R28, R29). -/
  q : List IrqRecord
  /-- The refusal mark (10_state.md R35). -/
  refusalMark : Bool
  /-- The output event history, oldest first (10_state.md R36). -/
  history : List Event
  /-- The position in the command stream (10_state.md R20). -/
  pos : Nat
  /-- The parameters (00_scope.md R7). -/
  cfg : Config
  /-- The command bytes not yet consumed. -/
  stream : List Byte
  /-- The bus-port bytes not yet consumed. -/
  port : List Byte
  /-- What the external collaborators do at their next calls, in order. -/
  script : List Reaction
  /-- How many free values were drawn. -/
  draws : Nat
  /-- The value the last command returned, zero-extended (00_scope.md R11). -/
  ret : Option Word
deriving DecidableEq, Repr

/-- A channel's registers after a reset that draws its unspecified ones from the n-th draw on (10_state.md R42). -/
def resetRegs (cfg : Config) (n : Nat) : DmaRegs where
  r := Config.draw n
  w := Config.draw (n + 1)
  c := Config.draw (n + 2)
  ad := cfg.resetAd
  en := cfg.resetEn
  md := cfg.resetMd

/-- The machine right after reset (10_state.md R38 to R42), with the default parameters, no command waiting and
nothing scripted. The event history starts empty: the spec says that RESET keeps it and not what it holds at power-on,
so this is the model's choice (DESIGN CHOICE, notes/assumptions/31.md). -/
def State.reset : State where
  pt := []
  mr := []
  mw := []
  dma := ⟨resetRegs Config.default 0, resetRegs Config.default 3, resetRegs Config.default 6⟩
  ims := Config.default.resetIms
  ist := Config.default.resetIst
  aiack := Config.default.resetAiack
  ch := ⟨Channel.idle, Channel.idle, Channel.idle⟩
  q := []
  refusalMark := false
  history := []
  pos := 0
  cfg := Config.default
  stream := []
  port := []
  script := []
  draws := 9
  ret := none

end Sys2Proof.Machine
end

