-- ==== Sys2Proof/Machine/Operands.lean ====
section
/-! DEFINITION. The operand forms: the fields of an address (20_memory.md R46 to R49), the widths of a datum, the
fields of the controller registers (30_encoding.md R81 to R92), and the address windows of the DMA engine. -/

namespace Sys2Proof.Machine

/-! Addresses. -/

/-- The zone of an address (20_memory.md R46). -/
def zoneOf (addr : Word) : BitVec 3 := addr.extractLsb' 29 3

/-- A29: the address with the zone bits cleared (20_memory.md R49). -/
def a29 (addr : Word) : Word := addr &&& 0x1FFFFFFF

/-- The page index A29[26:19] (20_memory.md R48). -/
def pageOf (a : Word) : Nat := (a.extractLsb' 19 8).toNat

/-- The 9-bit sub-address of zone 7 (20_memory.md R52). -/
def onChipSub (addr : Word) : Word := addr &&& 0x1FF

/-- The mask page addr[31:16] (10_state.md R23). -/
def maskPageOf (addr : Word) : Nat := (addr.extractLsb' 16 16).toNat

/-- The register offset A29[7:0] (30_encoding.md R79). -/
def regOffset (a : Word) : BitVec 8 := a.extractLsb' 0 8

/-! Data. -/

/-- The value of the low bits that a width holds, zero-extended (40_dispatcher.md R105). -/
def clip (w : Width) (v : Word) : Word :=
  match w with
  | .w8 => v &&& 0xFF
  | .w16 => v &&& 0xFFFF
  | .w32 => v

/-- The high 16-bit half of a 32-bit value: the one at the lower address (20_memory.md R54). -/
def highHalf (v : Word) : BitVec 16 := v.extractLsb' 16 16

/-- The low 16-bit half of a 32-bit value (20_memory.md R54). -/
def lowHalf (v : Word) : BitVec 16 := v.extractLsb' 0 16

/-- The width of a bus access (20_memory.md R59). -/
def opWidth : BusOp → Width
  | .read w => w
  | .write8 _ => .w8
  | .write16 _ => .w16
  | .write32 _ => .w32

/-! The controller register map (30_encoding.md R80). -/

/-- The register at an offset, by the parameter's map (30_encoding.md R80, 92_eei_decisions.md D12). -/
def ctrlRegAt (cfg : Config) (off : BitVec 8) : CtrlReg :=
  match cfg.regOffsets.find? fun e => e.off == off with
  | some e => e.reg
  | none => .reserved

/-! Register fields. -/

/-- EN = DcEN[8] (30_encoding.md R85). -/
def enBit (v : Word) : Bool := v.getLsbD 8

/-- GO = DcEN[0] (30_encoding.md R85). -/
def goBit (v : Word) : Bool := v.getLsbD 0

/-- FT = DcMD[2:0] (30_encoding.md R86). -/
def startFactor (md : Word) : BitVec 3 := md.extractLsb' 0 3

/-- MOD = DcMD[24] (30_encoding.md R86). -/
def modeIndirect (md : Word) : Bool := md.getLsbD 24

/-- RUP = DcMD[16] (30_encoding.md R86). -/
def readUpdate (md : Word) : Bool := md.getLsbD 16

/-- WUP = DcMD[8] (30_encoding.md R86). -/
def writeUpdate (md : Word) : Bool := md.getLsbD 8

/-- The read increment, from RA = DcAD[8] (30_encoding.md R84, R92). -/
def readAdd (ad : Word) : Word := if ad.getLsbD 8 then 4 else 0

/-- The write increment, from WA = DcAD[2:0] (30_encoding.md R84, R91). -/
def writeAdd (ad : Word) : Word :=
  let wa := ad.extractLsb' 0 3
  if wa = 0 then 0 else 1#32 <<< wa.toNat

/-- The byte count of a burst (30_encoding.md R90). -/
def byteCount (cfg : Config) (c : Chan) (v : Word) : Word :=
  let k := v &&& cfg.cmask.get c
  if k = 0 then cfg.cmax.get c else k

/-- The last-descriptor mark, bit 31 of the read word (30_encoding.md R93). -/
def lastMark (r : Word) : Bool := r.getLsbD 31

/-- The read address of a descriptor, bits 30:0 of the read word (30_encoding.md R93). -/
def descriptorRead (r : Word) : Word := r &&& 0x7FFFFFFF

/-! Address windows of the DMA engine. -/

/-- The secondary-bus window (43_dma.md R151). -/
def inBBus (cfg : Config) (w : Word) : Bool :=
  decide (cfg.bbusLo ≤ a29 w) && decide (a29 w < cfg.bbusHi)

/-- The constant-source windows (43_dma.md R152). -/
def constSource (cfg : Config) (r : Word) : Bool :=
  cfg.constSrc.any fun win => r &&& win.1 == win.2

/-- General working memory (43_dma.md R159), of an A29 address. -/
def inWram (cfg : Config) (a : Word) : Bool :=
  cfg.wramRanges.any fun win => decide (win.1 ≤ a) && decide (a ≤ win.2)

/-- The start condition of a DcEN write (43_dma.md R145). -/
inductive StartDecision where
  | arm
  | refuse (why : Refusal)
  | nothing
deriving DecidableEq, Repr

/-- What a write of `v` to DcEN starts, with `md` in DcMD (43_dma.md R145). -/
def startDecision (v md : Word) : StartDecision :=
  if startFactor md = 7 then
    if enBit v then (if goBit v then .arm else .nothing)
    else (if goBit v then .refuse .dmaGoWithoutEn else .nothing)
  else if enBit v then .refuse .dmaStartFactor
  else .nothing

end Sys2Proof.Machine
end

