-- ==== Sys2Proof/Machine/Flags.lean ====
section
/-! DEFINITION. What acts as flags (10_state.md R30): the mask test against IMS, the status bits of IST, and the rank
of a level. -/

namespace Sys2Proof.Machine

/-- A mask value is masked when it shares a bit with IMS (44_interrupt_arbiter.md R173). -/
def masked (ims mask : BitVec 16) : Bool := mask &&& ims != 0

/-- A mask value is unmasked otherwise (44_interrupt_arbiter.md R173). -/
def unmasked (ims mask : BitVec 16) : Bool := !masked ims mask

/-- Set status bits (44_interrupt_arbiter.md R174). -/
def statusSet (ist bits : BitVec 32) : BitVec 32 := ist ||| bits

/-- Clear status bits (44_interrupt_arbiter.md R177, R180, R181). -/
def statusClear (ist bits : BitVec 32) : BitVec 32 := ist &&& ~~~bits

/-- The bits cleared between two status values (44_interrupt_arbiter.md R180). -/
def clearedBits (before after : BitVec 32) : BitVec 32 := before &&& ~~~after

/-- The rank of a level: a lower rank is a higher priority (44_interrupt_arbiter.md R175). -/
def rank (order : PriorityOrder) (level : BitVec 4) : Nat :=
  match order with
  | .lowLevelFirst => level.toNat
  | .highLevelFirst => 15 - level.toNat

end Sys2Proof.Machine
end

