-- ==== Sys2Proof/Machine/Ops.lean ====
section
/-! DEFINITION. The named operations over the tables, the registers, the event history, the external collaborators
and the interrupt queue. Delivering an interrupt is here (`deliverNow`, `retestPasses`): it stands where other
hardware takes an exception, since the block takes none and has no return from one (60_exceptions.md R191, R196,
R197). -/

namespace Sys2Proof.Machine

/-- The outcome of a part of a command. -/
abbrev Res (α : Type) := Host.Outcome α Fault Refusal

/-- Run one part of a command after another; a stop ends the command (60_exceptions.md R195). -/
def andThen {α β : Type} (x : Res α) (f : α → Res β) : Res β :=
  match x with
  | .next a => f a
  | .fault r => .fault r
  | .refused r => .refused r

/-- How the commands that a handler issues are run (20_memory.md R66). -/
abbrev Nest := List Instr → State → Res State

/-! Tables. -/

/-- The entry at an index; `d` is what an unlisted index reads as. -/
def tableGet {α : Type} (d : α) (t : Table α) (i : Nat) : α :=
  match t with
  | [] => d
  | (k, a) :: rest => if k = i then a else tableGet d rest i

/-- Write `a` at every index from `lo` to `hi`; nothing if `lo > hi`. -/
def tableFill {α : Type} [DecidableEq α] (d : α) (t : Table α) (lo hi : Nat) (a : α) : Table α :=
  if hi < lo then t
  else
    t.filter (fun e => decide (e.1 < lo))
      ++ ((if a = d then [] else (List.range' lo (hi + 1 - lo)).map fun i => (i, a))
        ++ t.filter (fun e => decide (hi < e.1)))

/-- The canonical form of a table of `n` entries. -/
abbrev tableWf {α : Type} (d : α) (n : Nat) (t : Table α) : Prop :=
  t.Pairwise (fun x y => x.1 < y.1) ∧ ∀ e ∈ t, e.1 < n ∧ e.2 ≠ d

/-! Parts of the state. -/

/-- Record an output event (10_state.md R36). -/
def State.emit (s : State) (e : Event) : State := { s with history := s.history ++ [e] }

/-- The in-flight state of a channel. -/
def State.chan (s : State) (c : Chan) : Channel := s.ch.get c

/-- Change the in-flight state of a channel. -/
def State.modChan (s : State) (c : Chan) (f : Channel → Channel) : State :=
  { s with ch := s.ch.set c (f (s.ch.get c)) }

/-- The registers of a channel. -/
def State.regs (s : State) (c : Chan) : DmaRegs := s.dma.get c

/-- Change the registers of a channel. -/
def State.modRegs (s : State) (c : Chan) (f : DmaRegs → DmaRegs) : State :=
  { s with dma := s.dma.set c (f (s.dma.get c)) }

/-- Read one register of a channel. -/
def fieldGet (f : DmaField) (k : DmaRegs) : Word :=
  match f with
  | .r => k.r
  | .w => k.w
  | .c => k.c
  | .ad => k.ad
  | .en => k.en
  | .md => k.md

/-- Write one register of a channel: all 32 bits (30_encoding.md R94). -/
def fieldSet (f : DmaField) (v : Word) (k : DmaRegs) : DmaRegs :=
  match f with
  | .r => { k with r := v }
  | .w => { k with w := v }
  | .c => { k with c := v }
  | .ad => { k with ad := v }
  | .en => { k with en := v }
  | .md => { k with md := v }

/-- The handler set of a page (20_memory.md R48). -/
def State.page (s : State) (p : Nat) : DeviceId := tableGet .unhandled s.pt p

/-- The read mask of an address (41_region_mask.md R114). -/
def State.readMask (s : State) (addr : Word) : Word := tableGet 0 s.mr (maskPageOf addr)

/-- The write mask of an address (41_region_mask.md R115). -/
def State.writeMask (s : State) (addr : Word) : Word := tableGet 0 s.mw (maskPageOf addr)

/-- Install a handler set over a slot range (40_dispatcher.md R108). -/
def mapPages (first last : BitVec 8) (dev : DeviceId) (s : State) : State :=
  { s with pt := tableFill .unhandled s.pt first.toNat last.toNat dev }

/-- Fill the region mask tables (41_region_mask.md R113). -/
def fillMasks (m : MaskFill) (s : State) : State :=
  let lo := maskPageOf m.start
  let hi := maskPageOf m.stop
  let val := m.wmask ||| m.start
  { s with
    mr := tableFill 0 s.mr lo hi (if m.r then val else 0)
    mw := tableFill 0 s.mw lo hi (if m.w then val else 0) }

/-- Initialise the page table, then the mask fills of the parameter (40_dispatcher.md R109). -/
def initTables (s : State) : State :=
  let mapped := s.cfg.initPageMap.foldl (fun t e => mapPages e.first e.last e.dev t) { s with pt := [] }
  s.cfg.initMaskFills.foldl (fun t m => fillMasks m t) mapped

/-- The reset state of the block's registers, tables, channels and queue (70_reset_and_hazards.md R211): the nine
unspecified registers take fresh draws; the mark and the history stay (10_state.md R35, R36). -/
def resetBlock (s : State) : State :=
  { s with
    pt := []
    mr := []
    mw := []
    dma := ⟨resetRegs s.cfg s.draws, resetRegs s.cfg (s.draws + 3), resetRegs s.cfg (s.draws + 6)⟩
    ims := s.cfg.resetIms
    ist := s.cfg.resetIst
    aiack := s.cfg.resetAiack
    ch := ⟨Channel.idle, Channel.idle, Channel.idle⟩
    q := []
    draws := s.draws + 9 }

/-! Returned values. -/

/-- A command that returns a value. -/
def returning (v : Word) (s : State) : State := { s with ret := some v }

/-- A command that returns none. -/
def silent (s : State) : State := { s with ret := none }

/-- Finish a bus access: a read returns its value, a write returns none (30_encoding.md R72). -/
def finishAccess (op : BusOp) (x : Res (State × Word)) : Res State :=
  andThen x fun p =>
    match op with
    | .read _ => .next (returning p.2 p.1)
    | _ => .next (silent p.1)

/-- Finish a command that returns no value. -/
def finishSilent (x : Res State) : Res State := andThen x fun s => .next (silent s)

/-! Free values and external calls. -/

/-- A read that returns a draw at its width (00_scope.md R12). -/
def drawRead (w : Width) (s : State) : Res (State × Word) :=
  .next ({ s with draws := s.draws + 1 }, clip w (Config.draw s.draws))

/-- A read of an external collaborator (40_dispatcher.md R105): the call is recorded with the answer, then the
commands its handler issues run inside it (20_memory.md R66). The answer is the script's, else a free value. -/
def extRead (nest : Nest) (who : Collab) (w : Width) (a : Word) (s : State) : Res (State × Word) :=
  match s.script with
  | r :: rest =>
    let v := clip w r.answer
    andThen (nest r.nested ({ s with script := rest }.emit (.extRead who w a v))) fun t => .next (t, v)
  | [] =>
    let v := clip w (Config.answer s.draws who w a)
    .next ({ s with draws := s.draws + 1 }.emit (.extRead who w a v), v)

/-- A call that gives no answer (a write, or a DSP step): recorded, then the commands issued inside it run. -/
def extCall (nest : Nest) (e : Event) (s : State) : Res State :=
  match s.script with
  | r :: rest => nest r.nested ({ s with script := rest }.emit e)
  | [] => .next (s.emit e)

/-- An access of an external collaborator: one call (20_memory.md R59). A write returns 0, which nothing reads. -/
def extAccess (nest : Nest) (who : Collab) (op : BusOp) (a : Word) (s : State) : Res (State × Word) :=
  match op with
  | .read w => extRead nest who w a s
  | op => andThen (extCall nest (.extWrite who (opWidth op) a op.datum) s) fun t => .next (t, 0)

/-! The interrupt queue (44_interrupt_arbiter.md). -/

/-- Insert a record before the first one of a rank at most its own: after every record of a higher rank
(44_interrupt_arbiter.md R176). -/
def insertRecord (order : PriorityOrder) (r : IrqRecord) (q : List IrqRecord) : List IrqRecord :=
  let i := (q.filter fun x => decide (rank order r.level < rank order x.level)).length
  q.take i ++ r :: q.drop i

/-- The verdict of an enqueue (44_interrupt_arbiter.md R176); it is not visible on the bus. -/
inductive EnqueueResult where
  | accepted
  | rejectedDuplicate
  | rejectedFull
deriving DecidableEq, Repr

/-- Whether a record is accepted: the duplicate test comes before the capacity test (44_interrupt_arbiter.md R176). -/
def enqueueResult (r : IrqRecord) (q : List IrqRecord) : EnqueueResult :=
  if q.any fun x => x.vector == r.vector then .rejectedDuplicate
  else if q.length = queueCapacity then .rejectedFull
  else .accepted

/-- Enqueue a record (44_interrupt_arbiter.md R176): a rejection changes nothing. -/
def enqueue (r : IrqRecord) (s : State) : State :=
  match enqueueResult r s.q with
  | .accepted => { s with q := insertRecord s.cfg.priorityOrder r s.q }
  | .rejectedDuplicate => s
  | .rejectedFull => s

/-- Deliver at once (44_interrupt_arbiter.md R178): to core 0, and to core 1 if MIRROR has an entry. -/
def deliverNow (v : BitVec 8) (l : BitVec 4) (s : State) : State :=
  let t := s.emit (.sendInterrupt .primary v l)
  match s.cfg.mirror.find? fun m => m.vector == v with
  | some m => t.emit (.sendInterrupt .secondary m.toVector m.toLevel)
  | none => t

/-- Queue a raise and set its status bits, which happens even if the enqueue rejects (44_interrupt_arbiter.md R174). -/
def holdBack (r : IrqRecord) (s : State) : State :=
  let t := enqueue r s
  { t with ist := statusSet t.ist r.status }

/-- Raise an interrupt (44_interrupt_arbiter.md R174). -/
def raiseIrq (r : IrqRecord) (s : State) : State :=
  if r.mask = s.cfg.ackMask then
    if s.aiack then
      let t := { s with aiack := false }
      if unmasked t.ims r.mask then deliverNow r.vector r.level t else holdBack r t
    else holdBack r s
  else if unmasked s.ims r.mask then deliverNow r.vector r.level s
  else holdBack r s

/-- Take out the last element that a test holds of, keeping the order of the others (44_interrupt_arbiter.md R177). -/
def takeLast {α : Type} (p : α → Bool) : List α → Option (α × List α)
  | [] => none
  | x :: xs =>
    match takeLast p xs with
    | some (y, rest) => some (y, x :: rest)
    | none => if p x then some (x, xs) else none

/-- One delivery from the queue, to core 0 alone (44_interrupt_arbiter.md R177, R178). -/
def deliverQueued (r : IrqRecord) (rest : List IrqRecord) (s : State) : State :=
  { s with q := rest, ist := statusClear s.ist r.status }.emit (.sendInterrupt .primary r.vector r.level)

/-- At most n passes of the retest (44_interrupt_arbiter.md R177). -/
def retestPasses : Nat → State → State
  | 0, s => s
  | n + 1, s =>
    match takeLast (fun r => unmasked s.ims r.mask) s.q with
    | none => s
    | some (r, rest) => retestPasses n (deliverQueued r rest s)

/-- Retest (44_interrupt_arbiter.md R177): under ALL the passes go on until no record is unmasked, which takes at most
one pass per record; under ONE there is one pass. -/
def retestQueue (s : State) : State :=
  match s.cfg.retestMode with
  | .all => retestPasses s.q.length s
  | .one => retestPasses 1 s

/-- Drop the records whose status bits were cleared (44_interrupt_arbiter.md R180). -/
def removeByStatus (before after : BitVec 32) (s : State) : State :=
  let cleared := clearedBits before after
  let hit := fun (r : IrqRecord) => r.status &&& cleared != 0
  { s with
    ist := (s.q.filter hit).foldl (fun i r => statusClear i r.status) s.ist
    q := s.q.filter fun r => !hit r }

/-- Withdraw an interrupt by its vector (44_interrupt_arbiter.md R181). -/
def removeVector (v : BitVec 8) (bits : BitVec 32) (s : State) : State :=
  { s with
    ist := statusClear s.ist bits
    q := s.q.filter fun r => r.vector != v }

end Sys2Proof.Machine
end

