-- ==== Sys2Proof/Machine/Configuration.lean ====
section
/-! DEFINITION. The configuration commands (40_dispatcher.md R108, R109; 41_region_mask.md R113 to R115). -/

namespace Sys2Proof.Machine

/-- MAP: install a handler set over a slot range (40_dispatcher.md R108). A device that is not of the parameter's set
is INVALID (30_encoding.md R95). -/
def execMap (first last : BitVec 8) (dev : DeviceId) (s : State) : Res State :=
  if dev.named s.cfg.extraDevices then .next (silent (mapPages first last dev s)) else .refused .invalidCommand

/-- INIT: initialise the page table (40_dispatcher.md R109). -/
def execInit (s : State) : Res State := .next (silent (initTables s))

/-- MFILL: fill the region mask tables (41_region_mask.md R113). -/
def execMfill (start stop wmask : Word) (r w : Bool) (s : State) : Res State :=
  .next (silent (fillMasks ⟨start, stop, wmask, r, w⟩ s))

/-- MLKR: look up the read mask of an address (41_region_mask.md R114). -/
def execMlkr (addr : Word) (s : State) : Res State := .next (returning (s.readMask addr) s)

/-- MLKW: look up the write mask of an address (41_region_mask.md R115). -/
def execMlkw (addr : Word) (s : State) : Res State := .next (returning (s.writeMask addr) s)

end Sys2Proof.Machine
end

