-- ==== Sys2Proof/Machine/Interrupts.lean ====
section
/-! DEFINITION. The interrupt input commands (44_interrupt_arbiter.md R174, R177, R180, R181). -/

namespace Sys2Proof.Machine

/-- RAISE: raise an interrupt (44_interrupt_arbiter.md R174). -/
def execRaise (v : BitVec 8) (l : BitVec 4) (m : BitVec 16) (st : BitVec 32) (s : State) : Res State :=
  .next (silent (raiseIrq ⟨v, l, m, st⟩ s))

/-- REMOVE: withdraw an interrupt; the level is not used (44_interrupt_arbiter.md R181). -/
def execRemove (v : BitVec 8) (_l : BitVec 4) (st : BitVec 32) (s : State) : Res State :=
  .next (silent (removeVector v st s))

/-- RETEST: deliver the queued records that are unmasked (44_interrupt_arbiter.md R177). -/
def execRetest (s : State) : Res State := .next (silent (retestQueue s))

/-- RMSTAT: drop the records whose status bits were cleared (44_interrupt_arbiter.md R180). -/
def execRmstat (before after : BitVec 32) (s : State) : Res State :=
  .next (silent (removeByStatus before after s))

end Sys2Proof.Machine
end

