-- ==== Sys2Proof/Machine/Dispatcher.lean ====
section
/-! DEFINITION. The address dispatcher (20_memory.md R47 to R53, 40_dispatcher.md §1 and R105 to R107): the zone
routes, the handler sets and the discriminator. What an access does when it reaches the controller registers is an
argument: a bus access gives `ctrlAccess`, the DMA engine gives a refusal (43_dma.md R158). -/

namespace Sys2Proof.Machine

/-- What an access does when it reaches the controller (40_dispatcher.md R107). -/
abbrev OnCtrl := BusOp → Word → State → Res (State × Word)

/-- The discriminator's test (40_dispatcher.md R107). -/
def selectsCtrl (cfg : Config) (a : Word) : Bool := a &&& cfg.ctrlSelMask == cfg.ctrlBase

/-- Call a handler set with the address it receives (40_dispatcher.md R105 to R107). -/
def callHandler (onCtrl : OnCtrl) (nest : Nest) (h : DeviceId) (op : BusOp) (a : Word) (s : State) :
    Res (State × Word) :=
  match h with
  | .unhandled => .next (s, 0)
  | .combo =>
    if selectsCtrl s.cfg a then onCtrl op a s else extAccess nest (.device .vdp2reg) op a s
  | .ext d => extAccess nest (.device d) op a s

/-- Zones 0, 1 and 5: the page's handler set, called with A29 (20_memory.md R48, R49). -/
def routePage (onCtrl : OnCtrl) (nest : Nest) (op : BusOp) (addr : Word) (s : State) : Res (State × Word) :=
  callHandler onCtrl nest (s.page (pageOf (a29 addr))) op (a29 addr) s

/-- Zones 2 and 6: the data array, with the full address (20_memory.md R51). -/
def routeDataArray (nest : Nest) (op : BusOp) (addr : Word) (s : State) : Res (State × Word) :=
  extAccess nest .dataArray op addr s

/-- Zone 3: reads give 0, a 32-bit write goes to the address array, a narrow write does nothing (20_memory.md R50). -/
def routeAddrArray (nest : Nest) (op : BusOp) (addr : Word) (s : State) : Res (State × Word) :=
  match op with
  | .write32 v => extAccess nest .addrArray (.write32 v) addr s
  | _ => .next (s, 0)

/-- Zone 7: the on-chip set, with the 9-bit sub-address (20_memory.md R52). -/
def routeOnChip (nest : Nest) (op : BusOp) (addr : Word) (s : State) : Res (State × Word) :=
  extAccess nest .onChip op (onChipSub addr) s

/-- Zone 4: the unhandled stub (20_memory.md R53, 40_dispatcher.md R106). -/
def routeUnhandled (onCtrl : OnCtrl) (nest : Nest) (op : BusOp) (addr : Word) (s : State) : Res (State × Word) :=
  callHandler onCtrl nest .unhandled op addr s

/-- The shared access routine (40_dispatcher.md §1). -/
def access (onCtrl : OnCtrl) (nest : Nest) (op : BusOp) (addr : Word) (s : State) : Res (State × Word) :=
  match (zoneOf addr).toNat with
  | 0 => routePage onCtrl nest op addr s
  | 1 => routePage onCtrl nest op addr s
  | 2 => routeDataArray nest op addr s
  | 3 => routeAddrArray nest op addr s
  | 4 => routeUnhandled onCtrl nest op addr s
  | 5 => routePage onCtrl nest op addr s
  | 6 => routeDataArray nest op addr s
  | _ => routeOnChip nest op addr s

/-- An access of the DMA engine that reaches the controller is refused, whatever its width, before it takes effect
(43_dma.md R158, 60_exceptions.md R191). -/
def refuseCtrl : OnCtrl := fun _ _ _ => .refused .dmaToController

end Sys2Proof.Machine
end

