-- ==== Sys2Proof/Machine/Dma.lean ====
section
/-! DEFINITION. The DMA engine (43_dma.md): units, bursts, notification, completion, stepping, arming. Each line of
the pseudocode reads the state as the calls before it left it, so that commands issued inside a call
(20_memory.md R66) are seen; see notes/assumptions/21.md. The one loop without a bound, a drain's, is a least
fixpoint: it has a result exactly if it ends (43_dma.md R169). -/

namespace Sys2Proof.Machine

/-- MemRead (43_dma.md R144, R158). -/
def dmaRead (nest : Nest) (w : Width) (a : Word) (s : State) : Res (State × Word) :=
  access refuseCtrl nest (.read w) a s

/-- MemWrite (43_dma.md R144, R158). -/
def dmaWrite (nest : Nest) (op : BusOp) (a : Word) (s : State) : Res State :=
  andThen (access refuseCtrl nest op a s) fun p => .next p.1

/-- Go on with the transfer of a channel. A command issued inside one of its accesses (20_memory.md R66) may have
ended it: RESET abandons a transfer (70_reset_and_hazards.md R211), a drain completes it. The channel is then idle; an
idle channel makes no access and raises nothing (43_dma.md R164) and is all zero (10_state.md R27), so nothing more
happens for it (notes/assumptions/21.md). -/
def whileActive (c : Chan) (f : State → Res State) (s : State) : Res State :=
  if (s.chan c).active then f s else .next s

/-! Bursts. -/

/-- Load one burst (43_dma.md R148). -/
def loadBurst (cfg : Config) (r w n : Word) (last : Bool) (k : Channel) : Channel :=
  { k with
    ra := r
    wa := w
    tn := n
    last := last
    narrow := inBBus cfg w
    csrc := decide (k.raAdd = 0) && constSource cfg r
    fvalid := false
    fval := 0
    half := false
    seg := w
    segw := false }

/-- Load the descriptor at the channel's pointer: three reads in this order (43_dma.md R149). -/
def loadDescriptor (nest : Nest) (c : Chan) (s : State) : Res State :=
  let p := (s.chan c).ptr
  andThen (dmaRead nest .w32 p s) fun n =>
  n.1 |> whileActive c fun s1 => andThen (dmaRead nest .w32 (p + 4) s1) fun w =>
  w.1 |> whileActive c fun s2 => andThen (dmaRead nest .w32 (p + 8) s2) fun r =>
  r.1 |> whileActive c fun s3 =>
  .next (s3.modChan c
    (loadBurst s3.cfg (descriptorRead r.2) w.2 (byteCount s3.cfg c n.2) (lastMark r.2)))

/-- Close the write segment (43_dma.md R159). -/
def closeSegment (c : Chan) (s : State) : State :=
  let k := s.chan c
  let t := if k.segw && inWram s.cfg (a29 k.seg) then s.emit (.notifyWrite k.seg (k.wa - k.seg)) else s
  t.modChan c fun k => { k with seg := k.wa, segw := false }

/-- Write the addresses back, in direct mode only (43_dma.md R161). -/
def writeBack (c : Chan) (s : State) : State :=
  let k := s.chan c
  if k.indirect then s
  else
    let t := if k.rup then s.modRegs c (fieldSet .r k.ra) else s
    if k.wup then t.modRegs c (fieldSet .w k.wa) else t

/-- Complete a transfer: write back, clear the channel, raise the end interrupt (43_dma.md R161, R162). -/
def complete (c : Chan) (s : State) : State :=
  let t := (writeBack c s).modChan c fun _ => Channel.idle
  raiseIrq (t.cfg.dmaEnd.get c) t

/-- End of a burst (43_dma.md R160). -/
def endBurst (nest : Nest) (c : Chan) (s : State) : Res State :=
  let t := closeSegment c s
  let k := t.chan c
  if k.indirect && !k.last then
    loadDescriptor nest c (t.modChan c fun k => { k with ptr := k.ptr + 12 })
  else .next (complete c t)

/-! Units. -/

/-- After a write of a unit of `size` bytes: the write address, the count, the segment mark (43_dma.md R155 to R157). -/
def afterWrite (size : Word) (k : Channel) : Channel :=
  { k with wa := k.wa + k.waAdd, tn := k.tn - size, segw := true }

/-- A copy unit (43_dma.md R155). -/
def copyUnit (nest : Nest) (c : Chan) (s : State) : Res State :=
  let k := s.chan c
  if k.narrow then
    andThen (dmaRead nest .w16 k.ra s) fun p =>
    andThen (whileActive c (fun t => dmaWrite nest (.write16 (p.2.setWidth 16)) (t.chan c).wa t) p.1) <|
    whileActive c fun t => .next (t.modChan c fun k => afterWrite 2 { k with ra := k.ra + 2 })
  else
    andThen (dmaRead nest .w32 k.ra s) fun p =>
    andThen (whileActive c (fun t => dmaWrite nest (.write32 p.2) (t.chan c).wa t) p.1) <|
    whileActive c fun t => .next (t.modChan c fun k => afterWrite 4 { k with ra := k.ra + 4 })

/-- Read the fill value, unless a constant source's is cached (43_dma.md R156, R157). -/
def readFill (nest : Nest) (c : Chan) (s : State) : Res State :=
  let k := s.chan c
  if k.csrc && k.fvalid then .next s
  else
    andThen (dmaRead nest .w32 k.ra s) fun p =>
    p.1 |> whileActive c fun t => .next (t.modChan c fun k => { k with fval := p.2, fvalid := true })

/-- A narrow fill unit: one 16-bit half, the high half first (43_dma.md R156). -/
def fillNarrowUnit (nest : Nest) (c : Chan) (s : State) : Res State :=
  andThen
    (if (s.chan c).half then dmaWrite nest (.write16 (lowHalf (s.chan c).fval)) (s.chan c).wa s
     else
      andThen (readFill nest c s) <|
      whileActive c fun t => dmaWrite nest (.write16 (highHalf (t.chan c).fval)) (t.chan c).wa t) <|
  whileActive c fun t => .next (t.modChan c fun k => afterWrite 2 { k with half := !k.half })

/-- A wide fill unit (43_dma.md R157). -/
def fillWideUnit (nest : Nest) (c : Chan) (s : State) : Res State :=
  andThen (readFill nest c s) fun t =>
  andThen (whileActive c (fun t => dmaWrite nest (.write32 (t.chan c).fval) (t.chan c).wa t) t) <|
  whileActive c fun u => .next (u.modChan c (afterWrite 4))

/-- One unit (43_dma.md R154). -/
def unit (nest : Nest) (c : Chan) (s : State) : Res State :=
  let k := s.chan c
  if k.raAdd ≠ 0 then copyUnit nest c s
  else if k.narrow then fillNarrowUnit nest c s
  else fillWideUnit nest c s

/-! Stepping. -/

/-- A burst ends as soon as the signed count is not positive (43_dma.md R150). -/
def burstDone (k : Channel) : Bool := k.tn.sle 0

/-- One unit and, where the burst is done, its end (43_dma.md R153). -/
def tick (nest : Nest) (c : Chan) (s : State) : Res State :=
  andThen (unit nest c s) <|
  whileActive c fun t => if burstDone (t.chan c) then endBurst nest c t else .next t

/-- At most `budget` units of a channel, while it is active (43_dma.md R153). -/
def ticks (nest : Nest) (c : Chan) : Nat → State → Res State
  | 0, s => .next s
  | budget + 1, s =>
    if (s.chan c).active then andThen (tick nest c s) (ticks nest c budget) else .next s

/-- Step a channel by a finite budget (43_dma.md R153). -/
def stepChannel (nest : Nest) (c : Chan) (budget : Nat) (s : State) : Res State :=
  andThen (ticks nest c budget s) fun t =>
  .next (if (t.chan c).active then closeSegment c t else t)

/-- The loop of a step without a bound (43_dma.md R153 with INF): units while the channel is active. It is the least
fixpoint of its equation, so it has a result exactly if the loop ends, after however many units. -/
def drainLoop (nest : Nest) (c : Chan) (s : State) : Option (Res State) :=
  if (s.chan c).active then
    match tick nest c s with
    | .next t => drainLoop nest c t
    | .fault r => some (.fault r)
    | .refused r => some (.refused r)
  else some (.next s)
partial_fixpoint

/-- How many units of a drain Lean's kernel can evaluate. It bounds nothing: `drainLoop` goes on from there
(`drainChannel_eq` in Laws/Engine.lean). -/
def drainUnrolled : Nat := 2 ^ 64

/-- Step a channel without a bound (43_dma.md R153 with INF): to completion if the loop ends, and if it never does,
the hang of R169, which has no final state. -/
def drainChannel (nest : Nest) (c : Chan) (s : State) : Res State :=
  andThen (ticks nest c drainUnrolled s) fun t =>
  if (t.chan c).active then (drainLoop nest c t).getD (.fault .dmaHang) else .next t

/-! Arming. -/

/-- What `latch` copies from DcMD and DcAD (43_dma.md R147). -/
def latchMode (k : DmaRegs) (x : Channel) : Channel :=
  { x with
    active := true
    indirect := modeIndirect k.md
    rup := readUpdate k.md
    wup := writeUpdate k.md
    raAdd := readAdd k.ad
    waAdd := writeAdd k.ad }

/-- Latch the registers into the channel (43_dma.md R147). -/
def latch (nest : Nest) (c : Chan) (s : State) : Res State :=
  let k := s.regs c
  let t := s.modChan c (latchMode k)
  if modeIndirect k.md then
    loadDescriptor nest c (t.modChan c fun x => { x with ptr := k.w })
  else .next (t.modChan c (loadBurst s.cfg k.r k.w (byteCount s.cfg c k.c) true))

/-- Arm a channel: a transfer in flight is drained first (43_dma.md R146). -/
def arm (nest : Nest) (c : Chan) (s : State) : Res State :=
  andThen (if (s.chan c).active then drainChannel nest c s else .next s) (latch nest c)

end Sys2Proof.Machine
end

