-- ==== Sys2Proof/Machine/Controller.lean ====
section
/-! DEFINITION. The controller registers (42_controller_registers.md): what a 32-bit access at each kind of offset
does, and the entry `ctrlAccess` with the narrow and misaligned cases. -/

namespace Sys2Proof.Machine

/-- A write to DcEN: stored, then the start condition with this value and the current DcMD
(42_controller_registers.md R124, 43_dma.md R145). -/
def writeEnable (nest : Nest) (c : Chan) (v : Word) (s : State) : Res State :=
  let t := s.modRegs c (fieldSet .en v)
  match startDecision v (t.regs c).md with
  | .arm => arm nest c t
  | .refuse why => .refused why
  | .nothing => .next t

/-- An access of a DMA channel register other than DcEN (42_controller_registers.md R122, R123). -/
def dmaRegister (c : Chan) (f : DmaField) (op : RegOp) (s : State) : Res (State × Word) :=
  match op with
  | .read => .next (s, fieldGet f (s.regs c))
  | .write v => .next (s.modRegs c (fieldSet f v), 0)

/-- An access of DcEN (42_controller_registers.md R123, R124). -/
def enableRegister (nest : Nest) (c : Chan) (op : RegOp) (s : State) : Res (State × Word) :=
  match op with
  | .read => .next (s, (s.regs c).en)
  | .write v => andThen (writeEnable nest c v s) fun t => .next (t, 0)

/-- An access of DSTP (42_controller_registers.md R136, R137). -/
def dstpRegister (op : RegOp) (s : State) : Res (State × Word) :=
  match op with
  | .read => drawRead .w32 s
  | .write v => if v.getLsbD 0 then .refused .dmaForceStop else .next (s, 0)

/-- An access of DSTA (42_controller_registers.md R134, R135). -/
def dstaRegister (op : RegOp) (s : State) : Res (State × Word) :=
  match op with
  | .read => drawRead .w32 s
  | .write _ => .next (s, 0)

/-- An access of a reserved offset (42_controller_registers.md R139). -/
def reservedRegister (op : RegOp) (s : State) : Res (State × Word) :=
  match op with
  | .read => drawRead .w32 s
  | .write _ => .next (s, 0)

/-- An access of a forwarded offset: passed to SCU_OTHER with the offset (42_controller_registers.md R138). -/
def forwardedRegister (nest : Nest) (off : BitVec 8) (op : RegOp) (s : State) : Res (State × Word) :=
  extAccess nest .scuOther op.toBus (off.setWidth 32) s

/-- An access of IMS: a write stores bits 15:0 and retests (42_controller_registers.md R125, R126). -/
def imsRegister (op : RegOp) (s : State) : Res (State × Word) :=
  match op with
  | .read => .next (s, s.ims.setWidth 32)
  | .write v => .next (retestQueue { s with ims := v.setWidth 16 }, 0)

/-- An access of IST: a written 0 clears a bit and drops its records (42_controller_registers.md R129, R130). -/
def istRegister (op : RegOp) (s : State) : Res (State × Word) :=
  match op with
  | .read => .next (s, s.ist)
  | .write v => .next (removeByStatus s.ist (s.ist &&& v) { s with ist := s.ist &&& v }, 0)

/-- An access of AIACK: a write stores bit 0, and a 1 retests (42_controller_registers.md R131, R132). -/
def aiackRegister (op : RegOp) (s : State) : Res (State × Word) :=
  match op with
  | .read => .next (s, (BitVec.ofBool s.aiack).setWidth 32)
  | .write v =>
    let t := { s with aiack := v.getLsbD 0 }
    .next (if v.getLsbD 0 then retestQueue t else t, 0)

/-- A 32-bit access at an offset that is a multiple of 4: what the offset map puts there
(42_controller_registers.md R120, 30_encoding.md R80). -/
def registerAccess (nest : Nest) (off : BitVec 8) (op : RegOp) (s : State) : Res (State × Word) :=
  match ctrlRegAt s.cfg off with
  | .dma c .en => enableRegister nest c op s
  | .dma c f => dmaRegister c f op s
  | .dstp => dstpRegister op s
  | .dsta => dstaRegister op s
  | .ims => imsRegister op s
  | .ist => istRegister op s
  | .aiack => aiackRegister op s
  | .forwarded => forwardedRegister nest off op s
  | .reserved => reservedRegister op s

/-- The offset is a multiple of 4. -/
def offsetAligned (off : BitVec 8) : Bool := off.extractLsb' 0 2 == 0#2

/-- A controller access (42_controller_registers.md R120, R141). -/
def ctrlAccess (nest : Nest) : OnCtrl := fun op a s =>
  match op with
  | .read .w32 =>
    if offsetAligned (regOffset a) then registerAccess nest (regOffset a) .read s else drawRead .w32 s
  | .read w => drawRead w s
  | .write32 v =>
    if offsetAligned (regOffset a) then registerAccess nest (regOffset a) (.write v) s
    else .refused .ctrlMisaligned
  | .write16 _ => .refused .ctrlNarrowWrite
  | .write8 _ => .refused .ctrlNarrowWrite

/-- A bus access (40_dispatcher.md §1). -/
def busAccess (nest : Nest) (op : BusOp) (addr : Word) (s : State) : Res (State × Word) :=
  access (ctrlAccess nest) nest op addr s

/-- A register row: a 32-bit access at its A29, through slot 0xBF and the discriminator, and if that selects the
controller, what the offset map puts at the row's offset (30_encoding.md R79, R80, R98; notes/assumptions/4.md). -/
def portAccess (nest : Nest) (off m : BitVec 8) (op : RegOp) (s : State) : Res State :=
  finishAccess op.toBus (busAccess nest op.toBus (registerAddress off m) s)

end Sys2Proof.Machine
end

