-- ==== Sys2Proof/Machine/Meanings.lean ====
section
/-! DEFINITION. The meaning of each instruction that may call an external collaborator, as a function of how the
commands that a handler issues inside its call are run (20_memory.md R66). `Machine/Handlers.lean` ties the knot. -/

namespace Sys2Proof.Machine

/-! Bus access commands (40_dispatcher.md R99 to R104). -/

/-- RD8: read one byte (40_dispatcher.md R99). -/
def rd8With (nest : Nest) (addr : Word) (s : State) : Res State :=
  finishAccess (.read .w8) (busAccess nest (.read .w8) addr s)

/-- RD16: read two bytes (40_dispatcher.md R100). -/
def rd16With (nest : Nest) (addr : Word) (s : State) : Res State :=
  finishAccess (.read .w16) (busAccess nest (.read .w16) addr s)

/-- RD32: read four bytes (40_dispatcher.md R101). -/
def rd32With (nest : Nest) (addr : Word) (s : State) : Res State :=
  finishAccess (.read .w32) (busAccess nest (.read .w32) addr s)

/-- WR8: write one byte (40_dispatcher.md R102). -/
def wr8With (nest : Nest) (addr : Word) (data : BitVec 8) (s : State) : Res State :=
  finishAccess (.write8 data) (busAccess nest (.write8 data) addr s)

/-- WR16: write two bytes (40_dispatcher.md R103). -/
def wr16With (nest : Nest) (addr : Word) (data : BitVec 16) (s : State) : Res State :=
  finishAccess (.write16 data) (busAccess nest (.write16 data) addr s)

/-- WR32: write four bytes (40_dispatcher.md R104). -/
def wr32With (nest : Nest) (addr : Word) (data : BitVec 32) (s : State) : Res State :=
  finishAccess (.write32 data) (busAccess nest (.write32 data) addr s)

/-! The controller step (43_dma.md R166 to R168). -/

/-- EXEC: each channel in index order by the whole budget, then the DSP step (43_dma.md R166, R167). -/
def execWith (nest : Nest) (t : Word) (s : State) : Res State :=
  finishSilent (andThen (stepChannel nest .c0 t.toNat s) fun s0 =>
    andThen (stepChannel nest .c1 t.toNat s0) fun s1 =>
    andThen (stepChannel nest .c2 t.toNat s1) fun s2 =>
    extCall nest (.dspStep t) s2)

/-- DRAIN: each channel in index order to completion; no DSP step (43_dma.md R168). -/
def drainWith (nest : Nest) (s : State) : Res State :=
  finishSilent (andThen (drainChannel nest .c0 s) fun s0 =>
    andThen (drainChannel nest .c1 s0) fun s1 =>
    drainChannel nest .c2 s1)

/-! The zone routes (20_memory.md R47). -/

/-- ZONE0_PAGE_TABLE (20_memory.md R48, R49). -/
def zone0PageTableWith (nest : Nest) (a : BitVec 29) (op : BusOp) (s : State) : Res State :=
  finishAccess op (routePage (ctrlAccess nest) nest op (withZone 0 a) s)

/-- ZONE1_PAGE_TABLE (20_memory.md R48, R49). -/
def zone1PageTableWith (nest : Nest) (a : BitVec 29) (op : BusOp) (s : State) : Res State :=
  finishAccess op (routePage (ctrlAccess nest) nest op (withZone 1 a) s)

/-- ZONE5_PAGE_TABLE (20_memory.md R48, R49). -/
def zone5PageTableWith (nest : Nest) (a : BitVec 29) (op : BusOp) (s : State) : Res State :=
  finishAccess op (routePage (ctrlAccess nest) nest op (withZone 5 a) s)

/-- ZONE2_DATA_ARRAY (20_memory.md R51). -/
def zone2DataArrayWith (nest : Nest) (a : BitVec 29) (op : BusOp) (s : State) : Res State :=
  finishAccess op (routeDataArray nest op (withZone 2 a) s)

/-- ZONE6_DATA_ARRAY (20_memory.md R51). -/
def zone6DataArrayWith (nest : Nest) (a : BitVec 29) (op : BusOp) (s : State) : Res State :=
  finishAccess op (routeDataArray nest op (withZone 6 a) s)

/-- ZONE3_ADDRESS_ARRAY (20_memory.md R50). -/
def zone3AddressArrayWith (nest : Nest) (a : BitVec 29) (op : BusOp) (s : State) : Res State :=
  finishAccess op (routeAddrArray nest op (withZone 3 a) s)

/-- ZONE4_UNHANDLED (20_memory.md R53). -/
def zone4UnhandledWith (nest : Nest) (a : BitVec 29) (op : BusOp) (s : State) : Res State :=
  finishAccess op (routeUnhandled (ctrlAccess nest) nest op (withZone 4 a) s)

/-- ZONE7_ONCHIP (20_memory.md R52). -/
def zone7OnchipWith (nest : Nest) (a : BitVec 29) (op : BusOp) (s : State) : Res State :=
  finishAccess op (routeOnChip nest op (withZone 7 a) s)

/-! The register rows of the opcode table: the access at the row's offset (30_encoding.md R80, R98). What is said
of a row is what the default offset map puts there. -/

/-- D0R, offset 0x00 (42_controller_registers.md R122, R123). -/
def d0rWith (nest : Nest) (m : BitVec 8) (op : RegOp) (s : State) : Res State :=
  portAccess nest 0x00 m op s

/-- D0W, offset 0x04 (42_controller_registers.md R122, R123). -/
def d0wWith (nest : Nest) (m : BitVec 8) (op : RegOp) (s : State) : Res State :=
  portAccess nest 0x04 m op s

/-- D0C, offset 0x08 (42_controller_registers.md R122, R123). -/
def d0cWith (nest : Nest) (m : BitVec 8) (op : RegOp) (s : State) : Res State :=
  portAccess nest 0x08 m op s

/-- D0AD, offset 0x0C (42_controller_registers.md R122, R123). -/
def d0adWith (nest : Nest) (m : BitVec 8) (op : RegOp) (s : State) : Res State :=
  portAccess nest 0x0C m op s

/-- D0EN, offset 0x10 (42_controller_registers.md R123, R124; 43_dma.md R145). -/
def d0enWith (nest : Nest) (m : BitVec 8) (op : RegOp) (s : State) : Res State :=
  portAccess nest 0x10 m op s

/-- D0MD, offset 0x14 (42_controller_registers.md R122, R123). -/
def d0mdWith (nest : Nest) (m : BitVec 8) (op : RegOp) (s : State) : Res State :=
  portAccess nest 0x14 m op s

/-- D1R, offset 0x20 (42_controller_registers.md R122, R123). -/
def d1rWith (nest : Nest) (m : BitVec 8) (op : RegOp) (s : State) : Res State :=
  portAccess nest 0x20 m op s

/-- D1W, offset 0x24 (42_controller_registers.md R122, R123). -/
def d1wWith (nest : Nest) (m : BitVec 8) (op : RegOp) (s : State) : Res State :=
  portAccess nest 0x24 m op s

/-- D1C, offset 0x28 (42_controller_registers.md R122, R123). -/
def d1cWith (nest : Nest) (m : BitVec 8) (op : RegOp) (s : State) : Res State :=
  portAccess nest 0x28 m op s

/-- D1AD, offset 0x2C (42_controller_registers.md R122, R123). -/
def d1adWith (nest : Nest) (m : BitVec 8) (op : RegOp) (s : State) : Res State :=
  portAccess nest 0x2C m op s

/-- D1EN, offset 0x30 (42_controller_registers.md R123, R124; 43_dma.md R145). -/
def d1enWith (nest : Nest) (m : BitVec 8) (op : RegOp) (s : State) : Res State :=
  portAccess nest 0x30 m op s

/-- D1MD, offset 0x34 (42_controller_registers.md R122, R123). -/
def d1mdWith (nest : Nest) (m : BitVec 8) (op : RegOp) (s : State) : Res State :=
  portAccess nest 0x34 m op s

/-- D2R, offset 0x40 (42_controller_registers.md R122, R123). -/
def d2rWith (nest : Nest) (m : BitVec 8) (op : RegOp) (s : State) : Res State :=
  portAccess nest 0x40 m op s

/-- D2W, offset 0x44 (42_controller_registers.md R122, R123). -/
def d2wWith (nest : Nest) (m : BitVec 8) (op : RegOp) (s : State) : Res State :=
  portAccess nest 0x44 m op s

/-- D2C, offset 0x48 (42_controller_registers.md R122, R123). -/
def d2cWith (nest : Nest) (m : BitVec 8) (op : RegOp) (s : State) : Res State :=
  portAccess nest 0x48 m op s

/-- D2AD, offset 0x4C (42_controller_registers.md R122, R123). -/
def d2adWith (nest : Nest) (m : BitVec 8) (op : RegOp) (s : State) : Res State :=
  portAccess nest 0x4C m op s

/-- D2EN, offset 0x50 (42_controller_registers.md R123, R124; 43_dma.md R145). -/
def d2enWith (nest : Nest) (m : BitVec 8) (op : RegOp) (s : State) : Res State :=
  portAccess nest 0x50 m op s

/-- D2MD, offset 0x54 (42_controller_registers.md R122, R123). -/
def d2mdWith (nest : Nest) (m : BitVec 8) (op : RegOp) (s : State) : Res State :=
  portAccess nest 0x54 m op s

/-- DSTP, offset 0x60 (42_controller_registers.md R136, R137). -/
def dstpWith (nest : Nest) (m : BitVec 8) (op : RegOp) (s : State) : Res State :=
  portAccess nest 0x60 m op s

/-- DSTA, offset 0x7C (42_controller_registers.md R134, R135). -/
def dstaWith (nest : Nest) (m : BitVec 8) (op : RegOp) (s : State) : Res State :=
  portAccess nest 0x7C m op s

/-- PPAF, offset 0x80 (42_controller_registers.md R138). -/
def ppafWith (nest : Nest) (m : BitVec 8) (op : RegOp) (s : State) : Res State :=
  portAccess nest 0x80 m op s

/-- PPD, offset 0x84 (42_controller_registers.md R138). -/
def ppdWith (nest : Nest) (m : BitVec 8) (op : RegOp) (s : State) : Res State :=
  portAccess nest 0x84 m op s

/-- PDA, offset 0x88 (42_controller_registers.md R138). -/
def pdaWith (nest : Nest) (m : BitVec 8) (op : RegOp) (s : State) : Res State :=
  portAccess nest 0x88 m op s

/-- PDD, offset 0x8C (42_controller_registers.md R138). -/
def pddWith (nest : Nest) (m : BitVec 8) (op : RegOp) (s : State) : Res State :=
  portAccess nest 0x8C m op s

/-- T0C, offset 0x90 (42_controller_registers.md R138). -/
def t0cWith (nest : Nest) (m : BitVec 8) (op : RegOp) (s : State) : Res State :=
  portAccess nest 0x90 m op s

/-- T1S, offset 0x94 (42_controller_registers.md R138). -/
def t1sWith (nest : Nest) (m : BitVec 8) (op : RegOp) (s : State) : Res State :=
  portAccess nest 0x94 m op s

/-- T1MD, offset 0x98 (42_controller_registers.md R138). -/
def t1mdWith (nest : Nest) (m : BitVec 8) (op : RegOp) (s : State) : Res State :=
  portAccess nest 0x98 m op s

/-- IMS, offset 0xA0 (42_controller_registers.md R125, R126). -/
def imsWith (nest : Nest) (m : BitVec 8) (op : RegOp) (s : State) : Res State :=
  portAccess nest 0xA0 m op s

/-- IST, offset 0xA4 (42_controller_registers.md R129, R130). -/
def istWith (nest : Nest) (m : BitVec 8) (op : RegOp) (s : State) : Res State :=
  portAccess nest 0xA4 m op s

/-- AIACK, offset 0xA8 (42_controller_registers.md R131, R132). -/
def aiackWith (nest : Nest) (m : BitVec 8) (op : RegOp) (s : State) : Res State :=
  portAccess nest 0xA8 m op s

/-- ASR0, offset 0xB0 (42_controller_registers.md R138). -/
def asr0With (nest : Nest) (m : BitVec 8) (op : RegOp) (s : State) : Res State :=
  portAccess nest 0xB0 m op s

/-- ASR1, offset 0xB4 (42_controller_registers.md R138). -/
def asr1With (nest : Nest) (m : BitVec 8) (op : RegOp) (s : State) : Res State :=
  portAccess nest 0xB4 m op s

/-- AREF, offset 0xB8 (42_controller_registers.md R138). -/
def arefWith (nest : Nest) (m : BitVec 8) (op : RegOp) (s : State) : Res State :=
  portAccess nest 0xB8 m op s

/-- RSEL, offset 0xC4 (42_controller_registers.md R138). -/
def rselWith (nest : Nest) (m : BitVec 8) (op : RegOp) (s : State) : Res State :=
  portAccess nest 0xC4 m op s

/-- VER, offset 0xC8 (42_controller_registers.md R138). -/
def verWith (nest : Nest) (m : BitVec 8) (op : RegOp) (s : State) : Res State :=
  portAccess nest 0xC8 m op s

/-- RESERVED_OFFSET (42_controller_registers.md R139). -/
def reservedOffsetWith (nest : Nest) (off m : BitVec 8) (op : RegOp) (s : State) : Res State :=
  portAccess nest off m op s

end Sys2Proof.Machine
end

