-- ==== Sys2Proof/Machine/ResetCommand.lean ====
section
/-! DEFINITION. The reset command (70_reset_and_hazards.md R211). -/

namespace Sys2Proof.Machine

/-- RESET: put the block in its reset state; no event, and the mark and the history stay
(70_reset_and_hazards.md R211). -/
def execReset (s : State) : Res State := .next (silent (resetBlock s))

end Sys2Proof.Machine
end

