-- ==== Sys2Proof/Machine/Handlers.lean ====
section
/-! DEFINITION. The commands that a handler issues inside its call run to their end there (20_memory.md R66). Each
call takes one entry of the script, so no run nests deeper than the script is long, and that length bounds the
recursion exactly (notes/assumptions/7.md). -/

namespace Sys2Proof.Machine

/-- The meaning of an instruction, with `nest` for the commands issued inside its calls. -/
def instrWith (nest : Nest) (i : Instr) (s : State) : Res State :=
  match i with
  | .rd8 addr => rd8With nest addr s
  | .rd16 addr => rd16With nest addr s
  | .rd32 addr => rd32With nest addr s
  | .wr8 addr data => wr8With nest addr data s
  | .wr16 addr data => wr16With nest addr data s
  | .wr32 addr data => wr32With nest addr data s
  | .map first last dev => execMap first last dev s
  | .init => execInit s
  | .mfill start stop wmask r w => execMfill start stop wmask r w s
  | .mlkr addr => execMlkr addr s
  | .mlkw addr => execMlkw addr s
  | .exec t => execWith nest t s
  | .drain => drainWith nest s
  | .raise v l m st => execRaise v l m st s
  | .remove v l st => execRemove v l st s
  | .retest => execRetest s
  | .rmstat before after => execRmstat before after s
  | .reset => execReset s
  | .zone0PageTable a op => zone0PageTableWith nest a op s
  | .zone1PageTable a op => zone1PageTableWith nest a op s
  | .zone5PageTable a op => zone5PageTableWith nest a op s
  | .zone2DataArray a op => zone2DataArrayWith nest a op s
  | .zone6DataArray a op => zone6DataArrayWith nest a op s
  | .zone3AddressArray a op => zone3AddressArrayWith nest a op s
  | .zone4Unhandled a op => zone4UnhandledWith nest a op s
  | .zone7Onchip a op => zone7OnchipWith nest a op s
  | .d0r m op => d0rWith nest m op s
  | .d0w m op => d0wWith nest m op s
  | .d0c m op => d0cWith nest m op s
  | .d0ad m op => d0adWith nest m op s
  | .d0en m op => d0enWith nest m op s
  | .d0md m op => d0mdWith nest m op s
  | .d1r m op => d1rWith nest m op s
  | .d1w m op => d1wWith nest m op s
  | .d1c m op => d1cWith nest m op s
  | .d1ad m op => d1adWith nest m op s
  | .d1en m op => d1enWith nest m op s
  | .d1md m op => d1mdWith nest m op s
  | .d2r m op => d2rWith nest m op s
  | .d2w m op => d2wWith nest m op s
  | .d2c m op => d2cWith nest m op s
  | .d2ad m op => d2adWith nest m op s
  | .d2en m op => d2enWith nest m op s
  | .d2md m op => d2mdWith nest m op s
  | .dstp m op => dstpWith nest m op s
  | .dsta m op => dstaWith nest m op s
  | .ppaf m op => ppafWith nest m op s
  | .ppd m op => ppdWith nest m op s
  | .pda m op => pdaWith nest m op s
  | .pdd m op => pddWith nest m op s
  | .t0c m op => t0cWith nest m op s
  | .t1s m op => t1sWith nest m op s
  | .t1md m op => t1mdWith nest m op s
  | .ims m op => imsWith nest m op s
  | .ist m op => istWith nest m op s
  | .aiack m op => aiackWith nest m op s
  | .asr0 m op => asr0With nest m op s
  | .asr1 m op => asr1With nest m op s
  | .aref m op => arefWith nest m op s
  | .rsel m op => rselWith nest m op s
  | .ver m op => verWith nest m op s
  | .reservedOffset off m op => reservedOffsetWith nest off m op s

/-- Run a list of instructions in order. -/
def runAll (f : Instr → State → Res State) : List Instr → State → Res State
  | [], s => .next s
  | i :: is, s => andThen (f i s) (runAll f is)

/-- Run the commands that a handler issues, with at most `depth` calls nested in one another. With no script left
(depth 0) no handler issues any. -/
def handlersTo : Nat → Nest
  | 0 => fun _ s => .next s
  | depth + 1 => runAll (instrWith (handlersTo depth))

/-- Run the commands that handlers issue, in a command that starts in `s`. -/
def handlers (s : State) : Nest := handlersTo s.script.length

end Sys2Proof.Machine
end

