-- ==== Sys2Proof/Machine/BusCommands.lean ====
section
/-! DEFINITION. The bus access commands (40_dispatcher.md R99 to R104). -/

namespace Sys2Proof.Machine

/-- RD8: read one byte (40_dispatcher.md R99). -/
def execRd8 (addr : Word) (s : State) : Res State := rd8With (handlers s) addr s

/-- RD16: read two bytes (40_dispatcher.md R100). -/
def execRd16 (addr : Word) (s : State) : Res State := rd16With (handlers s) addr s

/-- RD32: read four bytes (40_dispatcher.md R101). -/
def execRd32 (addr : Word) (s : State) : Res State := rd32With (handlers s) addr s

/-- WR8: write one byte (40_dispatcher.md R102). -/
def execWr8 (addr : Word) (data : BitVec 8) (s : State) : Res State := wr8With (handlers s) addr data s

/-- WR16: write two bytes (40_dispatcher.md R103). -/
def execWr16 (addr : Word) (data : BitVec 16) (s : State) : Res State := wr16With (handlers s) addr data s

/-- WR32: write four bytes (40_dispatcher.md R104). -/
def execWr32 (addr : Word) (data : BitVec 32) (s : State) : Res State := wr32With (handlers s) addr data s

end Sys2Proof.Machine
end

