-- ==== Sys2Proof/Machine/RegisterRows.lean ====
section
/-! DEFINITION. The controller registers: a 32-bit access at one offset (30_encoding.md R80). -/

namespace Sys2Proof.Machine

/-- D0R, offset 0x00 (42_controller_registers.md R122, R123). -/
def execD0r (m : BitVec 8) (op : RegOp) (s : State) : Res State := d0rWith (handlers s) m op s

/-- D0W, offset 0x04 (42_controller_registers.md R122, R123). -/
def execD0w (m : BitVec 8) (op : RegOp) (s : State) : Res State := d0wWith (handlers s) m op s

/-- D0C, offset 0x08 (42_controller_registers.md R122, R123). -/
def execD0c (m : BitVec 8) (op : RegOp) (s : State) : Res State := d0cWith (handlers s) m op s

/-- D0AD, offset 0x0C (42_controller_registers.md R122, R123). -/
def execD0ad (m : BitVec 8) (op : RegOp) (s : State) : Res State := d0adWith (handlers s) m op s

/-- D0EN, offset 0x10 (42_controller_registers.md R123, R124; 43_dma.md R145). -/
def execD0en (m : BitVec 8) (op : RegOp) (s : State) : Res State := d0enWith (handlers s) m op s

/-- D0MD, offset 0x14 (42_controller_registers.md R122, R123). -/
def execD0md (m : BitVec 8) (op : RegOp) (s : State) : Res State := d0mdWith (handlers s) m op s

/-- D1R, offset 0x20 (42_controller_registers.md R122, R123). -/
def execD1r (m : BitVec 8) (op : RegOp) (s : State) : Res State := d1rWith (handlers s) m op s

/-- D1W, offset 0x24 (42_controller_registers.md R122, R123). -/
def execD1w (m : BitVec 8) (op : RegOp) (s : State) : Res State := d1wWith (handlers s) m op s

/-- D1C, offset 0x28 (42_controller_registers.md R122, R123). -/
def execD1c (m : BitVec 8) (op : RegOp) (s : State) : Res State := d1cWith (handlers s) m op s

/-- D1AD, offset 0x2C (42_controller_registers.md R122, R123). -/
def execD1ad (m : BitVec 8) (op : RegOp) (s : State) : Res State := d1adWith (handlers s) m op s

/-- D1EN, offset 0x30 (42_controller_registers.md R123, R124; 43_dma.md R145). -/
def execD1en (m : BitVec 8) (op : RegOp) (s : State) : Res State := d1enWith (handlers s) m op s

/-- D1MD, offset 0x34 (42_controller_registers.md R122, R123). -/
def execD1md (m : BitVec 8) (op : RegOp) (s : State) : Res State := d1mdWith (handlers s) m op s

/-- D2R, offset 0x40 (42_controller_registers.md R122, R123). -/
def execD2r (m : BitVec 8) (op : RegOp) (s : State) : Res State := d2rWith (handlers s) m op s

/-- D2W, offset 0x44 (42_controller_registers.md R122, R123). -/
def execD2w (m : BitVec 8) (op : RegOp) (s : State) : Res State := d2wWith (handlers s) m op s

/-- D2C, offset 0x48 (42_controller_registers.md R122, R123). -/
def execD2c (m : BitVec 8) (op : RegOp) (s : State) : Res State := d2cWith (handlers s) m op s

/-- D2AD, offset 0x4C (42_controller_registers.md R122, R123). -/
def execD2ad (m : BitVec 8) (op : RegOp) (s : State) : Res State := d2adWith (handlers s) m op s

/-- D2EN, offset 0x50 (42_controller_registers.md R123, R124; 43_dma.md R145). -/
def execD2en (m : BitVec 8) (op : RegOp) (s : State) : Res State := d2enWith (handlers s) m op s

/-- D2MD, offset 0x54 (42_controller_registers.md R122, R123). -/
def execD2md (m : BitVec 8) (op : RegOp) (s : State) : Res State := d2mdWith (handlers s) m op s

/-- DSTP, offset 0x60 (42_controller_registers.md R136, R137). -/
def execDstp (m : BitVec 8) (op : RegOp) (s : State) : Res State := dstpWith (handlers s) m op s

/-- DSTA, offset 0x7C (42_controller_registers.md R134, R135). -/
def execDsta (m : BitVec 8) (op : RegOp) (s : State) : Res State := dstaWith (handlers s) m op s

/-- PPAF, offset 0x80 (42_controller_registers.md R138). -/
def execPpaf (m : BitVec 8) (op : RegOp) (s : State) : Res State := ppafWith (handlers s) m op s

/-- PPD, offset 0x84 (42_controller_registers.md R138). -/
def execPpd (m : BitVec 8) (op : RegOp) (s : State) : Res State := ppdWith (handlers s) m op s

/-- PDA, offset 0x88 (42_controller_registers.md R138). -/
def execPda (m : BitVec 8) (op : RegOp) (s : State) : Res State := pdaWith (handlers s) m op s

/-- PDD, offset 0x8C (42_controller_registers.md R138). -/
def execPdd (m : BitVec 8) (op : RegOp) (s : State) : Res State := pddWith (handlers s) m op s

/-- T0C, offset 0x90 (42_controller_registers.md R138). -/
def execT0c (m : BitVec 8) (op : RegOp) (s : State) : Res State := t0cWith (handlers s) m op s

/-- T1S, offset 0x94 (42_controller_registers.md R138). -/
def execT1s (m : BitVec 8) (op : RegOp) (s : State) : Res State := t1sWith (handlers s) m op s

/-- T1MD, offset 0x98 (42_controller_registers.md R138). -/
def execT1md (m : BitVec 8) (op : RegOp) (s : State) : Res State := t1mdWith (handlers s) m op s

/-- IMS, offset 0xA0 (42_controller_registers.md R125, R126). -/
def execIms (m : BitVec 8) (op : RegOp) (s : State) : Res State := imsWith (handlers s) m op s

/-- IST, offset 0xA4 (42_controller_registers.md R129, R130). -/
def execIst (m : BitVec 8) (op : RegOp) (s : State) : Res State := istWith (handlers s) m op s

/-- AIACK, offset 0xA8 (42_controller_registers.md R131, R132). -/
def execAiack (m : BitVec 8) (op : RegOp) (s : State) : Res State := aiackWith (handlers s) m op s

/-- ASR0, offset 0xB0 (42_controller_registers.md R138). -/
def execAsr0 (m : BitVec 8) (op : RegOp) (s : State) : Res State := asr0With (handlers s) m op s

/-- ASR1, offset 0xB4 (42_controller_registers.md R138). -/
def execAsr1 (m : BitVec 8) (op : RegOp) (s : State) : Res State := asr1With (handlers s) m op s

/-- AREF, offset 0xB8 (42_controller_registers.md R138). -/
def execAref (m : BitVec 8) (op : RegOp) (s : State) : Res State := arefWith (handlers s) m op s

/-- RSEL, offset 0xC4 (42_controller_registers.md R138). -/
def execRsel (m : BitVec 8) (op : RegOp) (s : State) : Res State := rselWith (handlers s) m op s

/-- VER, offset 0xC8 (42_controller_registers.md R138). -/
def execVer (m : BitVec 8) (op : RegOp) (s : State) : Res State := verWith (handlers s) m op s

/-- RESERVED_OFFSET (42_controller_registers.md R139). -/
def execReservedOffset (off m : BitVec 8) (op : RegOp) (s : State) : Res State := reservedOffsetWith (handlers s) off m op s

end Sys2Proof.Machine
end

