-- ==== Sys2Proof/Machine/StepCommands.lean ====
section
/-! DEFINITION. The controller step commands (43_dma.md R166 to R168). -/

namespace Sys2Proof.Machine

/-- EXEC: step the controller (43_dma.md R166, R167). -/
def execExec (t : Word) (s : State) : Res State := execWith (handlers s) t s

/-- DRAIN: run every channel to completion (43_dma.md R168). -/
def execDrain (s : State) : Res State := drainWith (handlers s) s

end Sys2Proof.Machine
end

