-- ==== Sys2Proof/Machine/ZoneRoutes.lean ====
section
/-! DEFINITION. The zone routes: a bus access that the address decode resolves to one row (20_memory.md R47). -/

namespace Sys2Proof.Machine

/-- ZONE0_PAGE_TABLE (20_memory.md R48, R49). -/
def execZone0PageTable (a : BitVec 29) (op : BusOp) (s : State) : Res State := zone0PageTableWith (handlers s) a op s

/-- ZONE1_PAGE_TABLE (20_memory.md R48, R49). -/
def execZone1PageTable (a : BitVec 29) (op : BusOp) (s : State) : Res State := zone1PageTableWith (handlers s) a op s

/-- ZONE5_PAGE_TABLE (20_memory.md R48, R49). -/
def execZone5PageTable (a : BitVec 29) (op : BusOp) (s : State) : Res State := zone5PageTableWith (handlers s) a op s

/-- ZONE2_DATA_ARRAY (20_memory.md R51). -/
def execZone2DataArray (a : BitVec 29) (op : BusOp) (s : State) : Res State := zone2DataArrayWith (handlers s) a op s

/-- ZONE6_DATA_ARRAY (20_memory.md R51). -/
def execZone6DataArray (a : BitVec 29) (op : BusOp) (s : State) : Res State := zone6DataArrayWith (handlers s) a op s

/-- ZONE3_ADDRESS_ARRAY (20_memory.md R50). -/
def execZone3AddressArray (a : BitVec 29) (op : BusOp) (s : State) : Res State := zone3AddressArrayWith (handlers s) a op s

/-- ZONE4_UNHANDLED (20_memory.md R53). -/
def execZone4Unhandled (a : BitVec 29) (op : BusOp) (s : State) : Res State := zone4UnhandledWith (handlers s) a op s

/-- ZONE7_ONCHIP (20_memory.md R52). -/
def execZone7Onchip (a : BitVec 29) (op : BusOp) (s : State) : Res State := zone7OnchipWith (handlers s) a op s

end Sys2Proof.Machine
end

