-- ==== Sys2Proof/Machine/Dispatch.lean ====
section
/-! DEFINITION. The meaning of every instruction: one arm per row of spec/opcode_table.json. -/

namespace Sys2Proof.Machine

def exec (i : Instr) (s : State) : Host.Outcome State Fault Refusal :=
  match i with
  | .rd8 addr => Sys2Proof.Machine.execRd8 addr s
  | .rd16 addr => Sys2Proof.Machine.execRd16 addr s
  | .rd32 addr => Sys2Proof.Machine.execRd32 addr s
  | .wr8 addr data => Sys2Proof.Machine.execWr8 addr data s
  | .wr16 addr data => Sys2Proof.Machine.execWr16 addr data s
  | .wr32 addr data => Sys2Proof.Machine.execWr32 addr data s
  | .map first last dev => Sys2Proof.Machine.execMap first last dev s
  | .init => Sys2Proof.Machine.execInit s
  | .mfill start stop wmask r w => Sys2Proof.Machine.execMfill start stop wmask r w s
  | .mlkr addr => Sys2Proof.Machine.execMlkr addr s
  | .mlkw addr => Sys2Proof.Machine.execMlkw addr s
  | .exec t => Sys2Proof.Machine.execExec t s
  | .drain => Sys2Proof.Machine.execDrain s
  | .raise v l m st => Sys2Proof.Machine.execRaise v l m st s
  | .remove v l st => Sys2Proof.Machine.execRemove v l st s
  | .retest => Sys2Proof.Machine.execRetest s
  | .rmstat before after => Sys2Proof.Machine.execRmstat before after s
  | .reset => Sys2Proof.Machine.execReset s
  | .zone0PageTable a op => Sys2Proof.Machine.execZone0PageTable a op s
  | .zone1PageTable a op => Sys2Proof.Machine.execZone1PageTable a op s
  | .zone5PageTable a op => Sys2Proof.Machine.execZone5PageTable a op s
  | .zone2DataArray a op => Sys2Proof.Machine.execZone2DataArray a op s
  | .zone6DataArray a op => Sys2Proof.Machine.execZone6DataArray a op s
  | .zone3AddressArray a op => Sys2Proof.Machine.execZone3AddressArray a op s
  | .zone4Unhandled a op => Sys2Proof.Machine.execZone4Unhandled a op s
  | .zone7Onchip a op => Sys2Proof.Machine.execZone7Onchip a op s
  | .d0r m op => Sys2Proof.Machine.execD0r m op s
  | .d0w m op => Sys2Proof.Machine.execD0w m op s
  | .d0c m op => Sys2Proof.Machine.execD0c m op s
  | .d0ad m op => Sys2Proof.Machine.execD0ad m op s
  | .d0en m op => Sys2Proof.Machine.execD0en m op s
  | .d0md m op => Sys2Proof.Machine.execD0md m op s
  | .d1r m op => Sys2Proof.Machine.execD1r m op s
  | .d1w m op => Sys2Proof.Machine.execD1w m op s
  | .d1c m op => Sys2Proof.Machine.execD1c m op s
  | .d1ad m op => Sys2Proof.Machine.execD1ad m op s
  | .d1en m op => Sys2Proof.Machine.execD1en m op s
  | .d1md m op => Sys2Proof.Machine.execD1md m op s
  | .d2r m op => Sys2Proof.Machine.execD2r m op s
  | .d2w m op => Sys2Proof.Machine.execD2w m op s
  | .d2c m op => Sys2Proof.Machine.execD2c m op s
  | .d2ad m op => Sys2Proof.Machine.execD2ad m op s
  | .d2en m op => Sys2Proof.Machine.execD2en m op s
  | .d2md m op => Sys2Proof.Machine.execD2md m op s
  | .dstp m op => Sys2Proof.Machine.execDstp m op s
  | .dsta m op => Sys2Proof.Machine.execDsta m op s
  | .ppaf m op => Sys2Proof.Machine.execPpaf m op s
  | .ppd m op => Sys2Proof.Machine.execPpd m op s
  | .pda m op => Sys2Proof.Machine.execPda m op s
  | .pdd m op => Sys2Proof.Machine.execPdd m op s
  | .t0c m op => Sys2Proof.Machine.execT0c m op s
  | .t1s m op => Sys2Proof.Machine.execT1s m op s
  | .t1md m op => Sys2Proof.Machine.execT1md m op s
  | .ims m op => Sys2Proof.Machine.execIms m op s
  | .ist m op => Sys2Proof.Machine.execIst m op s
  | .aiack m op => Sys2Proof.Machine.execAiack m op s
  | .asr0 m op => Sys2Proof.Machine.execAsr0 m op s
  | .asr1 m op => Sys2Proof.Machine.execAsr1 m op s
  | .aref m op => Sys2Proof.Machine.execAref m op s
  | .rsel m op => Sys2Proof.Machine.execRsel m op s
  | .ver m op => Sys2Proof.Machine.execVer m op s
  | .reservedOffset off m op => Sys2Proof.Machine.execReservedOffset off m op s

end Sys2Proof.Machine
end

