-- ==== Sys2Proof/Machine/Fetch.lean ====
section
/-! DEFINITION. The next instruction of the run: the next bus-port record if one waits, else the next command of the
stream (10_state.md R20, 30_encoding.md R78; notes/assumptions/1.md, 2.md, 3.md). -/

namespace Sys2Proof.Machine

/-- What the inputs hold next. -/
inductive Fetched where
  /-- An instruction, and the state with its bytes consumed and the position advanced by one (10_state.md R20). -/
  | run (i : Instr) (s : State)
  /-- Nothing yet, or a command still missing bytes (30_encoding.md R78). -/
  | wait
  /-- An INVALID byte string (30_encoding.md R77). -/
  | bad (why : Invalid)
deriving DecidableEq, Repr

/-- Fetch the next instruction. -/
def fetch (s : State) : Fetched :=
  match s.port with
  | [] =>
    match decode s.cfg.extraDevices s.stream with
    | .command i rest => .run i { s with stream := rest, pos := s.pos + 1 }
    | .invalid why => .bad why
    | .incomplete => .wait
  | _ :: _ =>
    match decodeAccess s.port with
    | .command i rest => .run i { s with port := rest, pos := s.pos + 1 }
    | .invalid why => .bad why
    | .incomplete => .wait

/-- The inputs with a table word's instruction next (Machine/Step.lean). -/
def placeWord (s : State) (nbits w : Nat) : State :=
  if isAddressWord nbits then { s with port := tableAccess w ++ s.port }
  else { s with stream := tableCommand nbits w ++ s.stream, port := [] }

end Sys2Proof.Machine
end

