-- ==== Sys2Proof/Machine/Step.lean ====
section
/-! DEFINITION. One step of the run: the next instruction runs to its end (00_scope.md R10). -/

namespace Sys2Proof.Machine

/-- One step. A refused run stays refused (00_scope.md R11, 10_state.md R35). With no whole command waiting the
block waits (30_encoding.md R78). -/
def step (s : State) : Host.Outcome State Fault Refusal :=
  if s.refusalMark then .refused .refusedBefore
  else
    match fetch s with
    | .run i t => exec i t
    | .wait => .next s
    | .bad _ => .refused .invalidCommand

/-- The state with the instruction of a table word where `step` fetches next: a command row's bytes at the head of the
stream (with the bus port empty, as it is served first), an ADDR or REG row's record at the head of the bus port. -/
def State.withFetchWord (s : State) (nbits w : Nat) : State := placeWord s nbits w

end Sys2Proof.Machine
end

