-- ==== Sys2Proof/Safety.lean ====
section
/-! DEFINITION. What claims about a run speak of: a run that carries the refusal mark, a quiet environment, the
invariants of 10_state.md R27 and R29 and of the tables, and where the spec's zone table sends an access, written with
arithmetic on the address as a number and so apart from the dispatcher's own bit fields. -/

namespace Sys2Proof

/-- What a command returns for an access: a read's value, nothing for a write. -/
def BusOp.returns (op : BusOp) (v : Word) : Option Word :=
  match op with
  | .read _ => some v
  | _ => none

/-- The entry a fill writes for one direction (41_region_mask.md R113). -/
def MaskFill.entry (m : MaskFill) (enabled : Bool) : Word := if enabled then m.wmask ||| m.start else 0

end Sys2Proof

namespace Sys2Proof.Machine

/-! Runs. -/

/-- One step of a run that goes on after a refusal with the mark set, and stays where it is at a hang
(00_scope.md R11, 10_state.md R35, 60_exceptions.md R209). -/
def State.markedStep (s : State) : State :=
  match step s with
  | .next t => t
  | .fault _ => s
  | .refused _ => { s with refusalMark := true }

/-- No handler issues a command of its own in the calls to come (20_memory.md R66). -/
abbrev State.Quiet (s : State) : Prop := ∀ r ∈ s.script, r.nested = []

/-! Invariants. -/

/-- The queue invariants of 10_state.md R29: bounded, no vector twice, ascending priority. -/
abbrev QueueOk (order : PriorityOrder) (q : List IrqRecord) : Prop :=
  q.length ≤ 30
    ∧ q.Pairwise (fun x y => x.vector ≠ y.vector)
    ∧ q.Pairwise (fun x y => rank order y.level ≤ rank order x.level)

/-- An idle channel is all zero (10_state.md R27). -/
abbrev ChannelOk (k : Channel) : Prop := k.active = false → k = Channel.idle

/-- The three tables have their canonical form. -/
abbrev State.TablesOk (s : State) : Prop :=
  tableWf .unhandled pageCount s.pt ∧ tableWf 0 maskPageCount s.mr ∧ tableWf 0 maskPageCount s.mw

/-- No slot holds the discriminator, so no access reaches the controller registers (30_encoding.md R79). -/
abbrev State.NoCombo (s : State) : Prop := ∀ e ∈ s.pt, e.2 ≠ .combo

/-- The controller registers are where the default page map and the default offset map put them (30_encoding.md R79,
R80). -/
abbrev State.CtrlMapped (s : State) : Prop :=
  s.page 0xBF = .combo ∧ s.cfg.ctrlSelMask = 0xFFFF0000 ∧ s.cfg.ctrlBase = 0x05FE0000
    ∧ s.cfg.regOffsets = defaultRegOffsets

/-! The zone table (20_memory.md R47). -/

/-- The zone of an address: its top three bits (20_memory.md R46). -/
def specZone (addr : Word) : Nat := addr.toNat / 2 ^ 29

/-- A29 of an address: the zone bits removed (00_scope.md R13). -/
def specA29 (addr : Word) : Word := BitVec.ofNat 32 (addr.toNat % 2 ^ 29)

/-- The page of an address: bits 26 to 19 (20_memory.md R48). -/
def specPage (addr : Word) : Nat := addr.toNat / 2 ^ 19 % 2 ^ 8

/-- The zones that go through the page-handler table. -/
def specPaged (addr : Word) : Bool := specZone addr == 0 || specZone addr == 1 || specZone addr == 5

/-- The access reaches the controller registers (30_encoding.md R79, 40_dispatcher.md R107). -/
def State.reachesCtrl (s : State) (addr : Word) : Bool :=
  specPaged addr && s.page (specPage addr) == .combo && specA29 addr &&& s.cfg.ctrlSelMask == s.cfg.ctrlBase

/-- Which external collaborator an access that does not reach the controller calls, and with which address; none where
nothing is called, a read gives 0 and a write has no effect (20_memory.md R47 to R53, 40_dispatcher.md R106, R107). -/
def State.target (s : State) (op : BusOp) (addr : Word) : Option (Collab × Word) :=
  if specPaged addr then
    match s.page (specPage addr) with
    | .unhandled => none
    | .combo => some (.device .vdp2reg, specA29 addr)
    | .ext d => some (.device d, specA29 addr)
  else if specZone addr = 2 ∨ specZone addr = 6 then some (.dataArray, addr)
  else if specZone addr = 7 then some (.onChip, BitVec.ofNat 32 (addr.toNat % 512))
  else if specZone addr = 3 then
    match op with
    | .write32 _ => some (.addrArray, addr)
    | _ => none
  else none

/-- The answer the next call gets if it is this read: the script's, else a free value (40_dispatcher.md R105). -/
def State.answerTo (s : State) (who : Collab) (w : Width) (a : Word) : Word :=
  match s.script with
  | r :: _ => clip w r.answer
  | [] => clip w (Config.answer s.draws who w a)

/-- The event that records a call, with what the collaborator answers (10_state.md R36). -/
def callEvent (who : Collab) (op : BusOp) (a answer : Word) : Event :=
  match op with
  | .read w => .extRead who w a (clip w answer)
  | op => .extWrite who (opWidth op) a op.datum

/-- The state after a call of a quiet environment: one script entry used (for a read, with none left, one free value),
and the call recorded (10_state.md R36). -/
def State.called (s : State) (who : Collab) (op : BusOp) (a : Word) : State :=
  match op with
  | .read w =>
    { s with
      script := s.script.tail
      draws := if s.script = [] then s.draws + 1 else s.draws
      history := s.history ++ [.extRead who w a (s.answerTo who w a)] }
  | op => { s with script := s.script.tail, history := s.history ++ [.extWrite who (opWidth op) a op.datum] }

/-- The value an access that does not reach the controller returns. -/
def State.valueAt (s : State) (op : BusOp) (addr : Word) : Word :=
  match s.target op addr, op with
  | some (who, a), .read w => s.answerTo who w a
  | _, _ => 0

/-- The state after an access that does not reach the controller, in a quiet environment. -/
def State.accessed (s : State) (op : BusOp) (addr : Word) : State :=
  match s.target op addr with
  | some (who, a) => s.called who op a
  | none => s

/-- The bus command of an access (30_encoding.md R72). -/
def busCommand (op : BusOp) (addr : Word) : Instr :=
  match op with
  | .read .w8 => .rd8 addr
  | .read .w16 => .rd16 addr
  | .read .w32 => .rd32 addr
  | .write8 v => .wr8 addr v
  | .write16 v => .wr16 addr v
  | .write32 v => .wr32 addr v

/-- The instruction of a zone row (20_memory.md R47). -/
def zoneRow (zone : BitVec 3) (a : BitVec 29) (op : BusOp) : Instr :=
  match zone.toNat with
  | 0 => .zone0PageTable a op
  | 1 => .zone1PageTable a op
  | 2 => .zone2DataArray a op
  | 3 => .zone3AddressArray a op
  | 4 => .zone4Unhandled a op
  | 5 => .zone5PageTable a op
  | 6 => .zone6DataArray a op
  | _ => .zone7Onchip a op

/-- The instructions of the three DcEN rows. -/
def enableRow (c : Chan) (m : BitVec 8) (op : RegOp) : Instr :=
  match c with
  | .c0 => .d0en m op
  | .c1 => .d1en m op
  | .c2 => .d2en m op

/-- The instructions of the six register rows of a channel. -/
def channelRow (c : Chan) (f : DmaField) (m : BitVec 8) (op : RegOp) : Instr :=
  match c, f with
  | .c0, .r => .d0r m op
  | .c0, .w => .d0w m op
  | .c0, .c => .d0c m op
  | .c0, .ad => .d0ad m op
  | .c0, .en => .d0en m op
  | .c0, .md => .d0md m op
  | .c1, .r => .d1r m op
  | .c1, .w => .d1w m op
  | .c1, .c => .d1c m op
  | .c1, .ad => .d1ad m op
  | .c1, .en => .d1en m op
  | .c1, .md => .d1md m op
  | .c2, .r => .d2r m op
  | .c2, .w => .d2w m op
  | .c2, .c => .d2c m op
  | .c2, .ad => .d2ad m op
  | .c2, .en => .d2en m op
  | .c2, .md => .d2md m op

/-- The twelve forwarded rows, each with its offset (42_controller_registers.md R138, 30_encoding.md R80). -/
def forwardedRows (m : BitVec 8) (op : RegOp) : List (BitVec 8 × Instr) :=
  [(0x80, .ppaf m op), (0x84, .ppd m op), (0x88, .pda m op), (0x8C, .pdd m op), (0x90, .t0c m op),
   (0x94, .t1s m op), (0x98, .t1md m op), (0xB0, .asr0 m op), (0xB4, .asr1 m op), (0xB8, .aref m op),
   (0xC4, .rsel m op), (0xC8, .ver m op)]

/-! Commands and their fields (30_encoding.md R71 to R77). -/

/-- An opcode that R77 of 30_encoding.md reserves, by its group and its function within it. -/
def reservedOpcode (op : Byte) : Bool :=
  let group := op.toNat / 16
  let function := op.toNat % 16
  decide (5 ≤ group)
    || (group == 0 && (decide (8 ≤ function) || function % 4 == 3))
    || (group == 1 && decide (5 ≤ function))
    || (group == 2 && decide (2 ≤ function))
    || (group == 3 && decide (4 ≤ function))
    || (group == 4 && decide (1 ≤ function))

/-- The widths in bits of the operand fields of an opcode that is not reserved, in order. The `dev` word of MAP is a
code and has no field width of its own (30_encoding.md R72 to R76, R95). -/
def operandFields (op : Byte) : List Nat :=
  match op.toNat with
  | 0x00 | 0x01 | 0x02 => [32]
  | 0x04 => [32, 8]
  | 0x05 => [32, 16]
  | 0x06 => [32, 32]
  | 0x10 => [8, 8, 32]
  | 0x12 => [32, 32, 32, 2]
  | 0x13 | 0x14 | 0x20 => [32]
  | 0x30 => [8, 4, 16, 32]
  | 0x31 => [8, 4, 32]
  | 0x33 => [32, 32]
  | _ => []

/-! The interrupt arbiter, in one step each (44_interrupt_arbiter.md). -/

/-- All the status bits of a list of records. -/
def statusBits (l : List IrqRecord) : BitVec 32 := l.foldr (fun r bits => r.status ||| bits) 0

/-- A mask value is unmasked (44_interrupt_arbiter.md R173). -/
def State.lets (s : State) (mask : BitVec 16) : Bool := mask &&& s.ims == 0

/-- The queue after an enqueue (44_interrupt_arbiter.md R176). -/
def enqueued (order : PriorityOrder) (r : IrqRecord) (q : List IrqRecord) : List IrqRecord :=
  if (q.any fun x => x.vector == r.vector) || q.length == 30 then q
  else
    let i := q.countP fun x => decide (rank order r.level < rank order x.level)
    q.take i ++ [r] ++ q.drop i

/-- The events of an immediate delivery (44_interrupt_arbiter.md R178). -/
def deliveryEvents (mirror : List MirrorRow) (v : BitVec 8) (l : BitVec 4) : List Event :=
  .sendInterrupt .primary v l
    :: ((mirror.find? fun m => m.vector == v).map fun m => Event.sendInterrupt .secondary m.toVector m.toLevel).toList

/-- The state after a raise (44_interrupt_arbiter.md R174). -/
def State.raised (s : State) (r : IrqRecord) : State :=
  let gated := r.mask == s.cfg.ackMask
  let aiack := s.aiack && !gated
  if s.lets r.mask && (!gated || s.aiack) then
    { s with aiack := aiack, history := s.history ++ deliveryEvents s.cfg.mirror r.vector r.level }
  else { s with aiack := aiack, ist := s.ist ||| r.status, q := enqueued s.cfg.priorityOrder r s.q }

/-- The records that one retest delivers, in the order of their delivery (44_interrupt_arbiter.md R177). -/
def State.due (s : State) : List IrqRecord :=
  let ready := (s.q.filter fun r => s.lets r.mask).reverse
  match s.cfg.retestMode with
  | .all => ready
  | .one => ready.take 1

/-- The queue after a retest (44_interrupt_arbiter.md R177). -/
def State.kept (s : State) : List IrqRecord :=
  match s.cfg.retestMode with
  | .all => s.q.filter fun r => !s.lets r.mask
  | .one => (s.q.reverse.eraseP fun r => s.lets r.mask).reverse

/-- The state after a retest (44_interrupt_arbiter.md R177). -/
def State.retested (s : State) : State :=
  { s with
    q := s.kept
    ist := s.ist &&& ~~~statusBits s.due
    history := s.history ++ s.due.map fun r => .sendInterrupt .primary r.vector r.level }

/-- The state after the records that carry one of the `cleared` status bits are dropped
(44_interrupt_arbiter.md R180). -/
def State.droppedBy (s : State) (cleared : BitVec 32) : State :=
  { s with
    q := s.q.filter fun r => r.status &&& cleared == 0
    ist := s.ist &&& ~~~statusBits (s.q.filter fun r => r.status &&& cleared != 0) }

/-! The configuration tables (40_dispatcher.md R109, 41_region_mask.md R113). -/

/-- The handler set that a list of page rows leaves at a page, the last row that covers it winning; UNHANDLED where
none does (40_dispatcher.md R109). -/
def pageFrom (rows : List PageRow) (p : Nat) : DeviceId :=
  match rows.reverse.find? fun e => decide (e.first.toNat ≤ p) && decide (p ≤ e.last.toNat) with
  | some e => e.dev
  | none => .unhandled

/-- The last of a list of fills that covers a mask page (41_region_mask.md R113). -/
def lastFill (fills : List MaskFill) (page : Nat) : Option MaskFill :=
  fills.reverse.find? fun m => decide (m.start.toNat / 65536 ≤ page) && decide (page ≤ m.stop.toNat / 65536)

/-! The DMA engine (43_dma.md). -/

/-- The bytes of a unit (43_dma.md R150). -/
def Channel.unitSize (k : Channel) : Nat := if k.narrow then 2 else 4

/-- How far the read address moves in a unit (43_dma.md R155, R156). -/
def Channel.readStride (k : Channel) : Nat := if k.raAdd = 0 then 0 else k.unitSize

/-- The read address of the j-th unit from here, before any burst end (43_dma.md R155 to R157). -/
def Channel.readAt (k : Channel) (j : Nat) : Word := k.ra + BitVec.ofNat 32 (j * k.readStride)

/-- The write address of the j-th unit from here, before any burst end (43_dma.md R155 to R157). -/
def Channel.writeAt (k : Channel) (j : Nat) : Word := k.wa + BitVec.ofNat 32 j * k.waAdd

/-- The units that are left of a burst with a positive count: the count over the unit size, rounded up
(43_dma.md R150, 70_reset_and_hazards.md R226). -/
def Channel.unitsLeft (k : Channel) : Nat := (k.tn.toNat + (k.unitSize - 1)) / k.unitSize

/-- No access of the next `n` units of a channel reaches the controller (43_dma.md R158). -/
abbrev State.avoidsCtrl (s : State) (c : Chan) (n : Nat) : Prop :=
  ∀ j < n, s.reachesCtrl ((s.chan c).readAt j) = false ∧ s.reachesCtrl ((s.chan c).writeAt j) = false

/-- The next unit of a channel begins with a read (43_dma.md R155 to R157). -/
def Channel.unitReads (k : Channel) : Bool :=
  decide (k.raAdd ≠ 0) || ((!k.narrow || !k.half) && !(k.csrc && k.fvalid))

/-- No access of a channel's next tick reaches the controller: the unit's read, its write, and where the unit ends a
burst that has a successor, the three reads of the next descriptor (43_dma.md R149, R153, R158, R160). -/
def State.tickAvoids (s : State) (c : Chan) : Bool :=
  let k := s.chan c
  let loads := decide ((k.tn - BitVec.ofNat 32 k.unitSize).toInt ≤ 0) && k.indirect && !k.last
  (!k.unitReads || !s.reachesCtrl k.ra) && !s.reachesCtrl k.wa
    && (!loads || [0, 4, 8].all fun j => !s.reachesCtrl (k.ptr + 12 + BitVec.ofNat 32 j))

/-- No access of a channel's next `n` ticks reaches the controller; the ticks of a chain go where the descriptors that
it reads send them. -/
def chanAvoids (nest : Nest) (c : Chan) : Nat → State → Bool
  | 0, _ => true
  | n + 1, s =>
    !(s.chan c).active
      || (s.tickAvoids c && match tick nest c s with
          | .next t => chanAvoids nest c n t
          | _ => true)

/-- A property of the next state, where there is one. -/
def thenAlso (x : Res State) (p : State → Bool) : Bool :=
  match x with
  | .next t => p t
  | _ => true

/-- No access that the three channels make in an EXEC reaches the controller (43_dma.md R166). -/
def execAvoids (nest : Nest) (n : Nat) (s : State) : Bool :=
  chanAvoids nest .c0 n s
    && thenAlso (stepChannel nest .c0 n s) fun a => chanAvoids nest .c1 n a
    && thenAlso (stepChannel nest .c1 n a) fun b => chanAvoids nest .c2 n b

/-- The byte count a count word means (30_encoding.md R90). -/
def State.countOf (s : State) (c : Chan) (v : Word) : Word :=
  if v &&& s.cfg.cmask.get c = 0 then s.cfg.cmax.get c else v &&& s.cfg.cmask.get c

/-- A write address in the secondary-bus window (43_dma.md R151). -/
def State.inWindow (s : State) (w : Word) : Bool :=
  decide (s.cfg.bbusLo.toNat ≤ w.toNat % 2 ^ 29) && decide (w.toNat % 2 ^ 29 < s.cfg.bbusHi.toNat)

/-- The channel after the burst of a descriptor or of the registers is loaded (43_dma.md R148). -/
def State.burst (s : State) (k : Channel) (r w n : Word) (last : Bool) : Channel :=
  { k with
    ra := r
    wa := w
    tn := n
    last := last
    narrow := s.inWindow w
    csrc := k.raAdd == 0 && s.cfg.constSrc.any fun win => r &&& win.1 == win.2
    fvalid := false
    fval := 0
    half := false
    seg := w
    segw := false }

/-- The mode fields a channel latches from its registers (43_dma.md R147; 30_encoding.md R84, R86, R91, R92). -/
def State.latched (s : State) (c : Chan) : Channel :=
  let k := s.regs c
  let code := k.ad.toNat % 8
  { s.chan c with
    active := true
    indirect := k.md.getLsbD 24
    rup := k.md.getLsbD 16
    wup := k.md.getLsbD 8
    raAdd := if k.ad.getLsbD 8 then 4 else 0
    waAdd := if code = 0 then 0 else BitVec.ofNat 32 (2 ^ code) }

/-- A state differs from an earlier one by no raise: the queue, IST and AIACK are the same and no delivery was made
(44_interrupt_arbiter.md R174). -/
def State.noRaiseSince (t s : State) : Prop :=
  t.q = s.q ∧ t.ist = s.ist ∧ t.aiack = s.aiack
    ∧ ∃ events, t.history = s.history ++ events ∧ ∀ e ∈ events, ∀ core v l, e ≠ .sendInterrupt core v l

/-- An event is the delivery of an end-of-DMA interrupt, or of its mirror (43_dma.md R172, 44_interrupt_arbiter.md
R178). -/
def isEndDelivery (cfg : Config) (e : Event) : Prop :=
  ∃ c : Chan, e ∈ deliveryEvents cfg.mirror (cfg.dmaEnd.get c).vector (cfg.dmaEnd.get c).level

/-- An event is a delivery to a core (44_interrupt_arbiter.md R183). -/
def Event.isInterrupt : Event → Bool
  | .sendInterrupt _ _ _ => true
  | _ => false

end Sys2Proof.Machine
end

