-- ==== Sys2Proof/Certificates/Slice0/Obligations.lean ====
section
/-! DEFINITION. The statements for the provers. Each formalises a rule of spec/ or follows from rules of it; the
docstring names them, and says where a clause is the model's own choice. -/

open Sys2Proof Sys2Proof.Machine

/-! The encoding (30_encoding.md). -/

/-- Every well-formed instruction is what the decoder of its port reads from its own bytes, and the bytes after them
stay (30_encoding.md R71 to R80, R95, R98; the bus-port record's form is the model's, notes/assumptions/3.md). -/
def Obligations.DecodeOfEncode : Prop :=
  ∀ (extra : List Word) (i : Instr) (rest : List Byte),
    i.wf extra = true → decodeFor i.fromPort extra (encode i ++ rest) = .command i rest

/-- What the decoder reads is well formed, comes from the port asked, and has no other bytes than those read
(30_encoding.md R71 to R80, R95, R98; notes/assumptions/3.md). -/
def Obligations.EncodeOfDecode : Prop :=
  ∀ (fromPort : Bool) (extra : List Word) (bs rest : List Byte) (i : Instr),
    decodeFor fromPort extra bs = .command i rest →
      i.fromPort = fromPort ∧ i.wf extra = true ∧ bs = encode i ++ rest

/-- A reserved opcode, or an operand word with a nonzero bit above its field, decodes to INVALID, and executing it is
refused as INVALID_COMMAND (30_encoding.md R77). -/
def Obligations.InvalidCommandsRefused : Prop :=
  (∀ (extra : List Word) (op : Byte) (bs : List Byte),
    reservedOpcode op = true → ∃ why, decode extra (op :: bs) = .invalid why)
  ∧ (∀ (extra : List Word) (op : Byte) (ws : List Word) (bs : List Byte),
    reservedOpcode op = false → ws.length = (operandFields op).length →
      (∃ x ∈ ws.zip (operandFields op), 2 ^ x.2 ≤ x.1.toNat) →
        ∃ why, decode extra (op :: (ws.flatMap bytesOf ++ bs)) = .invalid why)
  ∧ (∀ (s : State) (why : Invalid),
    s.refusalMark = false → s.port = [] → decode s.cfg.extraDevices s.stream = .invalid why →
      step s = .refused .invalidCommand)

/-- A MAP whose device code names no device is INVALID, and executing it is refused (30_encoding.md R95, R77). -/
def Obligations.UnknownDeviceRefused : Prop :=
  ∀ (s : State) (first last : BitVec 8) (code : Word) (rest : List Byte),
    17 ≤ code.toNat → code ∉ s.cfg.extraDevices →
      (∃ why, decode s.cfg.extraDevices
          (0x10 :: (bytesOf (first.setWidth 32) ++ (bytesOf (last.setWidth 32) ++ (bytesOf code ++ rest))))
        = .invalid why)
      ∧ exec (.map first last (.ext (.other code))) s = .refused .invalidCommand

/-- The decoder of command bytes is total: a byte string decodes to a command of 1 + 4k bytes, with the k that its
opcode fixes, to INVALID, or to "incomplete" exactly when it ends inside a command (30_encoding.md R78). -/
def Obligations.DecoderIsTotal : Prop :=
  ∀ (extra : List Word) (bs : List Byte),
    match decode extra bs with
    | .command _ rest =>
      ∃ op, bs.head? = some op ∧ reservedOpcode op = false
        ∧ bs.length = 1 + 4 * (operandFields op).length + rest.length
    | .invalid _ =>
      ∃ op, bs.head? = some op
        ∧ (reservedOpcode op = true ∨ 1 + 4 * (operandFields op).length ≤ bs.length)
    | .incomplete =>
      bs = [] ∨ ∃ op, bs.head? = some op ∧ reservedOpcode op = false
        ∧ bs.length < 1 + 4 * (operandFields op).length

/-- A few command words written out from the spec decode to what they stand for (95_test_vectors.md section 2.1,
30_encoding.md R72 to R76, R80; 20_memory.md R47). The two clauses on table words rest on the model's choices that a
bare table word stands for a 32-bit read (notes/assumptions/3.md) and that a register row is decoded before the zone-0
row (notes/assumptions/4.md). -/
def Obligations.SampleWordsDecode : Prop :=
  decode [] [0x40] = .command .reset []
  ∧ decode [] [0x02, 0x25, 0xFE, 0x00, 0xA0] = .command (.rd32 0x25FE00A0) []
  ∧ decode [] [0x06, 0x25, 0xFE, 0x00, 0x10, 0x00, 0x00, 0x01, 0x01] = .command (.wr32 0x25FE0010 0x101) []
  ∧ decode [] [0x20, 0x00, 0x00, 0x00, 0x64] = .command (.exec 100) []
  ∧ decode [] [0x20, 0x00, 0x00] = .incomplete
  ∧ decode [] [0x03, 0x00] = .invalid .reservedOpcode
  ∧ decodeTableWord 32 0x05FE00A0 = some (.ims 0 .read)
  ∧ decodeTableWord 32 0xE0000000 = some (.zone7Onchip 0 (.read .w32))

/-! Steps and runs. -/

/-- A step runs the instruction its bytes decode to, from the state with those bytes consumed and the position one
further (10_state.md R20); the bus port is served first, and with no whole command waiting the state stays as it is
(the model's choices, notes/assumptions/2.md and 3.md). -/
def Obligations.StepRunsDecoded : Prop :=
  ∀ s : State, s.refusalMark = false →
    (∀ i rest, s.port = [] → decode s.cfg.extraDevices s.stream = .command i rest →
      step s = exec i { s with stream := rest, pos := s.pos + 1 })
    ∧ (∀ i rest, s.port ≠ [] → decodeAccess s.port = .command i rest →
      step s = exec i { s with port := rest, pos := s.pos + 1 })
    ∧ (s.port = [] → decode s.cfg.extraDevices s.stream = .incomplete → step s = .next s)
    ∧ (s.port ≠ [] → decodeAccess s.port = .incomplete → step s = .next s)

/-- The refusal mark is false at reset, a refusal sets it, no command clears it, RESET included, and a marked run stays
refused (10_state.md R35). -/
def Obligations.RefusalMarkStays : Prop :=
  State.reset.refusalMark = false
  ∧ (∀ s r, step s = .refused r → s.markedStep.refusalMark = true)
  ∧ (∀ s : State, s.refusalMark = true → s.markedStep.refusalMark = true)
  ∧ (∀ i s t, exec i s = .next t → t.refusalMark = s.refusalMark)

/-- A step only appends to the event history, keeps the parameters, and moves the position on by at most one
(10_state.md R36). That the parameters stay is the model's (notes/assumptions/12.md), and so is what the position
counts: a command or a bus-port record, once, and no command that a handler issues (notes/assumptions/16.md, 7.md). -/
def Obligations.StepAppendsHistory : Prop :=
  ∀ s t, step s = .next t →
    (∃ events, t.history = s.history ++ events) ∧ t.cfg = s.cfg ∧ (t.pos = s.pos ∨ t.pos = s.pos + 1)

/-- The commands that a handler issues run to their end inside the handler's call, before the outer command goes on
(20_memory.md R66): in a read or a write of a collaborator by any bus command, in an access of a forwarded register
(42_controller_registers.md R138), in the DSP's step (43_dma.md R167) and in an access of the DMA engine they run, in
order, from the state just after the call was recorded, and the outer command goes on from the state they leave. That
the call's event stands before the events nested in it is the model's choice (notes/assumptions/8.md), and so is that
the commands come from the script (notes/assumptions/7.md). -/
def Obligations.HandlerCommandsRunInside : Prop :=
  ∀ (s : State) (r : Reaction) (rest : List Reaction), s.script = r :: rest →
    let inside (e : Event) : Res State :=
      runAll exec r.nested { s with script := rest, history := s.history ++ [e] }
    (∀ op addr who a, s.reachesCtrl addr = false → s.target op addr = some (who, a) →
      exec (busCommand op addr) s
        = andThen (inside (callEvent who op a r.answer)) fun t =>
            .next { t with ret := op.returns (clip (opWidth op) r.answer) })
    ∧ (∀ m op, s.CtrlMapped → ∀ row ∈ forwardedRows m op,
      exec row.2 s
        = andThen (inside (callEvent .scuOther op.toBus (row.1.setWidth 32) r.answer)) fun t =>
            .next { t with ret := op.toBus.returns r.answer })
    ∧ ((∀ c, (s.chan c).active = false) → ∀ ticks,
      exec (.exec ticks) s = andThen (inside (.dspStep ticks)) fun t => .next { t with ret := none })
    ∧ (∀ n w addr who a, s.script.length ≤ n → s.reachesCtrl addr = false → s.target (.read w) addr = some (who, a) →
      dmaRead (handlersTo n) w addr s
        = andThen (inside (callEvent who (.read w) a r.answer)) fun t => .next (t, clip w r.answer))
    ∧ (∀ n op addr who a, s.script.length ≤ n → s.reachesCtrl addr = false → s.target op addr = some (who, a) →
      dmaWrite (handlersTo n) op addr s = inside (callEvent who op a r.answer))

/-! Invariants. -/

/-- Every step keeps the three queue invariants (10_state.md R29, 44_interrupt_arbiter.md R185). -/
def Obligations.QueueInvariantKept : Prop :=
  ∀ s t, QueueOk s.cfg.priorityOrder s.q → step s = .next t → QueueOk t.cfg.priorityOrder t.q

/-- The queue invariants hold right after reset (10_state.md R41). -/
def Obligations.QueueInvariantAtReset : Prop :=
  QueueOk State.reset.cfg.priorityOrder State.reset.q

/-- Every step keeps the canonical form of the three tables (the model's own form, notes/assumptions/19.md; that no
entry is null and that the tables have 256 and 65536 entries is 10_state.md R21, R23). -/
def Obligations.TablesInvariantKept : Prop :=
  ∀ s t, s.TablesOk → step s = .next t → t.TablesOk

/-- Right after reset every page is UNHANDLED and every mask is 0 (10_state.md R38, R39), and the tables have their
canonical form, which is the model's own (notes/assumptions/19.md). -/
def Obligations.TablesAtReset : Prop :=
  State.reset.TablesOk
  ∧ (∀ p, State.reset.page p = .unhandled)
  ∧ (∀ a, State.reset.readMask a = 0 ∧ State.reset.writeMask a = 0)

/-- An idle channel is all zero: every instruction, and so every step, keeps this, whatever commands the handlers issue
(10_state.md R27). What a unit does whose channel such a command idled is the model's choice
(notes/assumptions/21.md). -/
def Obligations.IdleChannelsZeroKept : Prop :=
  ∀ s t, (∀ c, ChannelOk (s.chan c)) → (step s = .next t ∨ ∃ i, exec i s = .next t) → ∀ c, ChannelOk (t.chan c)

/-- Right after reset every channel is idle with every field zero, and the queue is empty (10_state.md R40, R41). -/
def Obligations.ChannelsAndQueueAtReset : Prop :=
  (∀ c, State.reset.chan c = Channel.idle ∧ (State.reset.chan c).active = false) ∧ State.reset.q = []

/-- The reset values of the controller registers, with the nine registers that the spec leaves unspecified at a draw
each (10_state.md R42, whose values the spec marks as general knowledge, notes/assumptions/11.md; which draws they are
is the model's choice, notes/assumptions/10.md). -/
def Obligations.RegistersAtReset : Prop :=
  (∀ c, (State.reset.regs c).ad = 0x00000101 ∧ (State.reset.regs c).en = 0 ∧ (State.reset.regs c).md = 7)
  ∧ State.reset.ims = 0xBFFF ∧ State.reset.ist = 0 ∧ State.reset.aiack = false
  ∧ ∃ n : Chan → DmaField → Nat,
      (∀ c f d g, n c f = n d g → f ∈ [DmaField.r, .w, .c] → g ∈ [DmaField.r, .w, .c] → c = d ∧ f = g)
      ∧ ∀ c, ∀ f ∈ [DmaField.r, .w, .c], fieldGet f (State.reset.regs c) = Config.draw (n c f)

/-- In a quiet environment only MAP, INIT and RESET change the page table, and only MFILL, INIT and RESET the region
mask tables (10_state.md R21, R23; 41_region_mask.md R118). -/
def Obligations.TablesChangeOnlyByConfiguration : Prop :=
  ∀ i s t, s.Quiet → exec i s = .next t → i ≠ .init → i ≠ .reset →
    ((∀ f l d, i ≠ .map f l d) → t.pt = s.pt)
    ∧ ((∀ a b m r w, i ≠ .mfill a b m r w) → t.mr = s.mr ∧ t.mw = s.mw)

/-! Configuration commands. -/

/-- MAP sets the slots of its range, `first > last` being the empty range, and changes nothing else
(40_dispatcher.md R108). -/
def Obligations.MapResult : Prop :=
  ∀ (first last : BitVec 8) (dev : DeviceId) (s : State), dev.named s.cfg.extraDevices = true →
    ∃ t, exec (.map first last dev) s = .next t
      ∧ (∀ p, t.page p = if first.toNat ≤ p ∧ p ≤ last.toNat then dev else s.page p)
      ∧ t = { s with pt := t.pt, ret := none }

/-- INIT leaves each slot at the last row of INIT_PAGE_MAP that covers it, UNHANDLED where none does, each mask entry
at the last fill of INIT_MASK_FILLS that covers it, and changes nothing else (40_dispatcher.md R109). -/
def Obligations.InitResult : Prop :=
  ∀ s : State, ∃ t, exec .init s = .next t
    ∧ (∀ p, t.page p = pageFrom s.cfg.initPageMap p)
    ∧ (∀ a, t.readMask a = match lastFill s.cfg.initMaskFills (a.toNat / 65536) with
        | some m => m.entry m.r
        | none => s.readMask a)
    ∧ (∀ a, t.writeMask a = match lastFill s.cfg.initMaskFills (a.toNat / 65536) with
        | some m => m.entry m.w
        | none => s.writeMask a)
    ∧ t = { s with pt := t.pt, mr := t.mr, mw := t.mw, ret := none }

/-- MFILL writes `wmask | start`, or 0 for a disabled direction, over the inclusive page range, and changes nothing
else (41_region_mask.md R113). -/
def Obligations.MfillResult : Prop :=
  ∀ (start stop wmask : Word) (r w : Bool) (s : State),
    ∃ t, exec (.mfill start stop wmask r w) s = .next t
      ∧ (∀ a : Word, start.toNat / 65536 ≤ a.toNat / 65536 ∧ a.toNat / 65536 ≤ stop.toNat / 65536 →
          t.readMask a = (if r then wmask ||| start else 0) ∧ t.writeMask a = (if w then wmask ||| start else 0))
      ∧ (∀ a : Word, ¬ (start.toNat / 65536 ≤ a.toNat / 65536 ∧ a.toNat / 65536 ≤ stop.toNat / 65536) →
          t.readMask a = s.readMask a ∧ t.writeMask a = s.writeMask a)
      ∧ t = { s with mr := t.mr, mw := t.mw, ret := none }

/-- MLKR and MLKW return the entry of the address's 64 KB page, 0 where nothing was filled, and change nothing
(41_region_mask.md R114, R115). -/
def Obligations.MaskLookup : Prop :=
  ∀ (addr : Word) (s : State),
    exec (.mlkr addr) s = .next { s with ret := some (tableGet 0 s.mr (addr.toNat / 65536)) }
    ∧ exec (.mlkw addr) s = .next { s with ret := some (tableGet 0 s.mw (addr.toNat / 65536)) }

/-! Bus accesses. -/

/-- Where a bus access that does not reach the controller goes: the six bus commands and the eight zone rows call the
one collaborator of the zone table with the address it gives, or none; a read returns the answer, or 0; nothing else
changes (20_memory.md R47 to R53, R59; 40_dispatcher.md R99 to R107; that the environment is quiet is a premise). -/
def Obligations.BusAccessFollowsZoneTable : Prop :=
  ∀ (s : State) (op : BusOp) (addr : Word), s.Quiet → s.reachesCtrl addr = false →
    let t := { s.accessed op addr with ret := op.returns (s.valueAt op addr) }
    exec (busCommand op addr) s = .next t
    ∧ ∀ zone a, addr = withZone zone a → exec (zoneRow zone a op) s = .next t

/-- Every zone row is the bus command of the same access, in every state (20_memory.md R47, 30_encoding.md R98). -/
def Obligations.ZoneRowIsBusCommand : Prop :=
  ∀ (s : State) (op : BusOp) (zone : BitVec 3) (a : BitVec 29),
    exec (zoneRow zone a op) s = exec (busCommand op (withZone zone a)) s

/-- Zones 0, 1 and 5 are aliases: the same access at the same A29 does the same in all three (20_memory.md R49,
40_dispatcher.md R112). -/
def Obligations.PagedZonesAlias : Prop :=
  ∀ (s : State) (op : BusOp) (a : BitVec 29),
    exec (busCommand op (withZone 1 a)) s = exec (busCommand op (withZone 0 a)) s
    ∧ exec (busCommand op (withZone 5 a)) s = exec (busCommand op (withZone 0 a)) s

/-- A 32-bit bus access at an A29 of a register row is that row, in zones 0, 1 and 5, at every 256-byte mirror and in
every state (30_encoding.md R79, R80, R98; 42_controller_registers.md R120; the base, the offsets of the rows and the
mirroring are the spec's general knowledge, notes/assumptions/11.md). -/
def Obligations.BusReachesRegisterRow : Prop :=
  ∀ (s : State) (op : RegOp) (addr : Word) (off m : BitVec 8), specPaged addr = true →
    specA29 addr = BitVec.ofNat 32 (0x05FE0000 + 256 * m.toNat + off.toNat) → off.toNat % 4 = 0 →
      exec (busCommand op.toBus addr) s = exec (registerRow off m op) s

/-- Accesses that reach the controller and are not 32 bits at a multiple of 4: a read returns a draw at its width, a
narrow write and a misaligned write are refused (42_controller_registers.md R141). -/
def Obligations.NarrowControllerAccess : Prop :=
  ∀ (s : State) (addr : Word), s.reachesCtrl addr = true →
    (∀ w : Width, w ≠ .w32 ∨ addr.toNat % 4 ≠ 0 →
      exec (busCommand (.read w) addr) s
        = .next { s with draws := s.draws + 1, ret := some (clip w (Config.draw s.draws)) })
    ∧ (∀ v, exec (.wr8 addr v) s = .refused .ctrlNarrowWrite)
    ∧ (∀ v, exec (.wr16 addr v) s = .refused .ctrlNarrowWrite)
    ∧ (addr.toNat % 4 ≠ 0 → ∀ v, exec (.wr32 addr v) s = .refused .ctrlMisaligned)

/-! The controller registers. -/

/-- A write of DcR, DcW, DcC, DcAD or DcMD stores all 32 bits and does nothing else (42_controller_registers.md
R122). -/
def Obligations.DmaRegisterWrite : Prop :=
  ∀ (s : State) (c : Chan) (f : DmaField) (m : BitVec 8) (v : Word), s.CtrlMapped → f ≠ .en →
    ∃ t, exec (channelRow c f m (.write v)) s = .next t
      ∧ (∀ d g, fieldGet g (t.regs d) = if d = c ∧ g = f then v else fieldGet g (s.regs d))
      ∧ t = { s with dma := t.dma, ret := none }

/-- A read of a DMA register returns the stored value and changes nothing (42_controller_registers.md R123, R121). -/
def Obligations.DmaRegisterRead : Prop :=
  ∀ (s : State) (c : Chan) (f : DmaField) (m : BitVec 8), s.CtrlMapped →
    exec (channelRow c f m .read) s = .next { s with ret := some (fieldGet f (s.regs c)) }

/-- Reads of IMS, IST and AIACK return the registers, zero-extended, and change nothing (42_controller_registers.md
R121, R126, R129, R131). -/
def Obligations.InterruptRegisterRead : Prop :=
  ∀ (s : State) (m : BitVec 8), s.CtrlMapped →
    exec (.ims m .read) s = .next { s with ret := some (s.ims.setWidth 32) }
    ∧ exec (.ist m .read) s = .next { s with ret := some s.ist }
    ∧ exec (.aiack m .read) s = .next { s with ret := some (if s.aiack then 1 else 0) }

/-- A write of IMS stores bits 15:0 and retests, whatever the old value (42_controller_registers.md R125). -/
def Obligations.ImsWrite : Prop :=
  ∀ (s : State) (m : BitVec 8) (v : Word), s.CtrlMapped →
    exec (.ims m (.write v)) s
      = .next { { s with ims := BitVec.ofNat 16 (v.toNat % 65536) }.retested with ret := none }

/-- A write of IST clears the bits written as 0 and drops the records that carry a cleared bit, with all their status
bits; it does not retest (42_controller_registers.md R130, 44_interrupt_arbiter.md R180; that a written 0 clears is the
spec's general knowledge, notes/assumptions/11.md). -/
def Obligations.IstWrite : Prop :=
  ∀ (s : State) (m : BitVec 8) (v : Word), s.CtrlMapped →
    exec (.ist m (.write v)) s
      = .next { { s with ist := s.ist &&& v }.droppedBy (s.ist &&& ~~~(s.ist &&& v)) with ret := none }

/-- A write of AIACK stores bit 0, and a written 1 retests (42_controller_registers.md R132). -/
def Obligations.AiackWrite : Prop :=
  ∀ (s : State) (m : BitVec 8) (v : Word), s.CtrlMapped →
    (v.getLsbD 0 = true →
      exec (.aiack m (.write v)) s = .next { { s with aiack := true }.retested with ret := none })
    ∧ (v.getLsbD 0 = false → exec (.aiack m (.write v)) s = .next { s with aiack := false, ret := none })

/-- Reads of DSTA, DSTP and a reserved offset return a draw; writes of DSTA and of a reserved offset do nothing, and a
write of DSTP is refused as DMA_FORCE_STOP with bit 0 set and does nothing without (42_controller_registers.md R134 to
R137, R139). -/
def Obligations.DrawRegisters : Prop :=
  ∀ (s : State) (m off : BitVec 8) (v : Word), s.CtrlMapped →
    off.toNat % 4 = 0 → off ∉ namedOffsets →
    let drawn : State := { s with draws := s.draws + 1, ret := some (Config.draw s.draws) }
    exec (.dsta m .read) s = .next drawn
    ∧ exec (.dstp m .read) s = .next drawn
    ∧ exec (.reservedOffset off m .read) s = .next drawn
    ∧ exec (.dsta m (.write v)) s = .next { s with ret := none }
    ∧ exec (.reservedOffset off m (.write v)) s = .next { s with ret := none }
    ∧ (v.getLsbD 0 = false → exec (.dstp m (.write v)) s = .next { s with ret := none })
    ∧ (v.getLsbD 0 = true → exec (.dstp m (.write v)) s = .refused .dmaForceStop)

/-- An access at a forwarded offset is one call of SCU_OTHER with the offset, and the block's own state does not change
(42_controller_registers.md R138; that the environment is quiet is a premise). The twelve offsets are the default
offset map's, general knowledge of the spec (30_encoding.md R80, notes/assumptions/11.md, 18.md). -/
def Obligations.ForwardedRegisters : Prop :=
  ∀ (s : State) (m : BitVec 8) (op : RegOp), s.CtrlMapped → s.Quiet →
    ∀ row ∈ forwardedRows m op,
      exec row.2 s
        = .next { s.called .scuOther op.toBus (row.1.setWidth 32) with
            ret := op.toBus.returns (s.answerTo .scuOther .w32 (row.1.setWidth 32)) }

/-- While slot 0xBF holds the stub, as after RESET, a register row reads 0 and its write does nothing
(70_reset_and_hazards.md R211, 40_dispatcher.md R106). -/
def Obligations.RegisterRowsBehindStub : Prop :=
  ∀ (s : State) (off m : BitVec 8) (op : RegOp), off.toNat % 4 = 0 → s.page 0xBF = .unhandled →
    exec (registerRow off m op) s = .next { s with ret := op.toBus.returns 0 }

/-! Interrupts. -/

/-- RAISE: an unmasked raise is delivered at once, a gated one only with AIACK set, which it consumes; any other is
queued, if the queue takes it, and sets its status bits (44_interrupt_arbiter.md R174, R176, R178). -/
def Obligations.RaiseResult : Prop :=
  ∀ (s : State) (v : BitVec 8) (l : BitVec 4) (m : BitVec 16) (st : BitVec 32),
    exec (.raise v l m st) s = .next { s.raised ⟨v, l, m, st⟩ with ret := none }

/-- RETEST delivers, from the end of the queue, every record that is unmasked, or the first of them only under ONE,
clears the status bits of the delivered records and keeps the others in order (44_interrupt_arbiter.md R177). -/
def Obligations.RetestResult : Prop :=
  ∀ s : State, exec .retest s = .next { s.retested with ret := none }

/-- After a retest that is not under ONE every record in the queue is masked (44_interrupt_arbiter.md R187). -/
def Obligations.RetestLeavesMasked : Prop :=
  ∀ s t, s.cfg.retestMode = .all → exec .retest s = .next t → ∀ r ∈ t.q, r.mask &&& t.ims ≠ 0

/-- RMSTAT drops the records that carry a bit cleared between `before` and `after`, and clears all the status bits of
the dropped records (44_interrupt_arbiter.md R180). -/
def Obligations.RmstatResult : Prop :=
  ∀ (s : State) (before after : BitVec 32),
    exec (.rmstat before after) s = .next { s.droppedBy (before &&& ~~~after) with ret := none }

/-- REMOVE clears the status bits whatever the queue holds, and drops the record of the vector, whatever its level
(44_interrupt_arbiter.md R181). -/
def Obligations.RemoveResult : Prop :=
  ∀ (s : State) (v : BitVec 8) (l : BitVec 4) (st : BitVec 32),
    exec (.remove v l st) s
      = .next { s with ist := s.ist &&& ~~~st, q := s.q.filter fun r => decide (r.vector ≠ v), ret := none }

/-- The priority property: two raises of different vectors at levels L1 < L2, held back by the same mask, are delivered
L1 first by the IMS write that releases them, whichever was raised first (44_interrupt_arbiter.md R188). -/
def Obligations.PriorityOrderOfDelivery : Prop :=
  ∀ (s : State) (v1 v2 : BitVec 8) (l1 l2 : BitVec 4) (b : BitVec 16) (st1 st2 : BitVec 32) (m : BitVec 8) (v : Word)
    (firstIsHigher : Bool),
    s.CtrlMapped → s.q = [] → s.cfg.priorityOrder = .lowLevelFirst → s.cfg.retestMode = .all →
    v1 ≠ v2 → l1.toNat < l2.toNat → b &&& s.ims ≠ 0 → b &&& v.setWidth 16 = 0 →
      ∃ t1 t2 t3,
        exec (if firstIsHigher then .raise v1 l1 b st1 else .raise v2 l2 b st2) s = .next t1
        ∧ exec (if firstIsHigher then .raise v2 l2 b st2 else .raise v1 l1 b st1) t1 = .next t2
        ∧ exec (.ims m (.write v)) t2 = .next t3
        ∧ t3.history = s.history ++ [.sendInterrupt .primary v1 l1, .sendInterrupt .primary v2 l2]
        ∧ t3.q = []

/-! Reset. -/

/-- RESET puts every part of the block at its reset value, with fresh draws for the registers the spec leaves
unspecified, emits no event, and keeps the refusal mark and the history (70_reset_and_hazards.md R211). -/
def Obligations.ResetResult : Prop :=
  ∀ s : State, ∃ t, exec .reset s = .next t
    ∧ (∀ p, t.page p = .unhandled) ∧ (∀ a, t.readMask a = 0 ∧ t.writeMask a = 0)
    ∧ (∀ c, t.chan c = Channel.idle) ∧ t.q = []
    ∧ (∀ c, (t.regs c).ad = s.cfg.resetAd ∧ (t.regs c).en = s.cfg.resetEn ∧ (t.regs c).md = s.cfg.resetMd)
    ∧ t.ims = s.cfg.resetIms ∧ t.ist = s.cfg.resetIst ∧ t.aiack = s.cfg.resetAiack
    ∧ (∃ n : Chan → DmaField → Nat,
        (∀ c f d g, n c f = n d g → f ∈ [DmaField.r, .w, .c] → g ∈ [DmaField.r, .w, .c] → c = d ∧ f = g)
        ∧ ∀ c, ∀ f ∈ [DmaField.r, .w, .c],
            fieldGet f (t.regs c) = Config.draw (n c f) ∧ s.draws ≤ n c f ∧ n c f < t.draws)
    ∧ t.refusalMark = s.refusalMark ∧ t.history = s.history
    ∧ t.cfg = s.cfg ∧ t.pos = s.pos ∧ t.stream = s.stream ∧ t.port = s.port ∧ t.script = s.script ∧ t.ret = none

/-! The DMA engine. -/

/-- A write of DcEN that does not arm: EN = 1 with another start factor is refused, GO without EN at start factor 7 is
refused, and every other combination stores the value and does nothing more (43_dma.md R145,
42_controller_registers.md R124; the bit positions are the spec's general knowledge, notes/assumptions/11.md). -/
def Obligations.EnableWriteWithoutStart : Prop :=
  ∀ (s : State) (c : Chan) (m : BitVec 8) (v : Word), s.CtrlMapped →
    let factor := (s.regs c).md.toNat % 8
    (v.getLsbD 8 = true → factor ≠ 7 → exec (enableRow c m (.write v)) s = .refused .dmaStartFactor)
    ∧ (v.getLsbD 8 = false → v.getLsbD 0 = true → factor = 7 →
        exec (enableRow c m (.write v)) s = .refused .dmaGoWithoutEn)
    ∧ ((v.getLsbD 8 = true ∧ v.getLsbD 0 = false ∧ factor = 7) ∨ (v.getLsbD 8 = false ∧ factor ≠ 7)
          ∨ (v.getLsbD 8 = false ∧ v.getLsbD 0 = false ∧ factor = 7) →
        exec (enableRow c m (.write v)) s = .next { s with dma := s.dma.set c { s.regs c with en := v }, ret := none })

/-- Arming an idle channel in direct mode latches the registers into it, makes no access and moves no data (43_dma.md
R145 to R148, R151, R152; 30_encoding.md R90 to R92; the bit positions are the spec's general knowledge,
notes/assumptions/11.md). -/
def Obligations.DirectArm : Prop :=
  ∀ (s : State) (c : Chan) (m : BitVec 8) (v : Word), s.CtrlMapped →
    v.getLsbD 8 = true → v.getLsbD 0 = true → (s.regs c).md.toNat % 8 = 7 → (s.regs c).md.getLsbD 24 = false →
    (s.chan c).active = false →
      exec (enableRow c m (.write v)) s
        = .next { s with
            dma := s.dma.set c { s.regs c with en := v }
            ch := s.ch.set c
              (s.burst (s.latched c) (s.regs c).r (s.regs c).w (s.countOf c (s.regs c).c) true)
            ret := none }

/-- Arming an idle channel in indirect mode makes three 32-bit reads at the table address, in order, and latches the
descriptor they return; no unit moves (43_dma.md R146, R147, R149; 30_encoding.md R93; that the environment is quiet
is a premise; the bit positions and the descriptor's layout are the spec's general knowledge, notes/assumptions/11.md). -/
def Obligations.IndirectArm : Prop :=
  ∀ (s : State) (c : Chan) (m : BitVec 8) (v : Word), s.CtrlMapped → s.Quiet →
    v.getLsbD 8 = true → v.getLsbD 0 = true → (s.regs c).md.toNat % 8 = 7 → (s.regs c).md.getLsbD 24 = true →
    (s.chan c).active = false →
    let p := (s.regs c).w
    (∀ k ∈ [0, 4, 8], s.reachesCtrl (p + BitVec.ofNat 32 k) = false) →
    let s1 := s.accessed (.read .w32) p
    let s2 := s1.accessed (.read .w32) (p + 4)
    let s3 := s2.accessed (.read .w32) (p + 8)
    let n := s.valueAt (.read .w32) p
    let w := s1.valueAt (.read .w32) (p + 4)
    let r := s2.valueAt (.read .w32) (p + 8)
    exec (enableRow c m (.write v)) s
      = .next { s3 with
          dma := s.dma.set c { s.regs c with en := v }
          ch := s.ch.set c
            (s.burst { s.latched c with ptr := p } (BitVec.ofNat 32 (r.toNat % 2 ^ 31)) w (s.countOf c n)
              (decide (2 ^ 31 ≤ r.toNat)))
          ret := none }

/-- Arming an active channel first drains the old transfer, with what it latched, and only then latches the registers:
the write does what a drain of the channel and then an arm of the idle channel do (43_dma.md R146, R170). -/
def Obligations.RearmDrainsFirst : Prop :=
  ∀ (s t : State) (c : Chan) (m : BitVec 8) (v : Word), s.CtrlMapped →
    v.getLsbD 8 = true → v.getLsbD 0 = true → (s.regs c).md.toNat % 8 = 7 → (s.chan c).active = true →
    exec (enableRow c m (.write v)) s = .next t →
      ∃ u, drainChannel (handlers s) c { s with dma := s.dma.set c { s.regs c with en := v } } = .next u
        ∧ (u.chan c).active = false
        ∧ andThen (latch (handlers s) c u) (fun x => .next { x with ret := none }) = .next t

/-- A copy unit reads, then writes, one unit, and moves both addresses (43_dma.md R154, R155). -/
def Obligations.CopyUnit : Prop :=
  ∀ (s : State) (c : Chan) (n : Nat), s.Quiet → (s.chan c).active = true → (s.chan c).raAdd ≠ 0 → s.avoidsCtrl c 1 →
    let k := s.chan c
    let w : Width := if k.narrow then .w16 else .w32
    let v := s.valueAt (.read w) k.ra
    let write : BusOp := if k.narrow then .write16 (v.setWidth 16) else .write32 v
    let size : Word := if k.narrow then 2 else 4
    unit (handlersTo n) c s
      = .next { (s.accessed (.read w) k.ra).accessed write k.wa with
          ch := s.ch.set c
            { k with ra := k.ra + size, wa := k.wa + k.waAdd, tn := k.tn - size, segw := true } }

/-- A narrow fill unit writes the high half of the fill value, reading it first unless a constant source has it, then
the low half (43_dma.md R154, R156). -/
def Obligations.NarrowFillUnit : Prop :=
  ∀ (s : State) (c : Chan) (n : Nat), s.Quiet → (s.chan c).active = true → (s.chan c).raAdd = 0 →
    (s.chan c).narrow = true → s.avoidsCtrl c 1 →
    let k := s.chan c
    let reads := !k.half && !(k.csrc && k.fvalid)
    let fval := if reads then s.valueAt (.read .w32) k.ra else k.fval
    let half : BitVec 16 := BitVec.ofNat 16 (if k.half then fval.toNat % 65536 else fval.toNat / 65536)
    unit (handlersTo n) c s
      = .next { (if reads then s.accessed (.read .w32) k.ra else s).accessed (.write16 half) k.wa with
          ch := s.ch.set c
            { k with
              fval := fval
              fvalid := k.fvalid || reads
              wa := k.wa + k.waAdd
              tn := k.tn - 2
              half := !k.half
              segw := true } }

/-- A wide fill unit writes the fill value, reading it first unless a constant source has it (43_dma.md R154, R157). -/
def Obligations.WideFillUnit : Prop :=
  ∀ (s : State) (c : Chan) (n : Nat), s.Quiet → (s.chan c).active = true → (s.chan c).raAdd = 0 →
    (s.chan c).narrow = false → s.avoidsCtrl c 1 →
    let k := s.chan c
    let reads := !(k.csrc && k.fvalid)
    let fval := if reads then s.valueAt (.read .w32) k.ra else k.fval
    unit (handlersTo n) c s
      = .next { (if reads then s.accessed (.read .w32) k.ra else s).accessed (.write32 fval) k.wa with
          ch := s.ch.set c
            { k with
              fval := fval
              fvalid := k.fvalid || reads
              wa := k.wa + k.waAdd
              tn := k.tn - 4
              segw := true } }

/-- An access of the engine that reaches the controller is refused as DMA_TO_CONTROLLER: the first read of a unit or of
a descriptor, the write after a read that did not, and the second and the third read of a descriptor (43_dma.md
R158). -/
def Obligations.EngineNeverReachesController : Prop :=
  ∀ (s : State) (c : Chan) (n : Nat), s.Quiet → (s.chan c).active = true →
    let k := s.chan c
    (k.unitReads = true → s.reachesCtrl k.ra = true → unit (handlersTo n) c s = .refused .dmaToController)
    ∧ ((k.unitReads = true → s.reachesCtrl k.ra = false) → s.reachesCtrl k.wa = true →
        unit (handlersTo n) c s = .refused .dmaToController)
    ∧ ((∃ j ∈ [0, 4, 8], s.reachesCtrl (k.ptr + BitVec.ofNat 32 j) = true) →
        loadDescriptor (handlersTo n) c s = .refused .dmaToController)

/-- Closing a segment reports it if it was written and starts in general working memory, and starts the next one
(43_dma.md R159). -/
def Obligations.CloseSegment : Prop :=
  ∀ (s : State) (c : Chan),
    let k := s.chan c
    let inRam := s.cfg.wramRanges.any fun win =>
    decide (win.1.toNat ≤ k.seg.toNat % 2 ^ 29) && decide (k.seg.toNat % 2 ^ 29 ≤ win.2.toNat)
  closeSegment c s
    = { s with
        history := s.history ++ (if k.segw && inRam then [.notifyWrite k.seg (k.wa - k.seg)] else [])
        ch := s.ch.set c { k with seg := k.wa, segw := false } }

/-- Completion writes DcR and DcW back in direct mode where DcMD asked for it, clears the channel, and raises the
channel's end interrupt after that (43_dma.md R161, R162). -/
def Obligations.Completion : Prop :=
  ∀ (s : State) (c : Chan),
    let k := s.chan c
    complete c s
      = { s with
          dma := s.dma.set c
            { s.regs c with
              r := if !k.indirect && k.rup then k.ra else (s.regs c).r
              w := if !k.indirect && k.wup then k.wa else (s.regs c).w }
          ch := s.ch.set c Channel.idle }.raised (s.cfg.dmaEnd.get c)

/-- A burst's end closes the segment; then an indirect transfer whose descriptor was not the last loads the one at
`ptr + 12`, and any other transfer completes (43_dma.md R160). -/
def Obligations.BurstEnd : Prop :=
  ∀ (s : State) (c : Chan) (nest : Nest),
    let k := (closeSegment c s).chan c
    (k.indirect = true ∧ k.last = false →
      endBurst nest c s
        = loadDescriptor nest c { closeSegment c s with
            ch := (closeSegment c s).ch.set c { k with ptr := (s.chan c).ptr + 12 } })
    ∧ (k.indirect = false ∨ k.last = true → endBurst nest c s = .next (complete c (closeSegment c s)))

/-- Stepping an idle channel does nothing; so with three idle channels EXEC emits the DSP step alone and DRAIN does
nothing (43_dma.md R164, R166 to R168; that the environment is quiet is a premise of the EXEC clause). -/
def Obligations.IdleStep : Prop :=
  (∀ nest c budget s, (State.chan s c).active = false →
    stepChannel nest c budget s = .next s ∧ drainChannel nest c s = .next s)
  ∧ (∀ s : State, (∀ c, (s.chan c).active = false) →
      exec .drain s = .next { s with ret := none }
      ∧ (s.Quiet → ∀ ticks, exec (.exec ticks) s
          = .next { s with script := s.script.tail, history := s.history ++ [.dspStep ticks], ret := none }))

/-- EXEC steps channel 0, then 1, then 2, each by the whole budget, and then the DSP (43_dma.md R166, R167). It
completes in every quiet state in which no access of the three channels reaches the controller, as where no slot holds
the discriminator, whatever the channels do: it ends with the DSP step, changes DcR and DcW alone of the DMA registers,
and no table, mask or input (R161). -/
def Obligations.ExecCompletes : Prop :=
  ∀ (s : State) (ticks : Word),
    exec (.exec ticks) s
      = (andThen (stepChannel (handlers s) .c0 ticks.toNat s) fun a =>
          andThen (stepChannel (handlers s) .c1 ticks.toNat a) fun b =>
          andThen (stepChannel (handlers s) .c2 ticks.toNat b) fun d =>
          andThen (extCall (handlers s) (.dspStep ticks) d) fun t => .next { t with ret := none })
    ∧ (s.Quiet → (s.NoCombo ∨ execAvoids (handlers s) ticks.toNat s = true) →
      ∃ t events, exec (.exec ticks) s = .next t
        ∧ t.history = s.history ++ events ++ [.dspStep ticks] ∧ (∀ e ∈ events, ∀ n, e ≠ .dspStep n)
        ∧ (∀ c, ∀ f ∈ [DmaField.c, .ad, .en, .md], fieldGet f (t.regs c) = fieldGet f (s.regs c))
        ∧ t.pt = s.pt ∧ t.mr = s.mr ∧ t.mw = s.mw ∧ t.ims = s.ims ∧ t.cfg = s.cfg ∧ t.refusalMark = s.refusalMark
        ∧ t.stream = s.stream ∧ t.port = s.port ∧ t.pos = s.pos ∧ t.ret = none)

/-- DRAIN drains channel 0, then 1, then 2, and steps no DSP (43_dma.md R168). A drain has no bound: it ends as some
finite number of ticks ends it, and hangs if no number does (R153, R169; how a hang is shown is notes/assumptions/9.md).
DRAIN completes in every quiet state in which every active channel is direct and none of its coming accesses reaches the
controller, as where no slot holds the discriminator: every channel is idle after it. -/
def Obligations.DrainCompletes : Prop :=
  (∀ s, exec .drain s
    = andThen (drainChannel (handlers s) .c0 s) fun a =>
        andThen (drainChannel (handlers s) .c1 a) fun b =>
        andThen (drainChannel (handlers s) .c2 b) fun t => .next { t with ret := none })
  ∧ (∀ nest c s,
    (∀ t, drainChannel nest c s = .next t ↔ ∃ n, ticks nest c n s = .next t ∧ (t.chan c).active = false)
    ∧ (∀ r, drainChannel nest c s = .refused r ↔ ∃ n, ticks nest c n s = .refused r)
    ∧ ((∀ n, ∃ t, ticks nest c n s = .next t ∧ (t.chan c).active = true) → drainChannel nest c s = .fault .dmaHang)
    ∧ (∀ f, drainChannel nest c s = .fault f →
        (∀ n, ∃ t, ticks nest c n s = .next t ∧ (t.chan c).active = true) ∨ ∃ n, ticks nest c n s = .fault f))
  ∧ (∀ s : State, s.Quiet →
    (∀ c, (s.chan c).active = true → (s.chan c).indirect = false
      ∧ (s.NoCombo ∨ (0 < (s.chan c).tn.toInt ∧ s.avoidsCtrl c (s.chan c).unitsLeft))) →
    ∃ t events, exec .drain s = .next t ∧ (∀ c, (t.chan c).active = false)
      ∧ t.history = s.history ++ events ∧ (∀ e ∈ events, ∀ n, e ≠ .dspStep n)
      ∧ (∀ c, ∀ f ∈ [DmaField.c, .ad, .en, .md], fieldGet f (t.regs c) = fieldGet f (s.regs c))
      ∧ t.pt = s.pt ∧ t.mr = s.mr ∧ t.mw = s.mw ∧ t.ims = s.ims ∧ t.cfg = s.cfg ∧ t.refusalMark = s.refusalMark
      ∧ t.stream = s.stream ∧ t.port = s.port ∧ t.pos = s.pos ∧ t.ret = none)

/-- A direct transfer is in flight until its budget reaches the units that are left, and completes in the step that
reaches them; until then each unit takes its size off the count and moves the addresses (70_reset_and_hazards.md R226,
43_dma.md R150, R153). -/
def Obligations.DirectTransferByBudget : Prop :=
  ∀ (s : State) (c : Chan) (n budget : Nat), s.Quiet → (s.chan c).active = true → (s.chan c).indirect = false →
    0 < (s.chan c).tn.toInt → s.avoidsCtrl c (s.chan c).unitsLeft →
      ∃ t, stepChannel (handlersTo n) c budget s = .next t
        ∧ (budget < (s.chan c).unitsLeft →
            (t.chan c).active = true
            ∧ (t.chan c).tn.toInt = (s.chan c).tn.toInt - budget * (s.chan c).unitSize
            ∧ (t.chan c).ra = (s.chan c).readAt budget ∧ (t.chan c).wa = (s.chan c).writeAt budget
            ∧ t.q = s.q ∧ t.ist = s.ist ∧ t.aiack = s.aiack ∧ t.dma = s.dma)
        ∧ ((s.chan c).unitsLeft ≤ budget → t.chan c = Channel.idle)
        ∧ ∀ d, d ≠ c → t.chan d = s.chan d

/-- The engine raises no interrupt other than the three end interrupts: in a quiet environment every delivery that EXEC,
DRAIN or a DcEN write adds, and every record it queues, is one of theirs (43_dma.md R172, R162). -/
def Obligations.EngineRaisesOnlyEnds : Prop :=
  ∀ i s t,
    (i = .drain ∨ (∃ ticks, i = .exec ticks) ∨ (s.CtrlMapped ∧ ∃ c m v, i = enableRow c m (.write v))) →
    s.Quiet → exec i s = .next t →
      (∃ events, t.history = s.history ++ events
        ∧ ∀ e ∈ events, e.isInterrupt = true → isEndDelivery s.cfg e)
      ∧ ∀ r ∈ t.q, r ∈ s.q ∨ ∃ c, r = s.cfg.dmaEnd.get c

/-- A chain ends at the first descriptor whose read word has bit 31 set, with one end interrupt and the channel
cleared (43_dma.md R160, R163, R165): a tick of an indirect channel goes on where the burst is not done, completes where
it is done and the descriptor is the last, and else loads the descriptor at `ptr + 12`, bit 31 of whose third word says
whether it is the last; and any number of ticks of an active channel that leaves it active has raised nothing, and one
that leaves it idle has raised the end interrupt once, at the end. That the environment is quiet is a premise. -/
def Obligations.IndirectChainEnds : Prop :=
  ∀ (s : State) (c : Chan) (n : Nat), s.Quiet → (s.chan c).active = true →
    (s.tickAvoids c = true → (s.chan c).indirect = true →
      ∃ v, unit (handlersTo n) c s = .next v ∧ v.noRaiseSince s
        ∧ (v.chan c).last = (s.chan c).last ∧ (v.chan c).ptr = (s.chan c).ptr
        ∧ (0 < (v.chan c).tn.toInt → tick (handlersTo n) c s = .next v)
        ∧ ((v.chan c).tn.toInt ≤ 0 → (s.chan c).last = true →
            tick (handlersTo n) c s = .next (complete c (closeSegment c v)))
        ∧ ((v.chan c).tn.toInt ≤ 0 → (s.chan c).last = false →
            let u := closeSegment c v
            let p := (s.chan c).ptr + 12
            let s1 := u.accessed (.read .w32) p
            let s2 := s1.accessed (.read .w32) (p + 4)
            let s3 := s2.accessed (.read .w32) (p + 8)
            let r := s2.valueAt (.read .w32) (p + 8)
            tick (handlersTo n) c s
              = .next { s3 with
                  ch := u.ch.set c
                    (u.burst { u.chan c with ptr := p } (BitVec.ofNat 32 (r.toNat % 2 ^ 31))
                      (s1.valueAt (.read .w32) (p + 4)) (u.countOf c (u.valueAt (.read .w32) p))
                      (decide (2 ^ 31 ≤ r.toNat))) }))
    ∧ (∀ budget t, ticks (handlersTo n) c budget s = .next t →
      ((t.chan c).active = true → t.noRaiseSince s)
      ∧ ((t.chan c).active = false → t.chan c = Channel.idle
          ∧ ∃ u, t = complete c (closeSegment c u) ∧ u.noRaiseSince s
            ∧ (u.chan c).tn.toInt ≤ 0 ∧ ((u.chan c).indirect = true → (u.chan c).last = true)))
end

