-- ==== Sys2Proof/Laws/State.lean ====
section
/-! SUPPORT. The small lemmas of the state's updates: one per field per update, true by rfl, and the reads of a
channel's parts. -/

namespace Sys2Proof

@[simp] theorem Trio.get_set_self {α : Type} (t : Trio α) (c : Chan) (a : α) : (t.set c a).get c = a := by
  cases c <;> rfl

@[simp] theorem Trio.get_set_ne {α : Type} (t : Trio α) {c d : Chan} (h : c ≠ d) (a : α) :
    (t.set c a).get d = t.get d := by
  cases c <;> cases d <;> first | rfl | exact absurd rfl h

@[simp] theorem Trio.set_set {α : Type} (t : Trio α) (c : Chan) (a b : α) : (t.set c a).set c b = t.set c b := by
  cases c <;> rfl

@[simp] theorem Trio.set_get {α : Type} (t : Trio α) (c : Chan) : t.set c (t.get c) = t := by
  cases c <;> rfl

end Sys2Proof

namespace Sys2Proof.Machine

/-! emit -/

@[simp] theorem emit_pt (s : State) (e : Event) : (s.emit e).pt = s.pt := rfl
@[simp] theorem emit_mr (s : State) (e : Event) : (s.emit e).mr = s.mr := rfl
@[simp] theorem emit_mw (s : State) (e : Event) : (s.emit e).mw = s.mw := rfl
@[simp] theorem emit_dma (s : State) (e : Event) : (s.emit e).dma = s.dma := rfl
@[simp] theorem emit_ims (s : State) (e : Event) : (s.emit e).ims = s.ims := rfl
@[simp] theorem emit_ist (s : State) (e : Event) : (s.emit e).ist = s.ist := rfl
@[simp] theorem emit_aiack (s : State) (e : Event) : (s.emit e).aiack = s.aiack := rfl
@[simp] theorem emit_ch (s : State) (e : Event) : (s.emit e).ch = s.ch := rfl
@[simp] theorem emit_q (s : State) (e : Event) : (s.emit e).q = s.q := rfl
@[simp] theorem emit_refusalMark (s : State) (e : Event) : (s.emit e).refusalMark = s.refusalMark := rfl
@[simp] theorem emit_history (s : State) (e : Event) : (s.emit e).history = s.history ++ [e] := rfl
@[simp] theorem emit_pos (s : State) (e : Event) : (s.emit e).pos = s.pos := rfl
@[simp] theorem emit_cfg (s : State) (e : Event) : (s.emit e).cfg = s.cfg := rfl
@[simp] theorem emit_stream (s : State) (e : Event) : (s.emit e).stream = s.stream := rfl
@[simp] theorem emit_port (s : State) (e : Event) : (s.emit e).port = s.port := rfl
@[simp] theorem emit_script (s : State) (e : Event) : (s.emit e).script = s.script := rfl
@[simp] theorem emit_draws (s : State) (e : Event) : (s.emit e).draws = s.draws := rfl
@[simp] theorem emit_ret (s : State) (e : Event) : (s.emit e).ret = s.ret := rfl

/-! modChan -/

@[simp] theorem modChan_pt (s : State) (c : Chan) (f : Channel → Channel) : (s.modChan c f).pt = s.pt := rfl
@[simp] theorem modChan_mr (s : State) (c : Chan) (f : Channel → Channel) : (s.modChan c f).mr = s.mr := rfl
@[simp] theorem modChan_mw (s : State) (c : Chan) (f : Channel → Channel) : (s.modChan c f).mw = s.mw := rfl
@[simp] theorem modChan_dma (s : State) (c : Chan) (f : Channel → Channel) : (s.modChan c f).dma = s.dma := rfl
@[simp] theorem modChan_ims (s : State) (c : Chan) (f : Channel → Channel) : (s.modChan c f).ims = s.ims := rfl
@[simp] theorem modChan_ist (s : State) (c : Chan) (f : Channel → Channel) : (s.modChan c f).ist = s.ist := rfl
@[simp] theorem modChan_aiack (s : State) (c : Chan) (f : Channel → Channel) : (s.modChan c f).aiack = s.aiack := rfl
@[simp] theorem modChan_ch (s : State) (c : Chan) (f : Channel → Channel) : (s.modChan c f).ch = s.ch.set c (f (s.ch.get c)) := rfl
@[simp] theorem modChan_q (s : State) (c : Chan) (f : Channel → Channel) : (s.modChan c f).q = s.q := rfl
@[simp] theorem modChan_refusalMark (s : State) (c : Chan) (f : Channel → Channel) : (s.modChan c f).refusalMark = s.refusalMark := rfl
@[simp] theorem modChan_history (s : State) (c : Chan) (f : Channel → Channel) : (s.modChan c f).history = s.history := rfl
@[simp] theorem modChan_pos (s : State) (c : Chan) (f : Channel → Channel) : (s.modChan c f).pos = s.pos := rfl
@[simp] theorem modChan_cfg (s : State) (c : Chan) (f : Channel → Channel) : (s.modChan c f).cfg = s.cfg := rfl
@[simp] theorem modChan_stream (s : State) (c : Chan) (f : Channel → Channel) : (s.modChan c f).stream = s.stream := rfl
@[simp] theorem modChan_port (s : State) (c : Chan) (f : Channel → Channel) : (s.modChan c f).port = s.port := rfl
@[simp] theorem modChan_script (s : State) (c : Chan) (f : Channel → Channel) : (s.modChan c f).script = s.script := rfl
@[simp] theorem modChan_draws (s : State) (c : Chan) (f : Channel → Channel) : (s.modChan c f).draws = s.draws := rfl
@[simp] theorem modChan_ret (s : State) (c : Chan) (f : Channel → Channel) : (s.modChan c f).ret = s.ret := rfl

/-! modRegs -/

@[simp] theorem modRegs_pt (s : State) (c : Chan) (f : DmaRegs → DmaRegs) : (s.modRegs c f).pt = s.pt := rfl
@[simp] theorem modRegs_mr (s : State) (c : Chan) (f : DmaRegs → DmaRegs) : (s.modRegs c f).mr = s.mr := rfl
@[simp] theorem modRegs_mw (s : State) (c : Chan) (f : DmaRegs → DmaRegs) : (s.modRegs c f).mw = s.mw := rfl
@[simp] theorem modRegs_dma (s : State) (c : Chan) (f : DmaRegs → DmaRegs) : (s.modRegs c f).dma = s.dma.set c (f (s.dma.get c)) := rfl
@[simp] theorem modRegs_ims (s : State) (c : Chan) (f : DmaRegs → DmaRegs) : (s.modRegs c f).ims = s.ims := rfl
@[simp] theorem modRegs_ist (s : State) (c : Chan) (f : DmaRegs → DmaRegs) : (s.modRegs c f).ist = s.ist := rfl
@[simp] theorem modRegs_aiack (s : State) (c : Chan) (f : DmaRegs → DmaRegs) : (s.modRegs c f).aiack = s.aiack := rfl
@[simp] theorem modRegs_ch (s : State) (c : Chan) (f : DmaRegs → DmaRegs) : (s.modRegs c f).ch = s.ch := rfl
@[simp] theorem modRegs_q (s : State) (c : Chan) (f : DmaRegs → DmaRegs) : (s.modRegs c f).q = s.q := rfl
@[simp] theorem modRegs_refusalMark (s : State) (c : Chan) (f : DmaRegs → DmaRegs) : (s.modRegs c f).refusalMark = s.refusalMark := rfl
@[simp] theorem modRegs_history (s : State) (c : Chan) (f : DmaRegs → DmaRegs) : (s.modRegs c f).history = s.history := rfl
@[simp] theorem modRegs_pos (s : State) (c : Chan) (f : DmaRegs → DmaRegs) : (s.modRegs c f).pos = s.pos := rfl
@[simp] theorem modRegs_cfg (s : State) (c : Chan) (f : DmaRegs → DmaRegs) : (s.modRegs c f).cfg = s.cfg := rfl
@[simp] theorem modRegs_stream (s : State) (c : Chan) (f : DmaRegs → DmaRegs) : (s.modRegs c f).stream = s.stream := rfl
@[simp] theorem modRegs_port (s : State) (c : Chan) (f : DmaRegs → DmaRegs) : (s.modRegs c f).port = s.port := rfl
@[simp] theorem modRegs_script (s : State) (c : Chan) (f : DmaRegs → DmaRegs) : (s.modRegs c f).script = s.script := rfl
@[simp] theorem modRegs_draws (s : State) (c : Chan) (f : DmaRegs → DmaRegs) : (s.modRegs c f).draws = s.draws := rfl
@[simp] theorem modRegs_ret (s : State) (c : Chan) (f : DmaRegs → DmaRegs) : (s.modRegs c f).ret = s.ret := rfl

/-! returning -/

@[simp] theorem returning_pt (v : Word) (s : State) : (returning v s).pt = s.pt := rfl
@[simp] theorem returning_mr (v : Word) (s : State) : (returning v s).mr = s.mr := rfl
@[simp] theorem returning_mw (v : Word) (s : State) : (returning v s).mw = s.mw := rfl
@[simp] theorem returning_dma (v : Word) (s : State) : (returning v s).dma = s.dma := rfl
@[simp] theorem returning_ims (v : Word) (s : State) : (returning v s).ims = s.ims := rfl
@[simp] theorem returning_ist (v : Word) (s : State) : (returning v s).ist = s.ist := rfl
@[simp] theorem returning_aiack (v : Word) (s : State) : (returning v s).aiack = s.aiack := rfl
@[simp] theorem returning_ch (v : Word) (s : State) : (returning v s).ch = s.ch := rfl
@[simp] theorem returning_q (v : Word) (s : State) : (returning v s).q = s.q := rfl
@[simp] theorem returning_refusalMark (v : Word) (s : State) : (returning v s).refusalMark = s.refusalMark := rfl
@[simp] theorem returning_history (v : Word) (s : State) : (returning v s).history = s.history := rfl
@[simp] theorem returning_pos (v : Word) (s : State) : (returning v s).pos = s.pos := rfl
@[simp] theorem returning_cfg (v : Word) (s : State) : (returning v s).cfg = s.cfg := rfl
@[simp] theorem returning_stream (v : Word) (s : State) : (returning v s).stream = s.stream := rfl
@[simp] theorem returning_port (v : Word) (s : State) : (returning v s).port = s.port := rfl
@[simp] theorem returning_script (v : Word) (s : State) : (returning v s).script = s.script := rfl
@[simp] theorem returning_draws (v : Word) (s : State) : (returning v s).draws = s.draws := rfl
@[simp] theorem returning_ret (v : Word) (s : State) : (returning v s).ret = some v := rfl

/-! silent -/

@[simp] theorem silent_pt (s : State) : (silent s).pt = s.pt := rfl
@[simp] theorem silent_mr (s : State) : (silent s).mr = s.mr := rfl
@[simp] theorem silent_mw (s : State) : (silent s).mw = s.mw := rfl
@[simp] theorem silent_dma (s : State) : (silent s).dma = s.dma := rfl
@[simp] theorem silent_ims (s : State) : (silent s).ims = s.ims := rfl
@[simp] theorem silent_ist (s : State) : (silent s).ist = s.ist := rfl
@[simp] theorem silent_aiack (s : State) : (silent s).aiack = s.aiack := rfl
@[simp] theorem silent_ch (s : State) : (silent s).ch = s.ch := rfl
@[simp] theorem silent_q (s : State) : (silent s).q = s.q := rfl
@[simp] theorem silent_refusalMark (s : State) : (silent s).refusalMark = s.refusalMark := rfl
@[simp] theorem silent_history (s : State) : (silent s).history = s.history := rfl
@[simp] theorem silent_pos (s : State) : (silent s).pos = s.pos := rfl
@[simp] theorem silent_cfg (s : State) : (silent s).cfg = s.cfg := rfl
@[simp] theorem silent_stream (s : State) : (silent s).stream = s.stream := rfl
@[simp] theorem silent_port (s : State) : (silent s).port = s.port := rfl
@[simp] theorem silent_script (s : State) : (silent s).script = s.script := rfl
@[simp] theorem silent_draws (s : State) : (silent s).draws = s.draws := rfl
@[simp] theorem silent_ret (s : State) : (silent s).ret = none := rfl

/-! mapPages -/

@[simp] theorem mapPages_pt (f l : BitVec 8) (d : DeviceId) (s : State) : (mapPages f l d s).pt = tableFill .unhandled s.pt f.toNat l.toNat d := rfl
@[simp] theorem mapPages_mr (f l : BitVec 8) (d : DeviceId) (s : State) : (mapPages f l d s).mr = s.mr := rfl
@[simp] theorem mapPages_mw (f l : BitVec 8) (d : DeviceId) (s : State) : (mapPages f l d s).mw = s.mw := rfl
@[simp] theorem mapPages_dma (f l : BitVec 8) (d : DeviceId) (s : State) : (mapPages f l d s).dma = s.dma := rfl
@[simp] theorem mapPages_ims (f l : BitVec 8) (d : DeviceId) (s : State) : (mapPages f l d s).ims = s.ims := rfl
@[simp] theorem mapPages_ist (f l : BitVec 8) (d : DeviceId) (s : State) : (mapPages f l d s).ist = s.ist := rfl
@[simp] theorem mapPages_aiack (f l : BitVec 8) (d : DeviceId) (s : State) : (mapPages f l d s).aiack = s.aiack := rfl
@[simp] theorem mapPages_ch (f l : BitVec 8) (d : DeviceId) (s : State) : (mapPages f l d s).ch = s.ch := rfl
@[simp] theorem mapPages_q (f l : BitVec 8) (d : DeviceId) (s : State) : (mapPages f l d s).q = s.q := rfl
@[simp] theorem mapPages_refusalMark (f l : BitVec 8) (d : DeviceId) (s : State) : (mapPages f l d s).refusalMark = s.refusalMark := rfl
@[simp] theorem mapPages_history (f l : BitVec 8) (d : DeviceId) (s : State) : (mapPages f l d s).history = s.history := rfl
@[simp] theorem mapPages_pos (f l : BitVec 8) (d : DeviceId) (s : State) : (mapPages f l d s).pos = s.pos := rfl
@[simp] theorem mapPages_cfg (f l : BitVec 8) (d : DeviceId) (s : State) : (mapPages f l d s).cfg = s.cfg := rfl
@[simp] theorem mapPages_stream (f l : BitVec 8) (d : DeviceId) (s : State) : (mapPages f l d s).stream = s.stream := rfl
@[simp] theorem mapPages_port (f l : BitVec 8) (d : DeviceId) (s : State) : (mapPages f l d s).port = s.port := rfl
@[simp] theorem mapPages_script (f l : BitVec 8) (d : DeviceId) (s : State) : (mapPages f l d s).script = s.script := rfl
@[simp] theorem mapPages_draws (f l : BitVec 8) (d : DeviceId) (s : State) : (mapPages f l d s).draws = s.draws := rfl
@[simp] theorem mapPages_ret (f l : BitVec 8) (d : DeviceId) (s : State) : (mapPages f l d s).ret = s.ret := rfl

/-! fillMasks -/

@[simp] theorem fillMasks_pt (m : MaskFill) (s : State) : (fillMasks m s).pt = s.pt := rfl
@[simp] theorem fillMasks_mr (m : MaskFill) (s : State) : (fillMasks m s).mr = tableFill 0 s.mr (maskPageOf m.start) (maskPageOf m.stop) (if m.r then m.wmask ||| m.start else 0) := rfl
@[simp] theorem fillMasks_mw (m : MaskFill) (s : State) : (fillMasks m s).mw = tableFill 0 s.mw (maskPageOf m.start) (maskPageOf m.stop) (if m.w then m.wmask ||| m.start else 0) := rfl
@[simp] theorem fillMasks_dma (m : MaskFill) (s : State) : (fillMasks m s).dma = s.dma := rfl
@[simp] theorem fillMasks_ims (m : MaskFill) (s : State) : (fillMasks m s).ims = s.ims := rfl
@[simp] theorem fillMasks_ist (m : MaskFill) (s : State) : (fillMasks m s).ist = s.ist := rfl
@[simp] theorem fillMasks_aiack (m : MaskFill) (s : State) : (fillMasks m s).aiack = s.aiack := rfl
@[simp] theorem fillMasks_ch (m : MaskFill) (s : State) : (fillMasks m s).ch = s.ch := rfl
@[simp] theorem fillMasks_q (m : MaskFill) (s : State) : (fillMasks m s).q = s.q := rfl
@[simp] theorem fillMasks_refusalMark (m : MaskFill) (s : State) : (fillMasks m s).refusalMark = s.refusalMark := rfl
@[simp] theorem fillMasks_history (m : MaskFill) (s : State) : (fillMasks m s).history = s.history := rfl
@[simp] theorem fillMasks_pos (m : MaskFill) (s : State) : (fillMasks m s).pos = s.pos := rfl
@[simp] theorem fillMasks_cfg (m : MaskFill) (s : State) : (fillMasks m s).cfg = s.cfg := rfl
@[simp] theorem fillMasks_stream (m : MaskFill) (s : State) : (fillMasks m s).stream = s.stream := rfl
@[simp] theorem fillMasks_port (m : MaskFill) (s : State) : (fillMasks m s).port = s.port := rfl
@[simp] theorem fillMasks_script (m : MaskFill) (s : State) : (fillMasks m s).script = s.script := rfl
@[simp] theorem fillMasks_draws (m : MaskFill) (s : State) : (fillMasks m s).draws = s.draws := rfl
@[simp] theorem fillMasks_ret (m : MaskFill) (s : State) : (fillMasks m s).ret = s.ret := rfl

/-! The channel and register reads. -/

@[simp] theorem chan_modChan_self (s : State) (c : Chan) (f : Channel → Channel) :
    (s.modChan c f).chan c = f (s.chan c) := by
  simp [State.chan]

@[simp] theorem chan_modChan_ne (s : State) {c d : Chan} (h : c ≠ d) (f : Channel → Channel) :
    (s.modChan c f).chan d = s.chan d := by
  simp [State.chan, h]

@[simp] theorem chan_emit (s : State) (e : Event) (c : Chan) : (s.emit e).chan c = s.chan c := rfl

@[simp] theorem chan_modRegs (s : State) (c d : Chan) (f : DmaRegs → DmaRegs) :
    (s.modRegs c f).chan d = s.chan d := rfl

@[simp] theorem regs_modRegs_self (s : State) (c : Chan) (f : DmaRegs → DmaRegs) :
    (s.modRegs c f).regs c = f (s.regs c) := by
  simp [State.regs]

@[simp] theorem regs_modRegs_ne (s : State) {c d : Chan} (h : c ≠ d) (f : DmaRegs → DmaRegs) :
    (s.modRegs c f).regs d = s.regs d := by
  simp [State.regs, h]

@[simp] theorem regs_modChan (s : State) (c d : Chan) (f : Channel → Channel) :
    (s.modChan c f).regs d = s.regs d := rfl

@[simp] theorem regs_emit (s : State) (e : Event) (c : Chan) : (s.emit e).regs c = s.regs c := rfl

@[simp] theorem modChan_modChan (s : State) (c : Chan) (f g : Channel → Channel) :
    (s.modChan c f).modChan c g = s.modChan c fun k => g (f k) := by
  simp [State.modChan]

@[simp] theorem fieldGet_fieldSet_self (f : DmaField) (v : Word) (k : DmaRegs) : fieldGet f (fieldSet f v k) = v := by
  cases f <;> rfl

@[simp] theorem fieldGet_fieldSet_ne {f g : DmaField} (h : f ≠ g) (v : Word) (k : DmaRegs) :
    fieldGet g (fieldSet f v k) = fieldGet g k := by
  cases f <;> cases g <;> first | rfl | exact absurd rfl h

end Sys2Proof.Machine
end

