-- ==== Sys2Proof/Laws/Outcome.lean ====
section
/-! SUPPORT. Running one part of a command after another. -/

namespace Sys2Proof.Machine

@[simp] theorem andThen_next {α β : Type} (a : α) (f : α → Res β) : andThen (.next a) f = f a := rfl

@[simp] theorem andThen_fault {α β : Type} (r : Fault) (f : α → Res β) : andThen (.fault r) f = .fault r := rfl

@[simp] theorem andThen_refused {α β : Type} (r : Refusal) (f : α → Res β) : andThen (.refused r) f = .refused r := rfl

/-- A command in two parts answers a next state only through a next state of the first. -/
theorem andThen_eq_next {α β : Type} {x : Res α} {f : α → Res β} {b : β} (h : andThen x f = .next b) :
    ∃ a, x = .next a ∧ f a = .next b := by
  cases x with
  | next a => exact ⟨a, rfl, h⟩
  | fault r => cases h
  | refused r => cases h

/-- What a finished bus access answers. -/
theorem finishAccess_eq_next {op : BusOp} {x : Res (State × Word)} {t : State}
    (h : finishAccess op x = .next t) :
    ∃ p, x = .next p ∧ ((∃ w, op = .read w ∧ t = returning p.2 p.1) ∨ ((∀ w, op ≠ .read w) ∧ t = silent p.1)) := by
  obtain ⟨p, hp, ht⟩ := andThen_eq_next h
  refine ⟨p, hp, ?_⟩
  cases op with
  | read w => exact .inl ⟨w, rfl, (Host.Outcome.next.inj ht).symm⟩
  | write8 v => exact .inr ⟨fun w => nofun, (Host.Outcome.next.inj ht).symm⟩
  | write16 v => exact .inr ⟨fun w => nofun, (Host.Outcome.next.inj ht).symm⟩
  | write32 v => exact .inr ⟨fun w => nofun, (Host.Outcome.next.inj ht).symm⟩

/-- What a finished command without a value answers. -/
theorem finishSilent_eq_next {x : Res State} {t : State} (h : finishSilent x = .next t) :
    ∃ u, x = .next u ∧ t = silent u := by
  obtain ⟨u, hu, ht⟩ := andThen_eq_next h
  exact ⟨u, hu, (Host.Outcome.next.inj ht).symm⟩

end Sys2Proof.Machine
end

