-- ==== Sys2Proof/Laws/Calls.lean ====
section
/-! SUPPORT. External calls and accesses: what each can answer, and what it answers in a quiet environment. -/

namespace Sys2Proof.Machine

/-! What a call can answer. -/

/-- A read of a collaborator records the call with a clipped answer, then runs what its handler issues. -/
theorem extRead_eq_next {nest : Nest} {who : Collab} {w : Width} {a : Word} {s : State} {p : State × Word}
    (h : extRead nest who w a s = .next p) :
    (s.script = [] ∧ p = (State.emit { s with draws := s.draws + 1 }
        (.extRead who w a (clip w (Config.answer s.draws who w a))), clip w (Config.answer s.draws who w a)))
      ∨ ∃ r rest, s.script = r :: rest ∧ p.2 = clip w r.answer
        ∧ nest r.nested (State.emit { s with script := rest } (.extRead who w a (clip w r.answer))) = .next p.1 := by
  unfold extRead at h
  split at h
  · next r rest hs =>
    obtain ⟨t, ht, hp⟩ := andThen_eq_next h
    cases hp
    exact .inr ⟨r, rest, hs, rfl, ht⟩
  · next hs => exact .inl ⟨hs, (Host.Outcome.next.inj h).symm⟩

/-- A call without an answer is recorded, then what its handler issues runs. -/
theorem extCall_eq_next {nest : Nest} {e : Event} {s t : State} (h : extCall nest e s = .next t) :
    (s.script = [] ∧ t = s.emit e)
      ∨ ∃ r rest, s.script = r :: rest ∧ nest r.nested (State.emit { s with script := rest } e) = .next t := by
  unfold extCall at h
  split at h
  · next r rest hs => exact .inr ⟨r, rest, hs, h⟩
  · next hs => exact .inl ⟨hs, (Host.Outcome.next.inj h).symm⟩

/-- An access of a collaborator is one call: a read, or a write that returns 0. -/
theorem extAccess_eq_next {nest : Nest} {who : Collab} {op : BusOp} {a : Word} {s : State} {p : State × Word}
    (h : extAccess nest who op a s = .next p) :
    (∃ w, op = .read w ∧ extRead nest who w a s = .next p)
      ∨ (p.2 = 0 ∧ extCall nest (.extWrite who (opWidth op) a op.datum) s = .next p.1) := by
  cases op with
  | read w => exact .inl ⟨w, rfl, h⟩
  | write8 v => obtain ⟨t, ht, hp⟩ := andThen_eq_next h; cases hp; exact .inr ⟨rfl, ht⟩
  | write16 v => obtain ⟨t, ht, hp⟩ := andThen_eq_next h; cases hp; exact .inr ⟨rfl, ht⟩
  | write32 v => obtain ⟨t, ht, hp⟩ := andThen_eq_next h; cases hp; exact .inr ⟨rfl, ht⟩

/-- A handler set answers at once, calls one collaborator, or is the controller. -/
theorem callHandler_eq_next {onCtrl : OnCtrl} {nest : Nest} {d : DeviceId} {op : BusOp} {a : Word} {s : State}
    {p : State × Word} (h : callHandler onCtrl nest d op a s = .next p) :
    p = (s, 0) ∨ (∃ who, extAccess nest who op a s = .next p)
      ∨ (d = .combo ∧ selectsCtrl s.cfg a = true ∧ onCtrl op a s = .next p) := by
  unfold callHandler at h
  split at h
  · exact .inl (Host.Outcome.next.inj h).symm
  · split at h
    · next hsel => exact .inr (.inr ⟨rfl, hsel, h⟩)
    · exact .inr (.inl ⟨_, h⟩)
  · exact .inr (.inl ⟨_, h⟩)

/-- Everything an access can do: answer 0 at once, call one collaborator, or reach the controller. -/
theorem access_eq_next {onCtrl : OnCtrl} {nest : Nest} {op : BusOp} {addr : Word} {s : State} {p : State × Word}
    (h : access onCtrl nest op addr s = .next p) :
    p = (s, 0) ∨ (∃ who a, extAccess nest who op a s = .next p)
      ∨ (s.page (pageOf (a29 addr)) = .combo ∧ selectsCtrl s.cfg (a29 addr) = true
          ∧ onCtrl op (a29 addr) s = .next p) := by
  have paged : ∀ d a, callHandler onCtrl nest d op a s = .next p →
      p = (s, 0) ∨ (∃ who a, extAccess nest who op a s = .next p)
        ∨ (d = .combo ∧ selectsCtrl s.cfg a = true ∧ onCtrl op a s = .next p) := fun d a h => by
    rcases callHandler_eq_next h with h | ⟨who, h⟩ | h
    · exact .inl h
    · exact .inr (.inl ⟨who, a, h⟩)
    · exact .inr (.inr h)
  unfold access at h
  split at h
  · exact paged _ _ h
  · exact paged _ _ h
  · exact .inr (.inl ⟨_, _, h⟩)
  · unfold routeAddrArray at h
    split at h
    · exact .inr (.inl ⟨_, _, h⟩)
    · exact .inl (Host.Outcome.next.inj h).symm
  · rcases paged _ _ h with h | h | ⟨h, -⟩
    · exact .inl h
    · exact .inr (.inl h)
    · cases h
  · exact paged _ _ h
  · exact .inr (.inl ⟨_, _, h⟩)
  · exact .inr (.inl ⟨_, _, h⟩)

/-! A quiet environment. -/

/-- No commands at all run to where they started. -/
@[simp] theorem handlersTo_nil (n : Nat) (s : State) : handlersTo n [] s = .next s := by
  cases n <;> rfl

theorem extRead_of_quiet {s : State} (h : s.Quiet) (n : Nat) (who : Collab) (w : Width) (a : Word) :
    extRead (handlersTo n) who w a s = .next (s.called who (.read w) a, s.answerTo who w a) := by
  unfold extRead
  split
  · next r rest hs => simp [h r (by simp [hs]), State.called, State.answerTo, hs, State.emit]
  · next hs => simp [State.called, State.answerTo, hs, State.emit]

theorem extCall_of_quiet {s : State} (h : s.Quiet) (n : Nat) (e : Event) :
    extCall (handlersTo n) e s = .next (State.emit { s with script := s.script.tail } e) := by
  unfold extCall
  split
  · next r rest hs => simp [h r (by simp [hs]), hs]
  · next hs => simp [hs, State.emit]

theorem extAccess_of_quiet {s : State} (h : s.Quiet) (n : Nat) (who : Collab) (op : BusOp) (a : Word) :
    extAccess (handlersTo n) who op a s
      = .next (s.called who op a, match op with | .read w => s.answerTo who w a | _ => 0) := by
  cases op with
  | read w => exact extRead_of_quiet h n who w a
  | write8 v => simp [extAccess, extCall_of_quiet h, State.called, State.emit]
  | write16 v => simp [extAccess, extCall_of_quiet h, State.called, State.emit]
  | write32 v => simp [extAccess, extCall_of_quiet h, State.called, State.emit]

/-! The dispatcher's bit fields are the spec's. -/

theorem zoneOf_eq (addr : Word) : (zoneOf addr).toNat = specZone addr := by
  simp only [zoneOf, specZone, BitVec.extractLsb'_toNat, Nat.shiftRight_eq_div_pow]
  omega

theorem a29_eq (addr : Word) : a29 addr = specA29 addr := by
  apply BitVec.eq_of_toNat_eq
  have h : (0x1FFFFFFF : Word).toNat = 2 ^ 29 - 1 := by decide
  simp only [a29, specA29, BitVec.toNat_and, BitVec.toNat_ofNat]
  rw [h, Nat.and_two_pow_sub_one_eq_mod]
  omega

theorem pageOf_a29_eq (addr : Word) : pageOf (a29 addr) = specPage addr := by
  rw [a29_eq]
  simp only [pageOf, specA29, specPage, BitVec.extractLsb'_toNat, BitVec.toNat_ofNat, Nat.shiftRight_eq_div_pow]
  omega

theorem onChipSub_eq (addr : Word) : onChipSub addr = BitVec.ofNat 32 (addr.toNat % 512) := by
  apply BitVec.eq_of_toNat_eq
  have h : (0x1FF : Word).toNat = 2 ^ 9 - 1 := by decide
  simp only [onChipSub, BitVec.toNat_and, BitVec.toNat_ofNat]
  rw [h, Nat.and_two_pow_sub_one_eq_mod]
  omega

/-- An access that does not reach the controller, in a quiet environment, does what the zone table says. -/
theorem access_of_quiet {s : State} (h : s.Quiet) (onCtrl : OnCtrl) (n : Nat) (op : BusOp) (addr : Word)
    (hc : s.reachesCtrl addr = false) :
    access onCtrl (handlersTo n) op addr s = .next (s.accessed op addr, s.valueAt op addr) := by
  have paged (hp : specPaged addr = true) :
      routePage onCtrl (handlersTo n) op addr s = .next (s.accessed op addr, s.valueAt op addr) := by
    unfold routePage State.accessed State.valueAt State.target
    simp only [hp, if_true, pageOf_a29_eq]
    unfold callHandler
    cases hd : s.page (specPage addr) with
    | unhandled => cases op <;> rfl
    | combo =>
      have hsel : selectsCtrl s.cfg (specA29 addr) = false := by
        simpa [State.reachesCtrl, hp, hd, selectsCtrl] using hc
      simp only [a29_eq, hsel, extAccess_of_quiet h]
      cases op <;> rfl
    | ext d => simp only [extAccess_of_quiet h, a29_eq]; cases op <;> rfl
  have hlt : specZone addr < 8 := by
    unfold specZone; have := addr.isLt; omega
  unfold access
  rw [zoneOf_eq]
  obtain hz | hz | hz | hz | hz | hz | hz | hz : specZone addr = 0 ∨ specZone addr = 1 ∨ specZone addr = 2
      ∨ specZone addr = 3 ∨ specZone addr = 4 ∨ specZone addr = 5 ∨ specZone addr = 6 ∨ specZone addr = 7 := by omega
  · simpa only [hz] using paged (by simp [specPaged, hz])
  · simpa only [hz] using paged (by simp [specPaged, hz])
  · simp only [hz, routeDataArray, extAccess_of_quiet h, State.accessed, State.valueAt, State.target, specPaged]
    cases op <;> rfl
  · simp only [hz, routeAddrArray, State.accessed, State.valueAt, State.target, specPaged]
    cases op <;> first | rfl | exact extAccess_of_quiet h n _ _ _
  · simp only [hz, routeUnhandled, callHandler, State.accessed, State.valueAt, State.target, specPaged]
    cases op <;> rfl
  · simpa only [hz] using paged (by simp [specPaged, hz])
  · simp only [hz, routeDataArray, extAccess_of_quiet h, State.accessed, State.valueAt, State.target, specPaged]
    cases op <;> rfl
  · simp only [hz, routeOnChip, onChipSub_eq, extAccess_of_quiet h, State.accessed, State.valueAt, State.target,
      specPaged]
    cases op <;> rfl

/-- An access that reaches the controller does what its caller says it does there. -/
theorem access_of_reachesCtrl {s : State} (onCtrl : OnCtrl) (nest : Nest) (op : BusOp) (addr : Word)
    (hc : s.reachesCtrl addr = true) : access onCtrl nest op addr s = onCtrl op (specA29 addr) s := by
  simp only [State.reachesCtrl, Bool.and_eq_true, beq_iff_eq] at hc
  obtain ⟨⟨hp, hd⟩, hsel⟩ := hc
  have paged : routePage onCtrl nest op addr s = onCtrl op (specA29 addr) s := by
    unfold routePage callHandler
    rw [pageOf_a29_eq, hd, a29_eq]
    simp [selectsCtrl, hsel]
  unfold access
  rw [zoneOf_eq]
  simp only [specPaged, Bool.or_eq_true, beq_iff_eq] at hp
  rcases hp with (hz | hz) | hz <;> simpa only [hz] using paged

end Sys2Proof.Machine
end

