-- ==== Sys2Proof/Laws/Engine.lean ====
section
/-! SUPPORT. What the DMA engine's control can do, each said once: going on while a channel is active, running a number
of units, and running them without a bound. -/

namespace Sys2Proof.Machine

variable {nest : Nest} {c : Chan} {s t : State}

/-! Going on while the channel is active. -/

@[simp] theorem whileActive_of_active (f : State → Res State) (h : (s.chan c).active = true) :
    whileActive c f s = f s := by
  simp [whileActive, h]

@[simp] theorem whileActive_of_idle (f : State → Res State) (h : (s.chan c).active = false) :
    whileActive c f s = .next s := by
  simp [whileActive, h]

/-- Either the channel is active and the transfer goes on, or nothing happens. -/
theorem whileActive_eq_next {f : State → Res State} (h : whileActive c f s = .next t) :
    ((s.chan c).active = true ∧ f s = .next t) ∨ ((s.chan c).active = false ∧ t = s) := by
  unfold whileActive at h
  split at h
  · next ha => exact .inl ⟨ha, h⟩
  · next ha => exact .inr ⟨by simpa using ha, (Host.Outcome.next.inj h).symm⟩

/-! A number of units. -/

@[simp] theorem ticks_zero : ticks nest c 0 s = .next s := rfl

/-- One more unit of an active channel, at the front. -/
theorem ticks_succ_of_active (n : Nat) (h : (s.chan c).active = true) :
    ticks nest c (n + 1) s = andThen (tick nest c s) (ticks nest c n) := by
  simp [ticks, h]

@[simp] theorem ticks_of_idle (n : Nat) (h : (s.chan c).active = false) : ticks nest c n s = .next s := by
  cases n <;> simp [ticks, h]

/-- Running some units and then some more. -/
theorem ticks_add (m n : Nat) (s : State) : ticks nest c (m + n) s = andThen (ticks nest c m s) (ticks nest c n) := by
  induction m generalizing s with
  | zero => simp
  | succ m ih =>
    cases h : (s.chan c).active with
    | false => simp [h]
    | true =>
      rw [Nat.succ_add, ticks_succ_of_active _ h, ticks_succ_of_active _ h]
      cases tick nest c s with
      | next u => exact ih u
      | fault r => rfl
      | refused r => rfl

/-! Units without a bound. -/

theorem drainLoop_of_active (h : (s.chan c).active = true) :
    drainLoop nest c s = match tick nest c s with
      | .next u => drainLoop nest c u
      | .fault r => some (.fault r)
      | .refused r => some (.refused r) :=
  (drainLoop.eq_1 nest c s).trans ((if_pos h).trans (by cases tick nest c s <;> rfl))

@[simp] theorem drainLoop_of_idle (h : (s.chan c).active = false) : drainLoop nest c s = some (.next s) := by
  rw [drainLoop, if_neg (by simp [h])]

/-- A drain goes on from where a number of units leaves it, and stops where they stop. -/
theorem drainLoop_of_ticks (n : Nat) (s : State) :
    drainLoop nest c s = match ticks nest c n s with
      | .next u => drainLoop nest c u
      | .fault r => some (.fault r)
      | .refused r => some (.refused r) := by
  induction n generalizing s with
  | zero => rfl
  | succ n ih =>
    cases h : (s.chan c).active with
    | false => simp [h]
    | true =>
      rw [ticks_succ_of_active n h, drainLoop_of_active h]
      cases tick nest c s with
      | next u => exact ih u
      | fault r => rfl
      | refused r => rfl

/-- A drain that has a result has the one of some number of units, and its channel is idle if that is a state. -/
theorem drainLoop_eq_some {r : Res State} (h : drainLoop nest c s = some r) :
    ∃ n, ticks nest c n s = r ∧ ∀ t, r = .next t → (t.chan c).active = false := by
  refine drainLoop.partial_correctness nest c
    (fun s r => ∃ n, ticks nest c n s = r ∧ ∀ t, r = .next t → (t.chan c).active = false) ?_ s r h
  intro loop ih s r hr
  split at hr
  · next ha =>
    have one : ticks nest c 1 s = tick nest c s := by
      rw [ticks_succ_of_active 0 ha]; cases tick nest c s <;> rfl
    split at hr
    · next u hk =>
      obtain ⟨n, hn, hi⟩ := ih u r hr
      exact ⟨n + 1, by rw [ticks_succ_of_active n ha, hk]; exact hn, hi⟩
    · next hk => cases hr; exact ⟨1, one.trans hk, fun t ht => nomatch ht⟩
    · next hk => cases hr; exact ⟨1, one.trans hk, fun t ht => nomatch ht⟩
  · next ha =>
    cases hr
    exact ⟨0, rfl, fun t ht => by cases ht; simpa using ha⟩

/-- The step without a bound is the loop's result, or the hang where it has none. -/
theorem drainChannel_eq (nest : Nest) (c : Chan) (s : State) :
    drainChannel nest c s = (drainLoop nest c s).getD (.fault .dmaHang) := by
  rw [drainLoop_of_ticks drainUnrolled s]
  unfold drainChannel
  cases ticks nest c drainUnrolled s with
  | next u =>
    cases h : (u.chan c).active with
    | false => simp [h]
    | true => simp [h]
  | fault r => rfl
  | refused r => rfl

/-- A drain that answers a state answers the one that some number of units leaves, with the channel idle. -/
theorem drainChannel_eq_next (h : drainChannel nest c s = .next t) :
    ∃ n, ticks nest c n s = .next t ∧ (t.chan c).active = false := by
  rw [drainChannel_eq] at h
  cases hl : drainLoop nest c s with
  | none => simp [hl] at h
  | some r =>
    rw [hl] at h
    obtain ⟨n, hn, hi⟩ := drainLoop_eq_some hl
    exact ⟨n, hn.trans h, hi t h⟩

end Sys2Proof.Machine
end

