-- ==== Sys2Proof/Laws/Kept.lean ====
section
/-! SUPPORT. The one induction over the model. A relation between states that is reflexive and transitive and that the
primitive updates keep relates the state before an instruction to the state after it: `EngineKept` for what accesses,
calls and the DMA engine do, `CtrlKept` with the controller registers, `Kept` for every command and every nested one. -/

namespace Sys2Proof.Machine

/-- A command that changes a table, the queue or the reset state by its own effect. -/
def configures : Instr → Bool
  | .map _ _ _ | .init | .mfill _ _ _ _ _ | .raise _ _ _ _ | .remove _ _ _ | .rmstat _ _ | .reset => true
  | _ => false

/-- A relation that what an access or the DMA engine does keeps. The engine changes a channel only in a way that leaves
an idle one all zero (10_state.md R27). -/
structure EngineKept (R : State → State → Prop) (nest : Nest) : Prop where
  refl : ∀ s, R s s
  trans : ∀ {s t u}, R s t → R t u → R s u
  ret : ∀ s o, R s { s with ret := o }
  draws : ∀ s n, R s { s with draws := n }
  note : ∀ s e, e.isInterrupt = false → R s (s.emit e)
  call : ∀ s r rest e t, s.script = r :: rest → e.isInterrupt = false
    → nest r.nested (State.emit { s with script := rest } e) = .next t → R s t
  modChan : ∀ (s : State) c f, (ChannelOk (s.chan c) → ChannelOk (f (s.chan c))) → R s (s.modChan c f)
  modRegs : ∀ s c f, R s (s.modRegs c f)
  raiseEnd : ∀ s c, R s (raiseIrq (s.cfg.dmaEnd.get c) s)

/-- A relation that, beside them, the controller registers' own effects keep. -/
structure CtrlKept (R : State → State → Prop) (nest : Nest) : Prop extends EngineKept R nest where
  ims : ∀ s v, R s (retestQueue { s with ims := v })
  ist : ∀ s v, R s (removeByStatus s.ist (s.ist &&& v) { s with ist := s.ist &&& v })
  ack : ∀ s, R s (retestQueue { s with aiack := true })
  noAck : ∀ s, R s { s with aiack := false }

/-- A relation that each primitive update of the model keeps. -/
structure Kept (R : State → State → Prop) : Prop where
  refl : ∀ s, R s s
  trans : ∀ {s t u}, R s t → R t u → R s u
  ret : ∀ s o, R s { s with ret := o }
  draws : ∀ s n, R s { s with draws := n }
  script : ∀ s rest, rest <:+ s.script → R s { s with script := rest }
  emit : ∀ s e, R s (s.emit e)
  modChan : ∀ (s : State) c f, (ChannelOk (s.chan c) → ChannelOk (f (s.chan c))) → R s (s.modChan c f)
  modRegs : ∀ s c f, R s (s.modRegs c f)
  ims : ∀ s v, R s { s with ims := v }
  ist : ∀ s v, R s { s with ist := v }
  aiack : ∀ s b, R s { s with aiack := b }
  enqueue : ∀ r s, R s (enqueue r s)
  dequeue : ∀ s q, List.Sublist q s.q → R s { s with q := q }
  mapPages : ∀ f l d s, R s (mapPages f l d s)
  clearPages : ∀ s, R s { s with pt := [] }
  fillMasks : ∀ m s, R s (fillMasks m s)
  resetBlock : ∀ s, R s (resetBlock s)

/-- The commands a handler issues keep the relation. -/
abbrev KeptNest (R : State → State → Prop) (nest : Nest) : Prop := ∀ is s t, nest is s = .next t → R s t

variable {R : State → State → Prop} {nest : Nest} {s t : State} {p : State × Word}

namespace EngineKept

/-! External calls and accesses. -/

theorem extRead (K : EngineKept R nest) {who : Collab} {w : Width} {a : Word}
    (h : extRead nest who w a s = .next p) : R s p.1 := by
  rcases extRead_eq_next h with ⟨-, rfl⟩ | ⟨r, rest, hs, -, ht⟩
  · exact K.trans (K.draws s _) (K.note _ _ rfl)
  · exact K.call s r rest _ _ hs rfl ht

theorem extCall (K : EngineKept R nest) {e : Event} (he : e.isInterrupt = false) (h : extCall nest e s = .next t) : R s t := by
  rcases extCall_eq_next h with ⟨-, rfl⟩ | ⟨r, rest, hs, ht⟩
  · exact K.note _ _ he
  · exact K.call s r rest _ _ hs he ht

theorem extAccess (K : EngineKept R nest) {who : Collab} {op : BusOp} {a : Word}
    (h : extAccess nest who op a s = .next p) : R s p.1 := by
  rcases extAccess_eq_next h with ⟨w, -, h⟩ | ⟨-, h⟩
  · exact K.extRead h
  · exact K.extCall rfl h

theorem access (K : EngineKept R nest) {onCtrl : OnCtrl}
    (hc : ∀ op a s p, onCtrl op a s = .next p → R s p.1) {op : BusOp} {addr : Word}
    (h : access onCtrl nest op addr s = .next p) : R s p.1 := by
  rcases access_eq_next h with rfl | ⟨who, a, h⟩ | ⟨-, -, h⟩
  · exact K.refl s
  · exact K.extAccess h
  · exact hc _ _ _ _ h

/-! The DMA engine. -/

theorem dmaRead (K : EngineKept R nest) {w : Width} {a : Word}
    (h : dmaRead nest w a s = .next p) : R s p.1 :=
  K.access (fun _ _ _ _ h => by cases h) h

theorem dmaWrite (K : EngineKept R nest) {op : BusOp} {a : Word}
    (h : dmaWrite nest op a s = .next t) : R s t := by
  obtain ⟨p, hp, ht⟩ := andThen_eq_next h
  cases ht
  exact K.access (fun _ _ _ _ h => by cases h) hp

/-- A change of an active channel that leaves it active. -/
theorem modActive (K : EngineKept R nest) {c : Chan} {f : Channel → Channel} (ha : (s.chan c).active = true)
    (hf : (f (s.chan c)).active = (s.chan c).active) : R s (s.modChan c f) :=
  K.modChan _ _ _ fun _ h => by rw [hf, ha] at h; cases h

/-- What an active channel's transfer does next, or nothing. -/
theorem whileActive (K : EngineKept R nest) {c : Chan} {f : State → Res State}
    (h : whileActive c f s = .next t) (hf : (s.chan c).active = true → f s = .next t → R s t) : R s t := by
  rcases whileActive_eq_next h with ⟨ha, h⟩ | ⟨-, rfl⟩
  · exact hf ha h
  · exact K.refl _

/-- The last change of a unit or of a load, if the channel is still active. -/
theorem whileActiveMod (K : EngineKept R nest) {c : Chan} {f : Channel → Channel}
    (h : Machine.whileActive c (fun u => .next (u.modChan c f)) s = .next t)
    (hf : ∀ k, (f k).active = k.active) : R s t :=
  K.whileActive h fun ha h => by cases h; exact K.modActive ha (hf _)

theorem loadDescriptor (K : EngineKept R nest) {c : Chan}
    (h : loadDescriptor nest c s = .next t) : R s t := by
  obtain ⟨p, hp, h⟩ := andThen_eq_next h
  refine K.trans (K.dmaRead hp) (K.whileActive h fun _ h => ?_)
  obtain ⟨q, hq, h⟩ := andThen_eq_next h
  refine K.trans (K.dmaRead hq) (K.whileActive h fun _ h => ?_)
  obtain ⟨r, hr, h⟩ := andThen_eq_next h
  exact K.trans (K.dmaRead hr) (K.whileActive h fun ha h => by cases h; exact K.modActive ha rfl)

theorem closeSegment (K : EngineKept R nest) (c : Chan) (s : State) : R s (closeSegment c s) := by
  have zero : ∀ k : Channel, ChannelOk k → ChannelOk { k with seg := k.wa, segw := false } := by
    intro k hk ha
    cases hk ha
    rfl
  unfold Machine.closeSegment
  dsimp only
  split
  · exact K.trans (K.note _ _ rfl) (K.modChan _ _ _ (zero _))
  · exact K.modChan _ _ _ (zero _)

theorem writeBack (K : EngineKept R nest) (c : Chan) (s : State) : R s (writeBack c s) := by
  unfold Machine.writeBack
  dsimp only
  split
  · exact K.refl s
  · split <;> split <;> first | exact K.refl s | exact K.modRegs _ _ _ | exact K.trans (K.modRegs _ _ _) (K.modRegs _ _ _)

theorem complete (K : EngineKept R nest) (c : Chan) (s : State) : R s (complete c s) :=
  K.trans (K.trans (K.writeBack c s) (K.modChan _ _ _ fun _ _ => rfl)) (K.raiseEnd _ _)

theorem endBurst (K : EngineKept R nest) {c : Chan} (ha : (s.chan c).active = true)
    (h : endBurst nest c s = .next t) : R s t := by
  have hc : ((Machine.closeSegment c s).chan c).active = true := by
    rw [← ha]
    unfold Machine.closeSegment
    dsimp only
    split <;> simp
  unfold Machine.endBurst at h
  dsimp only at h
  split at h
  · exact K.trans (K.trans (K.closeSegment c s) (K.modActive hc rfl)) (K.loadDescriptor h)
  · cases h
    exact K.trans (K.closeSegment c s) (K.complete c _)

theorem copyUnit (K : EngineKept R nest) {c : Chan} (h : copyUnit nest c s = .next t) : R s t := by
  unfold Machine.copyUnit at h
  dsimp only at h
  split at h <;>
  · obtain ⟨p, hp, h⟩ := andThen_eq_next h
    obtain ⟨u, hu, h⟩ := andThen_eq_next h
    exact K.trans (K.trans (K.dmaRead hp) (K.whileActive hu fun _ h => K.dmaWrite h)) (K.whileActiveMod h fun _ => rfl)

theorem readFill (K : EngineKept R nest) {c : Chan} (h : readFill nest c s = .next t) : R s t := by
  unfold Machine.readFill at h
  dsimp only at h
  split at h
  · cases h; exact K.refl _
  · obtain ⟨p, hp, h⟩ := andThen_eq_next h
    exact K.trans (K.dmaRead hp) (K.whileActiveMod h fun _ => rfl)

theorem fillNarrowUnit (K : EngineKept R nest) {c : Chan} (h : fillNarrowUnit nest c s = .next t) :
    R s t := by
  obtain ⟨u, hu, h⟩ := andThen_eq_next h
  refine K.trans ?_ (K.whileActiveMod h fun _ => rfl)
  split at hu
  · exact K.dmaWrite hu
  · obtain ⟨v, hv, hu⟩ := andThen_eq_next hu
    exact K.trans (K.readFill hv) (K.whileActive hu fun _ h => K.dmaWrite h)

theorem fillWideUnit (K : EngineKept R nest) {c : Chan} (h : fillWideUnit nest c s = .next t) :
    R s t := by
  obtain ⟨u, hu, h⟩ := andThen_eq_next h
  obtain ⟨v, hv, h⟩ := andThen_eq_next h
  exact K.trans (K.trans (K.readFill hu) (K.whileActive hv fun _ h => K.dmaWrite h)) (K.whileActiveMod h fun _ => rfl)

theorem unit (K : EngineKept R nest) {c : Chan} (h : unit nest c s = .next t) : R s t := by
  unfold Machine.unit at h
  dsimp only at h
  split at h
  · exact K.copyUnit h
  · split at h
    · exact K.fillNarrowUnit h
    · exact K.fillWideUnit h

theorem tick (K : EngineKept R nest) {c : Chan} (h : tick nest c s = .next t) : R s t := by
  obtain ⟨u, hu, h⟩ := andThen_eq_next h
  refine K.trans (K.unit hu) (K.whileActive h fun ha h => ?_)
  split at h
  · exact K.endBurst ha h
  · cases h; exact K.refl _

theorem ticks (K : EngineKept R nest) {c : Chan} {n : Nat} (h : ticks nest c n s = .next t) : R s t := by
  induction n generalizing s with
  | zero => cases h; exact K.refl _
  | succ n ih =>
    simp only [Machine.ticks] at h
    split at h
    · obtain ⟨u, hu, h⟩ := andThen_eq_next h
      exact K.trans (K.tick hu) (ih h)
    · cases h; exact K.refl _

theorem stepChannel (K : EngineKept R nest) {c : Chan} {n : Nat}
    (h : stepChannel nest c n s = .next t) : R s t := by
  obtain ⟨u, hu, h⟩ := andThen_eq_next h
  cases h
  split
  · exact K.trans (K.ticks hu) (K.closeSegment _ _)
  · exact K.ticks hu

theorem drainChannel (K : EngineKept R nest) {c : Chan} (h : drainChannel nest c s = .next t) :
    R s t := by
  obtain ⟨n, hn, -⟩ := drainChannel_eq_next h
  exact K.ticks hn

theorem latch (K : EngineKept R nest) {c : Chan} (h : latch nest c s = .next t) : R s t := by
  have arms : R s (s.modChan c (latchMode (s.regs c))) := K.modChan _ _ _ fun _ ha => by cases ha
  unfold Machine.latch at h
  dsimp only at h
  split at h
  · exact K.trans (K.trans arms (K.modActive (by simp [latchMode]) rfl)) (K.loadDescriptor h)
  · cases h; exact K.trans arms (K.modActive (by simp [latchMode]) rfl)

theorem arm (K : EngineKept R nest) {c : Chan} (h : arm nest c s = .next t) : R s t := by
  obtain ⟨u, hu, h⟩ := andThen_eq_next h
  split at hu
  · exact K.trans (K.drainChannel hu) (K.latch h)
  · cases hu; exact K.latch h

/-! Finishing a command. -/

theorem finishAccess (K : EngineKept R nest) {op : BusOp} {x : Res (State × Word)}
    (hx : ∀ p, x = .next p → R s p.1) (h : finishAccess op x = .next t) : R s t := by
  obtain ⟨p, hp, ⟨w, -, rfl⟩ | ⟨-, rfl⟩⟩ := finishAccess_eq_next h
  · exact K.trans (hx p hp) (K.ret _ _)
  · exact K.trans (hx p hp) (K.ret _ _)

theorem finishSilent (K : EngineKept R nest) {x : Res State} (hx : ∀ u, x = .next u → R s u)
    (h : finishSilent x = .next t) : R s t := by
  obtain ⟨u, hu, rfl⟩ := finishSilent_eq_next h
  exact K.trans (hx u hu) (K.ret _ _)

theorem execWith (K : EngineKept R nest) {ticks : Word} (h : execWith nest ticks s = .next t) : R s t := by
  refine K.finishSilent (fun u hu => ?_) h
  obtain ⟨s0, h0, hu⟩ := andThen_eq_next hu
  obtain ⟨s1, h1, hu⟩ := andThen_eq_next hu
  obtain ⟨s2, h2, hu⟩ := andThen_eq_next hu
  exact K.trans (K.trans (K.stepChannel h0) (K.stepChannel h1)) (K.trans (K.stepChannel h2) (K.extCall rfl hu))

theorem drainWith (K : EngineKept R nest) (h : drainWith nest s = .next t) : R s t := by
  refine K.finishSilent (fun u hu => ?_) h
  obtain ⟨s0, h0, hu⟩ := andThen_eq_next hu
  obtain ⟨s1, h1, hu⟩ := andThen_eq_next hu
  exact K.trans (K.trans (K.drainChannel h0) (K.drainChannel h1)) (K.drainChannel hu)

end EngineKept

namespace CtrlKept

/-! The controller registers. -/

theorem drawRead (K : CtrlKept R nest) {w : Width} (h : drawRead w s = .next p) : R s p.1 := by
  cases h; exact K.draws s _

theorem dmaRegister (K : CtrlKept R nest) {c : Chan} {f : DmaField} {op : RegOp} (h : dmaRegister c f op s = .next p) :
    R s p.1 := by
  cases op with
  | read => cases h; exact K.refl _
  | write v => cases h; exact K.modRegs _ _ _

theorem enableRegister (K : CtrlKept R nest) {c : Chan} {op : RegOp}
    (h : enableRegister nest c op s = .next p) : R s p.1 := by
  cases op with
  | read => cases h; exact K.refl _
  | write v =>
    obtain ⟨u, hu, h⟩ := andThen_eq_next h
    cases h
    unfold writeEnable at hu
    dsimp only at hu
    split at hu
    · exact K.trans (K.modRegs _ _ _) (K.arm hu)
    · cases hu
    · cases hu; exact K.modRegs _ _ _

theorem dstpRegister (K : CtrlKept R nest) {op : RegOp} (h : dstpRegister op s = .next p) : R s p.1 := by
  cases op with
  | read => exact K.drawRead h
  | write v =>
    simp only [Machine.dstpRegister] at h
    split at h
    · cases h
    · cases h; exact K.refl _

theorem dstaRegister (K : CtrlKept R nest) {op : RegOp} (h : dstaRegister op s = .next p) : R s p.1 := by
  cases op with
  | read => exact K.drawRead h
  | write v => cases h; exact K.refl _

theorem reservedRegister (K : CtrlKept R nest) {op : RegOp} (h : reservedRegister op s = .next p) : R s p.1 := by
  cases op with
  | read => exact K.drawRead h
  | write v => cases h; exact K.refl _

theorem imsRegister (K : CtrlKept R nest) {op : RegOp} (h : imsRegister op s = .next p) : R s p.1 := by
  cases op with
  | read => cases h; exact K.refl _
  | write v => cases h; exact K.ims s _

theorem istRegister (K : CtrlKept R nest) {op : RegOp} (h : istRegister op s = .next p) : R s p.1 := by
  cases op with
  | read => cases h; exact K.refl _
  | write v => cases h; exact K.ist s _

theorem aiackRegister (K : CtrlKept R nest) {op : RegOp} (h : aiackRegister op s = .next p) : R s p.1 := by
  cases op with
  | read => cases h; exact K.refl _
  | write v =>
    cases h
    dsimp only
    cases v.getLsbD 0
    · exact K.noAck s
    · exact K.ack s

theorem forwardedRegister (K : CtrlKept R nest) {off : BitVec 8} {op : RegOp}
    (h : forwardedRegister nest off op s = .next p) : R s p.1 := K.extAccess h

theorem registerAccess (K : CtrlKept R nest) {off : BitVec 8} {op : RegOp}
    (h : registerAccess nest off op s = .next p) : R s p.1 := by
  unfold Machine.registerAccess at h
  split at h
  · exact K.enableRegister h
  · exact K.dmaRegister h
  · exact K.dstpRegister h
  · exact K.dstaRegister h
  · exact K.imsRegister h
  · exact K.istRegister h
  · exact K.aiackRegister h
  · exact K.forwardedRegister h
  · exact K.reservedRegister h

theorem ctrlAccess (K : CtrlKept R nest) {op : BusOp} {a : Word}
    (h : ctrlAccess nest op a s = .next p) : R s p.1 := by
  unfold Machine.ctrlAccess at h
  split at h
  · split at h
    · exact K.registerAccess h
    · exact K.drawRead h
  · exact K.drawRead h
  · split at h
    · exact K.registerAccess h
    · cases h
  · cases h
  · cases h

/-! Instructions. -/

theorem busAccess (K : CtrlKept R nest) {op : BusOp} {addr : Word}
    (h : busAccess nest op addr s = .next p) : R s p.1 :=
  K.access (fun _ _ _ _ h => K.ctrlAccess h) h

theorem portAccess (K : CtrlKept R nest) {off m : BitVec 8} {op : RegOp}
    (h : portAccess nest off m op s = .next t) : R s t :=
  K.finishAccess (fun _ hp => K.busAccess hp) h

theorem routePage (K : CtrlKept R nest) {op : BusOp} {addr : Word}
    (h : routePage (Machine.ctrlAccess nest) nest op addr s = .next p) : R s p.1 := by
  rcases callHandler_eq_next h with rfl | ⟨who, h⟩ | ⟨-, -, h⟩
  · exact K.refl s
  · exact K.extAccess h
  · exact K.ctrlAccess h

/-- A bus access, a register row, MLKR, MLKW, EXEC or DRAIN keeps the relation. -/
theorem instrWith (K : CtrlKept R nest) {i : Instr} (hi : configures i = false)
    (hr : i ≠ .retest) (h : instrWith nest i s = .next t) : R s t := by
  have bus : ∀ {op a}, Machine.finishAccess op (Machine.busAccess nest op a s) = .next t → R s t := fun h =>
    K.finishAccess (fun _ hp => K.busAccess hp) h
  have page : ∀ {op a}, Machine.finishAccess op (Machine.routePage (Machine.ctrlAccess nest) nest op a s) = .next t →
      R s t := fun h => K.finishAccess (fun _ hp => K.routePage hp) h
  have ext : ∀ {op who a}, Machine.finishAccess op (Machine.extAccess nest who op a s) = .next t → R s t :=
    fun h => K.finishAccess (fun _ hp => K.extAccess hp) h
  cases i with
  | rd8 | rd16 | rd32 | wr8 | wr16 | wr32 => exact bus h
  | map | init | mfill | raise | remove | rmstat | reset => cases hi
  | mlkr => cases h; exact K.ret _ _
  | mlkw => cases h; exact K.ret _ _
  | exec ticks => exact K.execWith h
  | drain => exact K.drainWith h
  | retest => exact absurd rfl hr
  | zone0PageTable | zone1PageTable | zone5PageTable => exact page h
  | zone2DataArray | zone6DataArray | zone7Onchip => exact ext h
  | zone3AddressArray a op =>
    refine K.finishAccess (fun p hp => ?_) h
    unfold routeAddrArray at hp
    split at hp
    · exact K.extAccess hp
    · cases hp; exact K.refl s
  | zone4Unhandled a op =>
    simp only [Machine.instrWith, zone4UnhandledWith] at h
    refine K.finishAccess (fun p hp => ?_) h
    cases hp; exact K.refl _
  | d0r | d0w | d0c | d0ad | d0en | d0md | d1r | d1w | d1c | d1ad | d1en | d1md | d2r | d2w | d2c | d2ad | d2en | d2md
  | dstp | dsta | ppaf | ppd | pda | pdd | t0c | t1s | t1md | ims | ist | aiack | asr0 | asr1 | aref | rsel | ver
  | reservedOffset => exact K.portAccess h

end CtrlKept

namespace Kept

/-! The queue. -/

theorem deliverNow (K : Kept R) (v : BitVec 8) (l : BitVec 4) (s : State) : R s (deliverNow v l s) := by
  unfold Machine.deliverNow
  split
  · exact K.trans (K.emit _ _) (K.emit _ _)
  · exact K.emit _ _

theorem holdBack (K : Kept R) (r : IrqRecord) (s : State) : R s (holdBack r s) :=
  K.trans (K.enqueue r s) (K.ist _ _)

theorem raiseIrq (K : Kept R) (r : IrqRecord) (s : State) : R s (raiseIrq r s) := by
  unfold Machine.raiseIrq
  split
  · split
    · dsimp only
      split
      · exact K.trans (K.aiack s false) (K.deliverNow _ _ _)
      · exact K.trans (K.aiack s false) (K.holdBack _ _)
    · exact K.holdBack _ _
  · split
    · exact K.deliverNow _ _ _
    · exact K.holdBack _ _

/-- Taking out the last element that passes a test leaves a sublist. -/
theorem takeLast_sublist {α : Type} {f : α → Bool} {l rest : List α} {x : α} (h : takeLast f l = some (x, rest)) :
    rest.Sublist l := by
  induction l generalizing rest x with
  | nil => cases h
  | cons y ys ih =>
    simp only [takeLast] at h
    split at h
    · next z r hz => cases h; exact (ih hz).cons_cons y
    · split at h
      · cases h; exact List.sublist_cons_self _ _
      · cases h

theorem retestPasses (K : Kept R) (n : Nat) (s : State) : R s (retestPasses n s) := by
  induction n generalizing s with
  | zero => exact K.refl s
  | succ n ih =>
    simp only [Machine.retestPasses]
    split
    · exact K.refl s
    · next r rest hr =>
      refine K.trans ?_ (ih _)
      exact K.trans (K.dequeue s rest (takeLast_sublist hr)) (K.trans (K.ist _ _) (K.emit _ _))

theorem retestQueue (K : Kept R) (s : State) : R s (retestQueue s) := by
  unfold Machine.retestQueue
  split <;> exact K.retestPasses _ _

theorem removeByStatus (K : Kept R) (b a : BitVec 32) (s : State) : R s (removeByStatus b a s) := by
  unfold Machine.removeByStatus
  dsimp only
  generalize List.foldl _ s.ist _ = ist
  exact K.trans (K.ist s ist) (K.dequeue { s with ist := ist } _ List.filter_sublist)

theorem removeVector (K : Kept R) (v : BitVec 8) (b : BitVec 32) (s : State) : R s (removeVector v b s) := by
  unfold Machine.removeVector
  generalize statusClear s.ist b = ist
  exact K.trans (K.ist s ist) (K.dequeue { s with ist := ist } _ List.filter_sublist)

/-! Every command. -/

/-- A relation that every primitive update keeps is one that the engine and the controller keep. -/
theorem toCtrl (K : Kept R) (hn : KeptNest R nest) : CtrlKept R nest where
  refl := K.refl
  trans := K.trans
  ret := K.ret
  draws := K.draws
  note s e _ := K.emit s e
  call s r rest _ _ hs _ ht :=
    K.trans (K.trans (K.script s rest (hs ▸ List.suffix_cons r rest)) (K.emit _ _)) (hn _ _ _ ht)
  modChan := K.modChan
  modRegs := K.modRegs
  raiseEnd s _ := K.raiseIrq _ s
  ims s v := K.trans (K.ims s v) (K.retestQueue _)
  ist s _ := K.trans (K.ist s _) (K.removeByStatus _ _ _)
  ack s := K.trans (K.aiack s true) (K.retestQueue _)
  noAck s := K.aiack s false

theorem initTables (K : Kept R) (s : State) : R s (initTables s) := by
  unfold Machine.initTables
  dsimp only
  have pages : ∀ (l : List PageRow) (u : State),
      R u (l.foldl (fun t e => Machine.mapPages e.first e.last e.dev t) u) := by
    intro l
    induction l with
    | nil => exact K.refl
    | cons e l ih => intro u; exact K.trans (K.mapPages _ _ _ _) (ih _)
  have fills : ∀ (l : List MaskFill) (u : State), R u (l.foldl (fun t m => Machine.fillMasks m t) u) := by
    intro l
    induction l with
    | nil => exact K.refl
    | cons e l ih => intro u; exact K.trans (K.fillMasks _ _) (ih _)
  exact K.trans (K.trans (K.clearPages s) (pages _ _)) (fills _ _)

/-- Every instruction keeps the relation if the commands that handlers issue do. -/
theorem instrWith (K : Kept R) (hn : KeptNest R nest) {i : Instr} (h : instrWith nest i s = .next t) : R s t := by
  by_cases hi : configures i = false ∧ i ≠ .retest
  · exact (K.toCtrl hn).instrWith hi.1 hi.2 h
  · cases i with
    | map f l d =>
      simp only [Machine.instrWith, execMap] at h
      split at h
      · cases h; exact K.trans (K.mapPages _ _ _ _) (K.ret _ _)
      · cases h
    | init => cases h; exact K.trans (K.initTables s) (K.ret _ _)
    | mfill => cases h; exact K.trans (K.fillMasks _ _) (K.ret _ _)
    | raise => cases h; exact K.trans (K.raiseIrq _ _) (K.ret _ _)
    | remove => cases h; exact K.trans (K.removeVector _ _ _) (K.ret _ _)
    | retest => cases h; exact K.trans (K.retestQueue _) (K.ret _ _)
    | rmstat => cases h; exact K.trans (K.removeByStatus _ _ _) (K.ret _ _)
    | reset => cases h; exact K.trans (K.resetBlock s) (K.ret _ _)
    | _ => exact absurd ⟨rfl, nofun⟩ hi

theorem runAll (K : Kept R) {f : Instr → State → Res State} (hf : ∀ i s t, f i s = .next t → R s t) {is : List Instr}
    (h : runAll f is s = .next t) : R s t := by
  induction is generalizing s with
  | nil => cases h; exact K.refl _
  | cons i is ih =>
    obtain ⟨u, hu, h⟩ := andThen_eq_next h
    exact K.trans (hf _ _ _ hu) (ih h)

theorem handlersTo (K : Kept R) (n : Nat) : KeptNest R (handlersTo n) := by
  induction n with
  | zero => intro is s t h; cases h; exact K.refl _
  | succ n ih => intro is s t h; exact K.runAll (fun i s t h => K.instrWith ih h) h

end Kept

/-- The meaning of an instruction is `instrWith` with the commands that handlers issue. -/
theorem exec_eq_instrWith (i : Instr) (s : State) : exec i s = instrWith (handlers s) i s := by
  cases i <;> rfl

/-- Every instruction keeps a relation that every primitive update keeps. -/
theorem Kept.exec {R : State → State → Prop} (K : Kept R) {i : Instr} {s t : State} (h : exec i s = .next t) :
    R s t := by
  rw [exec_eq_instrWith] at h
  exact K.instrWith (K.handlersTo _) h

end Sys2Proof.Machine
end

