-- ==== Sys2Proof/Laws/Queue.lean ====
section
/-! SUPPORT. The interrupt queue: what each of its shared operations can do, said once. -/

namespace Sys2Proof.Machine

/-- A mask value is unmasked when it shares no bit with IMS. -/
theorem unmasked_eq_lets (s : State) (mask : BitVec 16) : unmasked s.ims mask = s.lets mask := by
  simp [unmasked, masked, State.lets, bne]

/-- `takeLast` is the search from the end. -/
theorem takeLast_eq {α : Type} (p : α → Bool) (l : List α) :
    takeLast p l = (l.reverse.find? p).map fun x => (x, (l.reverse.eraseP p).reverse) := by
  induction l with
  | nil => rfl
  | cons x xs ih =>
    simp only [takeLast, ih, List.reverse_cons, List.find?_append, List.eraseP_append]
    cases h : xs.reverse.find? p with
    | none =>
      have hn : ∀ y ∈ xs.reverse, ¬ p y = true := by simpa using h
      have hany : xs.any p = false := by rw [List.any_eq_false]; simpa using hn
      cases hx : p x
      · simp [hx]
      · simp [hx, hany]
    | some y =>
      have : xs.reverse.any p = true := by
        rw [List.any_eq_true]; exact ⟨y, List.mem_of_find?_eq_some h, List.find?_some h⟩
      simp_all

/-- Nothing is taken only if the test holds of nothing. -/
theorem filter_of_takeLast_none {α : Type} {p : α → Bool} {l : List α} (h : takeLast p l = none) :
    l.filter p = [] := by
  rw [takeLast_eq, Option.map_eq_none_iff] at h
  simpa using h

/-- What is taken is the last that passes, and the others keep their order. -/
theorem filter_of_takeLast_some {α : Type} {p : α → Bool} {l rest : List α} {x : α}
    (h : takeLast p l = some (x, rest)) :
    l.filter p = rest.filter p ++ [x] ∧ (l.filter fun a => !p a) = rest.filter (fun a => !p a)
      ∧ l.length = rest.length + 1 := by
  induction l generalizing rest x with
  | nil => cases h
  | cons y ys ih =>
    simp only [takeLast] at h
    split at h
    · next z r hz =>
      cases h
      obtain ⟨h1, h2, h3⟩ := ih hz
      simp only [List.filter_cons, h1, h2, List.length_cons, h3]
      cases p y <;> simp
    · next hz =>
      split at h
      · next hp =>
        cases h
        simp [hp, filter_of_takeLast_none hz]
      · cases h

@[simp] theorem statusBits_nil : statusBits [] = 0 := rfl

@[simp] theorem statusBits_cons (r : IrqRecord) (l : List IrqRecord) :
    statusBits (r :: l) = r.status ||| statusBits l := rfl

@[simp] theorem statusBits_append (l m : List IrqRecord) : statusBits (l ++ m) = statusBits l ||| statusBits m := by
  induction l with
  | nil => simp
  | cons x xs ih => rw [List.cons_append, statusBits_cons, ih, statusBits_cons, BitVec.or_assoc]

/-- Clearing two sets of bits clears their union. -/
theorem and_not_and_not (i a b : BitVec 32) : i &&& ~~~a &&& ~~~b = i &&& ~~~(a ||| b) := by
  ext k; simp [Bool.and_assoc]

/-- Clearing the status bits of each record of a list clears them all. -/
theorem foldl_statusClear (l : List IrqRecord) (i : BitVec 32) :
    l.foldl (fun i r => statusClear i r.status) i = i &&& ~~~statusBits l := by
  induction l generalizing i with
  | nil => simp only [List.foldl_nil, statusBits_nil]; exact (BitVec.and_allOnes (x := i)).symm
  | cons r l ih => rw [List.foldl_cons, ih, statusClear, and_not_and_not, statusBits_cons]

/-- Enqueuing is what the spec says it is: refused as a duplicate or when full, else in its place. -/
theorem enqueue_eq (r : IrqRecord) (s : State) :
    enqueue r s = { s with q := enqueued s.cfg.priorityOrder r s.q } := by
  unfold enqueue enqueueResult enqueued
  by_cases h1 : (s.q.any fun x => x.vector == r.vector) = true
  · simp [h1]
  · by_cases h2 : s.q.length = 30 <;>
      simp [h1, h2, queueCapacity, insertRecord, List.countP_eq_length_filter]

/-- Taking records out of a queue keeps its invariants. -/
theorem QueueOk.sublist {order : PriorityOrder} {q q' : List IrqRecord} (h : QueueOk order q) (hs : q'.Sublist q) :
    QueueOk order q' :=
  ⟨Nat.le_trans hs.length_le h.1, h.2.1.sublist hs, h.2.2.sublist hs⟩

end Sys2Proof.Machine
end

