-- ==== Sys2Proof/Laws/Quiet.lean ====
section
/-! SUPPORT. What one access of a quiet environment leaves alone, and the DMA engine's reads and writes in one. -/

namespace Sys2Proof.Machine

variable (s : State) (op : BusOp) (a : Word)

/-! A call, then an access, field by field. -/

@[simp] theorem called_pt (who : Collab) : (s.called who op a).pt = s.pt := by cases op <;> rfl
@[simp] theorem called_mr (who : Collab) : (s.called who op a).mr = s.mr := by cases op <;> rfl
@[simp] theorem called_mw (who : Collab) : (s.called who op a).mw = s.mw := by cases op <;> rfl
@[simp] theorem called_dma (who : Collab) : (s.called who op a).dma = s.dma := by cases op <;> rfl
@[simp] theorem called_ims (who : Collab) : (s.called who op a).ims = s.ims := by cases op <;> rfl
@[simp] theorem called_ist (who : Collab) : (s.called who op a).ist = s.ist := by cases op <;> rfl
@[simp] theorem called_aiack (who : Collab) : (s.called who op a).aiack = s.aiack := by cases op <;> rfl
@[simp] theorem called_ch (who : Collab) : (s.called who op a).ch = s.ch := by cases op <;> rfl
@[simp] theorem called_q (who : Collab) : (s.called who op a).q = s.q := by cases op <;> rfl
@[simp] theorem called_refusalMark (who : Collab) : (s.called who op a).refusalMark = s.refusalMark := by cases op <;> rfl
@[simp] theorem called_cfg (who : Collab) : (s.called who op a).cfg = s.cfg := by cases op <;> rfl
@[simp] theorem called_pos (who : Collab) : (s.called who op a).pos = s.pos := by cases op <;> rfl
@[simp] theorem called_stream (who : Collab) : (s.called who op a).stream = s.stream := by cases op <;> rfl
@[simp] theorem called_port (who : Collab) : (s.called who op a).port = s.port := by cases op <;> rfl
@[simp] theorem called_ret (who : Collab) : (s.called who op a).ret = s.ret := by cases op <;> rfl
@[simp] theorem called_script (who : Collab) : (s.called who op a).script = s.script.tail := by cases op <;> rfl

/-- A call appends one event, which is no delivery and no DSP step. -/
theorem called_history (who : Collab) :
    ∃ e : Event, (s.called who op a).history = s.history ++ [e] ∧ e.isInterrupt = false ∧ ∀ n, e ≠ .dspStep n := by
  cases op <;> exact ⟨_, rfl, rfl, fun n => nofun⟩

/-- An access is one call or none at all. -/
theorem accessed_cases : s.accessed op a = s ∨ ∃ who b, s.accessed op a = s.called who op b := by
  unfold State.accessed
  split
  · exact .inr ⟨_, _, rfl⟩
  · exact .inl rfl

@[simp] theorem accessed_pt : (s.accessed op a).pt = s.pt := by
  rcases accessed_cases s op a with h | ⟨who, b, h⟩ <;> simp [h]
@[simp] theorem accessed_mr : (s.accessed op a).mr = s.mr := by
  rcases accessed_cases s op a with h | ⟨who, b, h⟩ <;> simp [h]
@[simp] theorem accessed_mw : (s.accessed op a).mw = s.mw := by
  rcases accessed_cases s op a with h | ⟨who, b, h⟩ <;> simp [h]
@[simp] theorem accessed_dma : (s.accessed op a).dma = s.dma := by
  rcases accessed_cases s op a with h | ⟨who, b, h⟩ <;> simp [h]
@[simp] theorem accessed_ims : (s.accessed op a).ims = s.ims := by
  rcases accessed_cases s op a with h | ⟨who, b, h⟩ <;> simp [h]
@[simp] theorem accessed_ist : (s.accessed op a).ist = s.ist := by
  rcases accessed_cases s op a with h | ⟨who, b, h⟩ <;> simp [h]
@[simp] theorem accessed_aiack : (s.accessed op a).aiack = s.aiack := by
  rcases accessed_cases s op a with h | ⟨who, b, h⟩ <;> simp [h]
@[simp] theorem accessed_ch : (s.accessed op a).ch = s.ch := by
  rcases accessed_cases s op a with h | ⟨who, b, h⟩ <;> simp [h]
@[simp] theorem accessed_q : (s.accessed op a).q = s.q := by
  rcases accessed_cases s op a with h | ⟨who, b, h⟩ <;> simp [h]
@[simp] theorem accessed_refusalMark : (s.accessed op a).refusalMark = s.refusalMark := by
  rcases accessed_cases s op a with h | ⟨who, b, h⟩ <;> simp [h]
@[simp] theorem accessed_cfg : (s.accessed op a).cfg = s.cfg := by
  rcases accessed_cases s op a with h | ⟨who, b, h⟩ <;> simp [h]
@[simp] theorem accessed_pos : (s.accessed op a).pos = s.pos := by
  rcases accessed_cases s op a with h | ⟨who, b, h⟩ <;> simp [h]
@[simp] theorem accessed_stream : (s.accessed op a).stream = s.stream := by
  rcases accessed_cases s op a with h | ⟨who, b, h⟩ <;> simp [h]
@[simp] theorem accessed_port : (s.accessed op a).port = s.port := by
  rcases accessed_cases s op a with h | ⟨who, b, h⟩ <;> simp [h]
@[simp] theorem accessed_ret : (s.accessed op a).ret = s.ret := by
  rcases accessed_cases s op a with h | ⟨who, b, h⟩ <;> simp [h]

/-- An access appends at most one event, which is no delivery and no DSP step. -/
theorem accessed_history :
    ∃ events : List Event, (s.accessed op a).history = s.history ++ events
      ∧ ∀ e ∈ events, e.isInterrupt = false ∧ ∀ n, e ≠ .dspStep n := by
  rcases accessed_cases s op a with h | ⟨who, b, h⟩
  · exact ⟨[], by simp [h], by simp⟩
  · obtain ⟨e, he, hi, hd⟩ := called_history s op b who
    exact ⟨[e], by simp [h, he], by simpa using ⟨hi, hd⟩⟩

@[simp] theorem chan_accessed (c : Chan) : (s.accessed op a).chan c = s.chan c := by simp [State.chan]

@[simp] theorem regs_accessed (c : Chan) : (s.accessed op a).regs c = s.regs c := by simp [State.regs]

@[simp] theorem page_accessed (p : Nat) : (s.accessed op a).page p = s.page p := by simp [State.page]

@[simp] theorem reachesCtrl_accessed (b : Word) : (s.accessed op a).reachesCtrl b = s.reachesCtrl b := by
  simp [State.reachesCtrl]

@[simp] theorem reachesCtrl_modChan (c : Chan) (f : Channel → Channel) (b : Word) :
    (s.modChan c f).reachesCtrl b = s.reachesCtrl b := rfl

@[simp] theorem quiet_modChan (c : Chan) (f : Channel → Channel) : (s.modChan c f).Quiet ↔ s.Quiet := Iff.rfl

variable {s}

theorem quiet_accessed (h : s.Quiet) : (s.accessed op a).Quiet := by
  intro r hr
  rcases accessed_cases s op a with e | ⟨who, b, e⟩
  · exact h r (e ▸ hr)
  · rw [e, called_script] at hr; exact h r (List.mem_of_mem_tail hr)

/-- With no slot at the discriminator no access reaches the controller. -/
theorem reachesCtrl_of_noCombo (h : s.NoCombo) : s.reachesCtrl a = false := by
  have page : ∀ (t : Table DeviceId) (p : Nat), (∀ e ∈ t, e.2 ≠ .combo) → tableGet .unhandled t p ≠ .combo := by
    intro t p ht
    induction t with
    | nil => nofun
    | cons e t ih =>
      simp only [tableGet]
      split
      · exact ht e (by simp)
      · exact ih fun x hx => ht x (by simp [hx])
  have := page s.pt (specPage a) h
  simp only [State.reachesCtrl, State.page, Bool.and_eq_false_iff, beq_eq_false_iff_ne]
  exact .inl (.inr this)

/-! The engine's accesses. -/

/-- A read of the engine that does not reach the controller. -/
theorem dmaRead_of_quiet (hq : s.Quiet) (n : Nat) (w : Width) (h : s.reachesCtrl a = false) :
    dmaRead (handlersTo n) w a s = .next (s.accessed (.read w) a, s.valueAt (.read w) a) :=
  access_of_quiet hq _ _ _ _ h

/-- A write of the engine that does not reach the controller. -/
theorem dmaWrite_of_quiet (hq : s.Quiet) (n : Nat) (h : s.reachesCtrl a = false) :
    dmaWrite (handlersTo n) op a s = .next (s.accessed op a) := by
  unfold dmaWrite
  rw [access_of_quiet hq _ _ _ _ h]
  rfl

end Sys2Proof.Machine
end

