-- ==== Sys2Proof/Laws/Registers.lean ====
section
/-! SUPPORT. The addresses of the register rows, and what an access to one does where the default map puts the
controller. -/

namespace Sys2Proof.Machine

/-- The A29 of a register row as a number. -/
theorem registerAddress_toNat (off m : BitVec 8) :
    (registerAddress off m).toNat = 0x05FE0000 + 256 * m.toNat + off.toNat := by
  have hm := m.isLt
  have ho := off.isLt
  have hin : m.toNat <<< 8 ||| off.toNat = 256 * m.toNat + off.toNat := by
    rw [← Nat.shiftLeft_add_eq_or_of_lt ho, Nat.shiftLeft_eq]; omega
  have hout : (0x05FE : Nat) <<< 16 ||| (256 * m.toNat + off.toNat) = 0x05FE0000 + 256 * m.toNat + off.toNat := by
    rw [← Nat.shiftLeft_add_eq_or_of_lt (by omega), Nat.shiftLeft_eq]; omega
  simp only [registerAddress, BitVec.toNat_append, hin]
  exact hout

/-- A register row's address is in zone 0, at slot 0xBF, and is its own A29. -/
theorem registerAddress_zone (off m : BitVec 8) :
    specZone (registerAddress off m) = 0 ∧ specPage (registerAddress off m) = 0xBF
      ∧ specA29 (registerAddress off m) = registerAddress off m := by
  have h := registerAddress_toNat off m
  have hm := m.isLt
  have ho := off.isLt
  refine ⟨?_, ?_, ?_⟩
  · simp only [specZone, h]; omega
  · simp only [specPage, h]; omega
  · apply BitVec.eq_of_toNat_eq
    simp only [specA29, BitVec.toNat_ofNat, h]; omega

/-- A register row's address selects the controller under the default selector. -/
theorem registerAddress_selects (off m : BitVec 8) : registerAddress off m &&& 0xFFFF0000 = 0x05FE0000 := by
  have e : registerAddress off m = 0x05FE#16 ++ (m ++ off) := rfl
  have hmask : (0xFFFF0000 : Word) = (0xFFFF#16) ++ (0#8 ++ 0#8) := by decide
  have hbase : (0x05FE0000 : Word) = (0x05FE#16) ++ (0#8 ++ 0#8) := by decide
  rw [e, hmask, hbase, BitVec.and_append, BitVec.and_append]
  simp

/-- With the controller where the default map puts it, every register row reaches it. -/
theorem reachesCtrl_registerAddress {s : State} (h : s.CtrlMapped) (off m : BitVec 8) :
    s.reachesCtrl (registerAddress off m) = true := by
  obtain ⟨hz, hp, ha⟩ := registerAddress_zone off m
  have hs := registerAddress_selects off m
  simp only [State.reachesCtrl, specPaged, hz, hp, ha, h.1, h.2.1, h.2.2.1, hs]
  decide

/-- The offset in a register row's address. -/
theorem regOffset_registerAddress (off m : BitVec 8) : regOffset (registerAddress off m) = off := by
  apply BitVec.eq_of_toNat_eq
  have hm := m.isLt
  have ho := off.isLt
  simp only [regOffset, BitVec.extractLsb'_toNat, registerAddress_toNat, Nat.shiftRight_zero]
  omega

/-- Any access of a controller register at a multiple of 4 is the one of its offset. -/
theorem ctrlAccess_of_aligned (nest : Nest) (op : RegOp) (a : Word) (s : State)
    (h : offsetAligned (regOffset a) = true) :
    ctrlAccess nest op.toBus a s = registerAccess nest (regOffset a) op s := by
  cases op <;> simp [ctrlAccess, RegOp.toBus, h]

/-- With the controller where the default maps put it, a register row is the access of its offset. -/
theorem portAccess_of_ctrlMapped {s : State} (h : s.CtrlMapped) (nest : Nest) (off m : BitVec 8) (op : RegOp)
    (ho : offsetAligned off = true) :
    portAccess nest off m op s = finishAccess op.toBus (registerAccess nest off op s) := by
  unfold portAccess busAccess
  rw [access_of_reachesCtrl _ _ _ _ (reachesCtrl_registerAddress h off m), (registerAddress_zone off m).2.2,
    ctrlAccess_of_aligned _ _ _ _ (by rw [regOffset_registerAddress]; exact ho), regOffset_registerAddress]

/-- What the default offset map has at an offset. -/
theorem ctrlRegAt_of_ctrlMapped {s : State} (h : s.CtrlMapped) (off : BitVec 8) :
    ctrlRegAt s.cfg off = ctrlRegAt Config.default off := by
  rw [ctrlRegAt, h.2.2.2]
  rfl

/-- A finished access of a known result. -/
@[simp] theorem finishAccess_next (op : BusOp) (t : State) (v : Word) :
    finishAccess op (.next (t, v)) = .next { t with ret := op.returns v } := by
  cases op <;> rfl

end Sys2Proof.Machine
end

