-- ==== Sys2Proof/Laws/Tables.lean ====
section
/-! SUPPORT. The tables: a read after a fill, and every table operation keeps the canonical form. -/

namespace Sys2Proof.Machine

variable {α : Type}

@[simp] theorem tableGet_nil (d : α) (i : Nat) : tableGet d [] i = d := rfl

theorem tableGet_cons (d : α) (e : Nat × α) (t : Table α) (i : Nat) :
    tableGet d (e :: t) i = if e.1 = i then e.2 else tableGet d t i := rfl

/-- An index none of whose entries is listed reads as the default. -/
theorem tableGet_of_not_mem {d : α} {t : Table α} {i : Nat} (h : ∀ e ∈ t, e.1 ≠ i) : tableGet d t i = d := by
  induction t with
  | nil => rfl
  | cons e t ih =>
    rw [tableGet_cons, if_neg (h e (by simp)), ih fun x hx => h x (by simp [hx])]

/-- An index missing from the first part is read in the second. -/
theorem tableGet_append_right {d : α} {t u : Table α} {i : Nat} (h : ∀ e ∈ t, e.1 ≠ i) :
    tableGet d (t ++ u) i = tableGet d u i := by
  induction t with
  | nil => rfl
  | cons e t ih =>
    rw [List.cons_append, tableGet_cons, if_neg (h e (by simp)), ih fun x hx => h x (by simp [hx])]

/-- An index missing from the second part is read in the first. -/
theorem tableGet_append_left {d : α} {t u : Table α} {i : Nat} (h : ∀ e ∈ u, e.1 ≠ i) :
    tableGet d (t ++ u) i = tableGet d t i := by
  induction t with
  | nil => exact tableGet_of_not_mem h
  | cons e t ih => simp only [List.cons_append, tableGet_cons, ih]

/-- Keeping the entries whose index passes a test does not change the entry of an index that passes it. -/
theorem tableGet_filter {d : α} {t : Table α} {i : Nat} {p : Nat → Bool} (h : p i = true) :
    tableGet d (t.filter fun e => p e.1) i = tableGet d t i := by
  induction t with
  | nil => rfl
  | cons e t ih =>
    by_cases he : p e.1 = true
    · simp only [List.filter_cons_of_pos (p := fun e : Nat × α => p e.1) he, tableGet_cons, ih]
    · rw [List.filter_cons_of_neg (p := fun e : Nat × α => p e.1) he, ih, tableGet_cons, if_neg]
      rintro rfl
      exact he h

/-- A run of equal entries reads as that entry at every index it lists. -/
theorem tableGet_range' {d a : α} {lo n i : Nat} (h₁ : lo ≤ i) (h₂ : i < lo + n) :
    tableGet d ((List.range' lo n).map fun j => (j, a)) i = a := by
  induction n generalizing lo with
  | zero => omega
  | succ n ih =>
    rw [List.range'_succ, List.map_cons, tableGet_cons]
    split
    · rfl
    · next hne => exact ih (by simp only at hne; omega) (by omega)

/-- The entries a fill writes lie in its range and are not the default. -/
theorem mem_fillRange [DecidableEq α] {d a : α} {lo hi : Nat} {e : Nat × α}
    (he : e ∈ (if a = d then [] else (List.range' lo (hi + 1 - lo)).map fun i => (i, a))) :
    lo ≤ e.1 ∧ e.1 ≤ hi ∧ e.2 ≠ d := by
  split at he
  · cases he
  · next ha =>
    obtain ⟨j, hj, rfl⟩ := List.mem_map.1 he
    have := List.mem_range'_1.1 hj
    exact ⟨by simp only; omega, by simp only; omega, ha⟩

/-- What a fill writes, and that it writes nothing else. -/
theorem tableGet_fill [DecidableEq α] (d : α) (t : Table α) (lo hi : Nat) (a : α) (i : Nat) :
    tableGet d (tableFill d t lo hi a) i = if lo ≤ i ∧ i ≤ hi then a else tableGet d t i := by
  unfold tableFill
  split
  · rw [if_neg (by omega)]
  next hle =>
  have low : ∀ e ∈ t.filter (fun e => decide (e.1 < lo)), e.1 < lo := fun e he => by
    simpa using (List.mem_filter.1 he).2
  have high : ∀ e ∈ t.filter (fun e => decide (hi < e.1)), hi < e.1 := fun e he => by
    simpa using (List.mem_filter.1 he).2
  rcases Nat.lt_or_ge i lo with h₁ | h₁
  · have hr : ¬ (lo ≤ i ∧ i ≤ hi) := by omega
    simp only [if_neg hr]
    rw [tableGet_append_left, tableGet_filter (p := fun k => decide (k < lo)) (by simpa using h₁)]
    intro e he
    rcases List.mem_append.1 he with he | he
    · have := (mem_fillRange he).1; omega
    · have := high e he; omega
  · rw [tableGet_append_right fun e he => by have := low e he; omega]
    rcases Nat.lt_or_ge hi i with h₂ | h₂
    · have hr : ¬ (lo ≤ i ∧ i ≤ hi) := by omega
      simp only [if_neg hr]
      rw [tableGet_append_right, tableGet_filter (p := fun k => decide (hi < k)) (by simpa using h₂)]
      intro e he
      have := (mem_fillRange he).2.1; omega
    · have hr : lo ≤ i ∧ i ≤ hi := ⟨h₁, h₂⟩
      simp only [if_pos hr]
      rw [tableGet_append_left fun e he => by have := high e he; omega]
      split
      · next ha => rw [ha, tableGet_nil]
      · exact tableGet_range' h₁ (by omega)

theorem tableWf_nil (d : α) (n : Nat) : tableWf d n ([] : Table α) := ⟨List.Pairwise.nil, by simp⟩

/-- A fill within the table keeps the canonical form. -/
theorem tableFill_wf [DecidableEq α] {d : α} {n : Nat} {t : Table α} (h : tableWf d n t) {lo hi : Nat} (hn : hi < n)
    (a : α) : tableWf d n (tableFill d t lo hi a) := by
  unfold tableFill
  split
  · exact h
  refine ⟨List.pairwise_append.2 ⟨h.1.filter _, List.pairwise_append.2 ⟨?_, h.1.filter _, ?_⟩, ?_⟩, ?_⟩
  · split
    · exact List.Pairwise.nil
    · exact List.pairwise_map.2 (List.pairwise_lt_range' (s := lo) (step := 1))
  · intro x hx y hy
    have := (List.mem_filter.1 hy).2
    simp only [decide_eq_true_eq] at this
    have := (mem_fillRange hx).2.1
    omega
  · intro x hx y hy
    have hxlo := (List.mem_filter.1 hx).2
    simp only [decide_eq_true_eq] at hxlo
    rcases List.mem_append.1 hy with hy | hy
    · have := (mem_fillRange hy).1
      omega
    · have := (List.mem_filter.1 hy).2
      simp only [decide_eq_true_eq] at this
      omega
  · intro e he
    rcases List.mem_append.1 he with he | he
    · exact h.2 e (List.mem_filter.1 he).1
    · rcases List.mem_append.1 he with he | he
      · exact ⟨by have := (mem_fillRange he).2.1; omega, (mem_fillRange he).2.2⟩
      · exact h.2 e (List.mem_filter.1 he).1

/-! The operations over the tables of the state. -/

theorem page_mapPages (f l : BitVec 8) (d : DeviceId) (s : State) (p : Nat) :
    (mapPages f l d s).page p = if f.toNat ≤ p ∧ p ≤ l.toNat then d else s.page p :=
  tableGet_fill _ _ _ _ _ _

theorem mapPages_tablesOk {s : State} (h : s.TablesOk) (f l : BitVec 8) (d : DeviceId) :
    (mapPages f l d s).TablesOk :=
  ⟨tableFill_wf h.1 l.isLt d, h.2.1, h.2.2⟩

theorem maskPageOf_lt (a : Word) : maskPageOf a < maskPageCount := BitVec.isLt _

theorem fillMasks_tablesOk {s : State} (h : s.TablesOk) (m : MaskFill) : (fillMasks m s).TablesOk :=
  ⟨h.1, tableFill_wf h.2.1 (maskPageOf_lt _) _, tableFill_wf h.2.2 (maskPageOf_lt _) _⟩

theorem emptyTables_tablesOk (s : State) : State.TablesOk { s with pt := [], mr := [], mw := [] } :=
  ⟨tableWf_nil _ _, tableWf_nil _ _, tableWf_nil _ _⟩

end Sys2Proof.Machine
end

