-- ==== Sys2Proof/Tests/Slice0.lean ====
section
/-! SUPPORT. The model's own tests: the well-formedness checks, the decoding of every constructor from words written out
from the spec's encodings, single steps with the results that 95_test_vectors.md and the rules' own examples give, and a
witness for the hypotheses of each statement. -/

namespace Sys2Proof.Tests

open Sys2Proof.Machine

/-! Well-formedness: an ill-formed instruction for each check. -/

/-- A code that names no device (30_encoding.md R95). -/
theorem test_wf_refuses_unnamed_device : (Instr.map 0 0 (.ext (.other 17))).wf [] = false := by decide

/-- A code below 17 is never a further device's (30_encoding.md R95). -/
theorem test_wf_refuses_low_device_code : (Instr.map 0 0 (.ext (.other 5))).wf [5] = false := by decide

/-- A named device is accepted (30_encoding.md R95). -/
theorem test_wf_accepts_named_devices :
    (Instr.map 0 0 (.ext (.other 17))).wf [17] = true ∧ (Instr.map 0 0 .combo).wf [] = true := by decide

/-- A 32-bit zone-0 access that a register row matches is that row (30_encoding.md R98). -/
theorem test_wf_refuses_register_word_as_zone_route :
    (Instr.zone0PageTable 0x05FE00A0 (.read .w32)).wf [] = false
    ∧ (Instr.zone0PageTable 0x05FE00A0 (.read .w16)).wf [] = true := by decide

/-- A reserved offset is a multiple of 4 (30_encoding.md R80). -/
theorem test_wf_refuses_misaligned_reserved_offset : (Instr.reservedOffset 0x1A 0 .read).wf [] = false := by decide

/-- A reserved offset is no named register's (30_encoding.md R80). -/
theorem test_wf_refuses_named_reserved_offset :
    (Instr.reservedOffset 0xA0 0 .read).wf [] = false ∧ (Instr.reservedOffset 0x18 0 .read).wf [] = true := by decide

/-! Decoding (30_encoding.md R72 to R78, R80; 20_memory.md R47; 95_test_vectors.md section 2.1). -/

theorem test_decode_bus_commands :
    decode [] [0x00, 0x20, 0x20, 0x00, 0x01] = .command (.rd8 0x20200001) []
    ∧ decode [] [0x01, 0x05, 0xC0, 0x00, 0x10] = .command (.rd16 0x05C00010) []
    ∧ decode [] [0x02, 0x25, 0xFE, 0x00, 0xA0] = .command (.rd32 0x25FE00A0) []
    ∧ decode [] [0x04, 0x9F, 0xFF, 0xFF, 0xFF, 0x00, 0x00, 0x00, 0xFF] = .command (.wr8 0x9FFFFFFF 0xFF) []
    ∧ decode [] [0x05, 0x60, 0x00, 0x00, 0x00, 0x00, 0x00, 0x12, 0x34] = .command (.wr16 0x60000000 0x1234) []
    ∧ decode [] [0x06, 0x25, 0xFE, 0x00, 0x10, 0x00, 0x00, 0x01, 0x01, 0x40]
        = .command (.wr32 0x25FE0010 0x101) [0x40] := by decide

theorem test_decode_configuration_commands :
    decode [] [0x10, 0, 0, 0, 0x06, 0, 0, 0, 0x07, 0, 0, 0, 0x04] = .command (.map 6 7 (.ext .lwram)) []
    ∧ decode [] [0x11] = .command .init []
    ∧ decode [] [0x12, 0x05, 0xA0, 0, 0, 0x05, 0xAF, 0xFF, 0xFF, 0, 0x07, 0xFF, 0xFF, 0, 0, 0, 0x01]
        = .command (.mfill 0x05A00000 0x05AFFFFF 0x0007FFFF true false) []
    ∧ decode [] [0x13, 0x05, 0xAC, 0x12, 0x34] = .command (.mlkr 0x05AC1234) []
    ∧ decode [] [0x14, 0x12, 0x34, 0x56, 0x78] = .command (.mlkw 0x12345678) [] := by decide

theorem test_decode_step_and_interrupt_commands :
    decode [] [0x20, 0, 0, 0, 0x64] = .command (.exec 100) []
    ∧ decode [] [0x21] = .command .drain []
    ∧ decode [] [0x30, 0, 0, 0, 0x50, 0, 0, 0, 0x07, 0, 0, 0x80, 0x00, 0, 0x01, 0, 0]
        = .command (.raise 0x50 7 0x8000 0x00010000) []
    ∧ decode [] [0x31, 0, 0, 0, 0x40, 0, 0, 0, 0x0F, 0, 0, 0, 0x01] = .command (.remove 0x40 0xF 1) []
    ∧ decode [] [0x32] = .command .retest []
    ∧ decode [] [0x33, 0, 0, 0, 0x03, 0, 0, 0, 0x01] = .command (.rmstat 3 1) []
    ∧ decode [] [0x40] = .command .reset [] := by decide

theorem test_decode_invalid_opcodes :
    decode [] [0x03, 0] = .invalid .reservedOpcode ∧ decode [] [0x07] = .invalid .reservedOpcode
    ∧ decode [] [0x08] = .invalid .reservedOpcode ∧ decode [] [0x15] = .invalid .reservedOpcode
    ∧ decode [] [0x22] = .invalid .reservedOpcode ∧ decode [] [0x34] = .invalid .reservedOpcode
    ∧ decode [] [0x41] = .invalid .reservedOpcode ∧ decode [] [0x50] = .invalid .reservedOpcode
    ∧ decode [] [0xFF] = .invalid .reservedOpcode := by decide

theorem test_decode_invalid_operands :
    decode [] [0x04, 0, 0, 0, 0, 0, 0, 0x01, 0x00] = .invalid .operandAboveField
    ∧ decode [] [0x05, 0, 0, 0, 0, 0, 0x01, 0, 0] = .invalid .operandAboveField
    ∧ decode [] [0x10, 0, 0, 0x01, 0, 0, 0, 0x01, 0x01, 0, 0, 0, 0x01] = .invalid .operandAboveField
    ∧ decode [] [0x10, 0, 0, 0, 0, 0, 0, 0, 0, 0, 0, 0, 0x11] = .invalid .unknownDevice
    ∧ decode [] [0x30, 0, 0, 0, 0x4B, 0, 0, 0, 0x10, 0, 0, 0x08, 0, 0, 0, 0x08, 0] = .invalid .operandAboveField
    ∧ decode [] [0x30, 0, 0, 0x01, 0x4B, 0, 0, 0, 0x05, 0, 0, 0x08, 0, 0, 0, 0x08, 0] = .invalid .operandAboveField
    ∧ decode [] [0x30, 0, 0, 0, 0x4B, 0, 0, 0, 0x05, 0, 0x01, 0, 0, 0, 0, 0x08, 0] = .invalid .operandAboveField
    ∧ decode [] [0x12, 0, 0, 0, 0, 0, 0, 0, 0, 0, 0, 0, 0, 0, 0, 0, 0x04] = .invalid .operandAboveField := by decide

theorem test_decode_incomplete :
    decode [] [] = .incomplete ∧ decode [] [0x20, 0, 0] = .incomplete
    ∧ decode [] [0x06, 0x25, 0xFE, 0x00, 0x10] = .incomplete := by decide

/-- A bus-port record: address word, control byte, datum word (the model's own form, notes/assumptions/3.md). -/
def record (a : Word) (control : Byte) (datum : Word) : List Byte := bytesOf a ++ control :: bytesOf datum

theorem test_decode_zone_rows :
    decodeTableWord 32 0x00000000 = some (.zone0PageTable 0 (.read .w32))
    ∧ decodeTableWord 32 0x20000000 = some (.zone1PageTable 0 (.read .w32))
    ∧ decodeTableWord 32 0x40000000 = some (.zone2DataArray 0 (.read .w32))
    ∧ decodeTableWord 32 0x60000000 = some (.zone3AddressArray 0 (.read .w32))
    ∧ decodeTableWord 32 0x80000000 = some (.zone4Unhandled 0 (.read .w32))
    ∧ decodeTableWord 32 0xA6000010 = some (.zone5PageTable 0x06000010 (.read .w32))
    ∧ decodeTableWord 32 0xC0000000 = some (.zone6DataArray 0 (.read .w32))
    ∧ decodeTableWord 32 0xFFFFFE10 = some (.zone7Onchip 0x1FFFFE10 (.read .w32))
    ∧ decodeAccess (record 0x60000000 0x04 5) = .command (.zone3AddressArray 0 (.write32 5)) []
    ∧ decodeAccess (record 0x05FE00A0 0x01 0) = .command (.zone0PageTable 0x05FE00A0 (.read .w16)) []
    ∧ decodeAccess (record 0xC0000000 0x05 0x1234) = .command (.zone6DataArray 0 (.write16 0x1234)) []
    ∧ decodeAccess (record 0x9FFFFFFF 0x06 0xFF) = .command (.zone4Unhandled 0x1FFFFFFF (.write8 0xFF)) []
    ∧ decodeAccess (record 0 0x03 0) = .invalid .badAccess := by decide

theorem test_decode_channel_rows :
    decodeTableWord 32 0x05FE0000 = some (.d0r 0 .read) ∧ decodeTableWord 32 0x05FE0004 = some (.d0w 0 .read)
    ∧ decodeTableWord 32 0x05FE0008 = some (.d0c 0 .read) ∧ decodeTableWord 32 0x05FE000C = some (.d0ad 0 .read)
    ∧ decodeAccess (record 0x05FE0010 0x04 0x101) = .command (.d0en 0 (.write 0x101)) []
    ∧ decodeTableWord 32 0x05FE0014 = some (.d0md 0 .read)
    ∧ decodeTableWord 32 0x05FE0020 = some (.d1r 0 .read) ∧ decodeTableWord 32 0x05FE0024 = some (.d1w 0 .read)
    ∧ decodeTableWord 32 0x05FE0028 = some (.d1c 0 .read) ∧ decodeTableWord 32 0x05FE002C = some (.d1ad 0 .read)
    ∧ decodeTableWord 32 0x05FE0030 = some (.d1en 0 .read) ∧ decodeTableWord 32 0x05FE0034 = some (.d1md 0 .read)
    ∧ decodeTableWord 32 0x05FE0040 = some (.d2r 0 .read) ∧ decodeTableWord 32 0x05FE0044 = some (.d2w 0 .read)
    ∧ decodeTableWord 32 0x05FE0048 = some (.d2c 0 .read) ∧ decodeTableWord 32 0x05FE004C = some (.d2ad 0 .read)
    ∧ decodeTableWord 32 0x05FE0050 = some (.d2en 0 .read)
    ∧ decodeTableWord 32 0x05FE0054 = some (.d2md 0 .read) := by decide

theorem test_decode_other_register_rows :
    decodeTableWord 32 0x05FE0060 = some (.dstp 0 .read) ∧ decodeTableWord 32 0x05FE007C = some (.dsta 0 .read)
    ∧ decodeTableWord 32 0x05FE0080 = some (.ppaf 0 .read) ∧ decodeTableWord 32 0x05FE0084 = some (.ppd 0 .read)
    ∧ decodeTableWord 32 0x05FE0088 = some (.pda 0 .read) ∧ decodeTableWord 32 0x05FE008C = some (.pdd 0 .read)
    ∧ decodeTableWord 32 0x05FE0090 = some (.t0c 0 .read) ∧ decodeTableWord 32 0x05FE0094 = some (.t1s 0 .read)
    ∧ decodeTableWord 32 0x05FE0098 = some (.t1md 0 .read) ∧ decodeTableWord 32 0x05FE01A0 = some (.ims 1 .read)
    ∧ decodeTableWord 32 0x05FE00A4 = some (.ist 0 .read) ∧ decodeTableWord 32 0x05FE00A8 = some (.aiack 0 .read)
    ∧ decodeTableWord 32 0x05FE00B0 = some (.asr0 0 .read) ∧ decodeTableWord 32 0x05FE00B4 = some (.asr1 0 .read)
    ∧ decodeTableWord 32 0x05FE00B8 = some (.aref 0 .read) ∧ decodeTableWord 32 0x05FE00C4 = some (.rsel 0 .read)
    ∧ decodeTableWord 32 0x05FE00C8 = some (.ver 0 .read)
    ∧ decodeTableWord 32 0x05FE0018 = some (.reservedOffset 0x18 0 .read) := by decide

/-! Single steps. -/

/-- What a field of the next state holds, if there is one. -/
def see {α : Type} (o : Host.Outcome State Fault Refusal) (f : State → α) : Option α :=
  match o with
  | .next s => some (f s)
  | _ => none

/-- Why an outcome was refused, if it was. -/
def why (o : Host.Outcome State Fault Refusal) : Option Refusal :=
  match o with
  | .refused r => some r
  | _ => none

/-- Registers with the reset values of 10_state.md R42 and zero addresses and count. -/
def plainRegs : DmaRegs := ⟨0, 0, 0, 0x101, 0, 7⟩

/-- The state after `reset ; init` as far as these tests use it: a few slots of the default map, no draw in any
register. -/
def small : State :=
  { State.reset with
    pt := [(0x00, .ext .rom), (0x04, .ext .lwram), (0x20, .ext .icapS), (0xB8, .ext .vdp1), (0xBF, .combo),
      (0xC0, .ext .hwram)]
    dma := ⟨plainRegs, plainRegs, plainRegs⟩ }

/-- The collaborators answer these values at their next calls and issue no commands. -/
def State.answering (s : State) (l : List Word) : State := { s with script := l.map fun v => ⟨v, []⟩ }

/-- An interrupt record, for short. -/
def rec (v : BitVec 8) (l : BitVec 4) (m : BitVec 16) (st : BitVec 32) : IrqRecord := ⟨v, l, m, st⟩

-- bus accesses (95_test_vectors.md section 2.2, 40_dispatcher.md R99 to R107)

theorem test_rd8_zone1_lwram :
    see (exec (.rd8 0x20200001) (State.answering small [0x1A5])) (fun t => (t.ret, t.history))
      = some (some 0xA5, [.extRead (.device .lwram) .w8 0x00200001 0xA5]) := by decide

theorem test_rd16_vdp1 :
    see (exec (.rd16 0x05C00010) (State.answering small [0x12345])) (fun t => (t.ret, t.history))
      = some (some 0x2345, [.extRead (.device .vdp1) .w16 0x05C00010 0x2345]) := by decide

theorem test_rd32_other_half_of_the_shared_slot :
    see (exec (.rd32 0x0DFE00A0) (State.answering small [7])) (fun t => t.history)
      = some [.extRead (.device .vdp2reg) .w32 0x0DFE00A0 7] := by decide

theorem test_rd32_ims_mirror : see (exec (.rd32 0x05FEFFA0) small) (fun t => t.ret) = some (some 0x0000BFFF) := by decide

theorem test_wr8_lwram :
    see (exec (.wr8 0x00200003 0x5A) small) (fun t => (t.ret, t.history))
      = some (none, [.extWrite (.device .lwram) .w8 0x00200003 0x5A]) := by decide

theorem test_wr8_controller_refused : why (exec (.wr8 0x25FE00A0 1) small) = some .ctrlNarrowWrite := by decide

theorem test_wr16_icap :
    see (exec (.wr16 0x21000000 0xFFFF) small) (fun t => t.history)
      = some [.extWrite (.device .icapS) .w16 0x01000000 0xFFFF] := by decide

theorem test_wr16_zone3_nothing : see (exec (.wr16 0x60000000 5) small) (fun t => t.history) = some [] := by decide

theorem test_wr32_address_array :
    see (exec (.wr32 0x60000000 5) small) (fun t => t.history)
      = some [.extWrite .addrArray .w32 0x60000000 5] := by decide

theorem test_wr32_misaligned_controller_refused :
    why (exec (.wr32 0x25FE00A2 0) small) = some .ctrlMisaligned := by decide

-- configuration (sections 2.3 and 2.4)

theorem test_map_two_slots :
    see (exec (.map 6 7 (.ext .lwram)) small) (fun t => (t.page 5, t.page 6, t.page 7, t.page 8))
      = some (.unhandled, .ext .lwram, .ext .lwram, .unhandled) := by decide

theorem test_map_empty_range : see (exec (.map 0x10 0x0F (.ext .rom)) small) (fun t => t.pt) = some small.pt := by decide

theorem test_init_default_map :
    see (exec .init small) (fun t => (t.page 0x06, t.page 0xBF)) = some (.unhandled, .combo) := by decide +kernel

theorem test_mfill_keeps_low_bits_of_start :
    see (exec (.mfill 0x00001234 0x00001234 0x00000F00 true false) small) (fun t => (t.mr, t.mw))
      = some ([(0, 0x00001F34)], []) := by decide

theorem test_mfill_range :
    see (exec (.mfill 0x05A00000 0x05A1FFFF 0x0007FFFF true true) small) (fun t => (t.mr, t.mw))
      = some ([(0x05A0, 0x05A7FFFF), (0x05A1, 0x05A7FFFF)], [(0x05A0, 0x05A7FFFF), (0x05A1, 0x05A7FFFF)]) := by decide

theorem test_mlkr :
    see (exec (.mlkr 0x05A11234) { small with mr := [(0x05A1, 9)] }) (fun t => t.ret) = some (some 9)
    ∧ see (exec (.mlkr 0x25A10000) { small with mr := [(0x05A1, 9)] }) (fun t => t.ret) = some (some 0) := by decide

theorem test_mlkw : see (exec (.mlkw 0x00012345) { small with mr := [(1, 9)] }) (fun t => t.ret) = some (some 0) := by
  decide

-- the DMA engine (section 2.6)

/-- Channel 0 in the middle of a wide copy of 6 bytes from 0x06000000 to 0x06010000 (vector D4). -/
def copying : State :=
  { small with
    ch := { small.ch with
      c0 := { Channel.idle with
        active := true
        ra := 0x06000000
        wa := 0x06010000
        tn := 6
        raAdd := 4
        waAdd := 4
        last := true
        seg := 0x06010000 } } }

/-- Vector D4 by one tick: one unit, its segment reported, then the DSP step. -/
theorem test_exec_one_wide_unit :
    see (exec (.exec 1) (State.answering copying [0xAABBCCDD, 0, 0])) (fun t => (t.history, t.ch.c0.tn, t.ch.c0.wa))
      = some
          ([.extRead (.device .hwram) .w32 0x06000000 0xAABBCCDD, .extWrite (.device .hwram) .w32 0x06010000 0xAABBCCDD,
            .notifyWrite 0x06010000 4, .dspStep 1], 2, 0x06010004) := by decide

/-- Vector D4: two units for 6 bytes, one segment of 8 bytes, the end interrupt queued, the channel idle. -/
theorem test_drain_rounds_up_and_raises :
    see (exec .drain (State.answering copying [1, 0, 2, 0])) (fun t => (t.history.drop 4, t.ist, t.q, t.ch.c0))
      = some ([.notifyWrite 0x06010000 8], 0x800, [rec 0x4B 5 0x0800 0x0800], Channel.idle) := by decide

/-- Channel 2 in the middle of a narrow fill of 8 bytes from the constant source 0x06000000 to 0x05C00000. -/
def filling : State :=
  { small with
    ch := { small.ch with
      c2 := { Channel.idle with
        active := true
        ra := 0x06000000
        wa := 0x05C00000
        tn := 8
        waAdd := 2
        last := true
        narrow := true
        csrc := true
        seg := 0x05C00000 } } }

/-- Program P4's order of the halves: one source read, the high half first (43_dma.md R156). -/
theorem test_exec_narrow_fill :
    see (exec (.exec 3) (State.answering filling [0xAABBCCDD])) (fun t => t.history)
      = some
          [.extRead (.device .hwram) .w32 0x06000000 0xAABBCCDD, .extWrite (.device .vdp1) .w16 0x05C00000 0xAABB,
           .extWrite (.device .vdp1) .w16 0x05C00002 0xCCDD, .extWrite (.device .vdp1) .w16 0x05C00004 0xAABB,
           .dspStep 3] := by decide

/-- A RESET that a handler issues inside the unit's read abandons the transfer: no write follows, and the channel is all
zero (20_memory.md R66, 70_reset_and_hazards.md R211, 10_state.md R27). -/
theorem test_nested_reset_abandons_the_unit :
    see (exec (.exec 3) { copying with script := [⟨5, [.reset]⟩] }) (fun t => (t.history, t.ch.c0))
      = some ([.extRead (.device .hwram) .w32 0x06000000 5, .dspStep 3], Channel.idle) := by decide

/-- Channel 0 one unit before the end of a descriptor's burst, with another descriptor at 0x06002000. -/
def chained : State :=
  { small with
    ch := { small.ch with
      c0 := { copying.ch.c0 with indirect := true, last := false, tn := 4, ptr := 0x06001FF4 } } }

/-- At the end of its burst the next descriptor is loaded: three reads, and bit 31 of the third word marks the last
(43_dma.md R149, R160; 30_encoding.md R93). -/
theorem test_chain_loads_next_descriptor :
    see (endBurst (handlersTo 0) .c0 (State.answering chained [4, 0x06020000, 0x86030000]))
        (fun t => (t.history, t.ch.c0.last, t.ch.c0.ra, t.ch.c0.wa, t.ch.c0.tn))
      = some
          ([.extRead (.device .hwram) .w32 0x06002000 4, .extRead (.device .hwram) .w32 0x06002004 0x06020000,
            .extRead (.device .hwram) .w32 0x06002008 0x86030000], true, 0x06030000, 0x06020000, 4) := by decide

/-- After the last descriptor of a chain: one end interrupt, nothing written back, the channel idle (43_dma.md R160,
R161, R165). -/
theorem test_drain_ends_a_chain :
    let s : State := { chained with ch := { chained.ch with c0 := { chained.ch.c0 with last := true, rup := true } } }
    see (exec .drain (State.answering s [2, 0])) (fun t => (t.history.drop 2, t.q, t.dma.c0.r, t.ch.c0))
      = some ([.notifyWrite 0x06010000 4], [rec 0x4B 5 0x0800 0x0800], 0, Channel.idle) := by decide

-- interrupts (sections 1, 2.7)

theorem test_raise_masked_queues :
    see (exec (.raise 0x4B 5 0x0800 0x0800) small) (fun t => (t.q, t.ist, t.history))
      = some ([rec 0x4B 5 0x0800 0x0800], 0x800, []) := by decide

/-- Vector I1: an immediate delivery and its mirror. -/
theorem test_raise_unmasked_delivers_with_mirror :
    see (exec (.raise 0x40 0xF 0x0001 0x0001) { small with ims := 0 }) (fun t => (t.history, t.ist, t.q))
      = some ([.sendInterrupt .primary 0x40 15, .sendInterrupt .secondary 0x43 6], 0, []) := by decide

/-- Scenario W10. -/
theorem test_remove_vblank :
    see (exec (.remove 0x40 0xF 1) { small with q := [rec 0x40 0xF 1 1], ist := 1 }) (fun t => (t.q, t.ist, t.history))
      = some ([], 0, []) := by decide

/-- The example of 44_interrupt_arbiter.md R177. -/
theorem test_retest_lowest_level_first :
    see (exec .retest
        { small with ims := 0, ist := 0x1800, q := [rec 0x4B 5 0x0800 0x0800, rec 0x4C 3 0x1000 0x1000] })
        (fun t => (t.history, t.q, t.ist))
      = some ([.sendInterrupt .primary 0x4C 3, .sendInterrupt .primary 0x4B 5], [], 0) := by decide

/-- Vector I11. -/
theorem test_rmstat_drops_one :
    see (exec (.rmstat 3 1) { small with q := [rec 0x61 2 1 2, rec 0x62 1 1 1], ist := 3 }) (fun t => (t.q, t.ist))
      = some ([rec 0x62 1 1 1], 1) := by decide

/-- Vector I12: a cleared bit that no record carries is not touched. -/
theorem test_rmstat_without_record : see (exec (.rmstat 3 1) { small with ist := 3 }) (fun t => t.ist) = some 3 := by decide

/-- Vector D21 and X3: a transfer is abandoned and the queue dropped without an event. -/
theorem test_reset :
    see (exec .reset { copying with q := [rec 0x4B 5 0x0800 0x0800], ist := 0x800 }) (fun t => (t.ch.c0, t.q, t.history))
      = some (Channel.idle, [], [])
    ∧ see (exec .reset { copying with ist := 0x800, ims := 0 }) (fun t => (t.ist, t.ims, t.page 0xBF))
      = some (0, 0xBFFF, .unhandled) := by decide

-- zone rows (20_memory.md R47 to R53)

theorem test_zone0 :
    see (exec (.zone0PageTable 0x000FFFFE (.read .w32)) (State.answering { small with pt := [(1, .ext .rom)] } [3]))
        (fun t => t.history) = some [.extRead (.device .rom) .w32 0x000FFFFE 3] := by decide

theorem test_zone1 :
    see (exec (.zone1PageTable 0x00200000 (.read .w32)) (State.answering small [3])) (fun t => t.history)
      = some [.extRead (.device .lwram) .w32 0x00200000 3] := by decide

theorem test_zone5 :
    see (exec (.zone5PageTable 0x06000010 (.read .w16)) (State.answering small [3])) (fun t => t.history)
      = some [.extRead (.device .hwram) .w16 0x06000010 3] := by decide

theorem test_zone2_and_zone6_pass_the_full_address :
    see (exec (.zone2DataArray 0x06000000 (.read .w32)) (State.answering small [3])) (fun t => t.history)
      = some [.extRead .dataArray .w32 0x46000000 3]
    ∧ see (exec (.zone6DataArray 0x06000000 (.write8 9)) small) (fun t => t.history)
      = some [.extWrite .dataArray .w8 0xC6000000 9] := by decide

theorem test_zone3 :
    see (exec (.zone3AddressArray 0 (.read .w32)) small) (fun t => (t.ret, t.history)) = some (some 0, [])
    ∧ see (exec (.zone3AddressArray 4 (.write32 5)) small) (fun t => t.history)
      = some [.extWrite .addrArray .w32 0x60000004 5] := by decide

theorem test_zone4 :
    see (exec (.zone4Unhandled 0 (.read .w32)) small) (fun t => (t.ret, t.history)) = some (some 0, [])
    ∧ see (exec (.zone4Unhandled 0x1FFFFFFF (.write8 0xFF)) small) (fun t => t.history) = some [] := by decide

theorem test_zone7 :
    see (exec (.zone7Onchip 0x1FFFFE10 (.read .w32)) (State.answering small [3])) (fun t => t.history)
      = some [.extRead .onChip .w32 0x010 3] := by decide

-- register rows (section 2.5)

/-- A write to a register of one channel reaches that register alone. -/
theorem test_channel0_writes :
    see (exec (.d0r 0 (.write 1)) small) (fun t => t.dma) = some { small.dma with c0 := { plainRegs with r := 1 } }
    ∧ see (exec (.d0w 0 (.write 1)) small) (fun t => t.dma) = some { small.dma with c0 := { plainRegs with w := 1 } }
    ∧ see (exec (.d0c 0 (.write 0xFFFFFFFF)) small) (fun t => t.dma)
        = some { small.dma with c0 := { plainRegs with c := 0xFFFFFFFF } }
    ∧ see (exec (.d0ad 0 (.write 1)) small) (fun t => t.dma) = some { small.dma with c0 := { plainRegs with ad := 1 } }
    ∧ see (exec (.d0md 0 (.write 1)) small) (fun t => t.dma)
        = some { small.dma with c0 := { plainRegs with md := 1 } } := by decide

theorem test_channel1_writes :
    see (exec (.d1r 0 (.write 1)) small) (fun t => t.dma) = some { small.dma with c1 := { plainRegs with r := 1 } }
    ∧ see (exec (.d1w 0 (.write 1)) small) (fun t => t.dma) = some { small.dma with c1 := { plainRegs with w := 1 } }
    ∧ see (exec (.d1c 0 (.write 1)) small) (fun t => t.dma) = some { small.dma with c1 := { plainRegs with c := 1 } }
    ∧ see (exec (.d1ad 0 (.write 1)) small) (fun t => t.dma) = some { small.dma with c1 := { plainRegs with ad := 1 } }
    ∧ see (exec (.d1md 0 (.write 1)) small) (fun t => t.dma)
        = some { small.dma with c1 := { plainRegs with md := 1 } } := by decide

theorem test_channel2_writes :
    see (exec (.d2r 0 (.write 1)) small) (fun t => t.dma) = some { small.dma with c2 := { plainRegs with r := 1 } }
    ∧ see (exec (.d2w 0 (.write 1)) small) (fun t => t.dma) = some { small.dma with c2 := { plainRegs with w := 1 } }
    ∧ see (exec (.d2c 0 (.write 1)) small) (fun t => t.dma) = some { small.dma with c2 := { plainRegs with c := 1 } }
    ∧ see (exec (.d2ad 0 (.write 1)) small) (fun t => t.dma) = some { small.dma with c2 := { plainRegs with ad := 1 } }
    ∧ see (exec (.d2md 0 (.write 1)) small) (fun t => t.dma)
        = some { small.dma with c2 := { plainRegs with md := 1 } } := by decide

/-- EN = 1 with GO = 0 is stored and starts nothing; other start factors and GO without EN are refused. -/
theorem test_enable_rows :
    see (exec (.d0en 0 (.write 0x100)) small) (fun t => (t.dma.c0.en, t.ch.c0)) = some (0x100, Channel.idle)
    ∧ why (exec (.d1en 0 (.write 0x001)) small) = some .dmaGoWithoutEn
    ∧ why (exec (.d2en 0 (.write 0x101)) { small with dma := { small.dma with c2 := { plainRegs with md := 0 } } })
        = some .dmaStartFactor := by decide

/-- Vectors D1, D13 and D15: a count of 0, the window's lower bound, and its zone-1 alias. -/
theorem test_arm_direct :
    see (exec (.d1en 0 (.write 0x101)) { small with dma := { small.dma with c1 := { plainRegs with w := 0x05A00000 } } })
        (fun t => (t.ch.c1.active, t.ch.c1.tn, t.ch.c1.narrow, t.ch.c1.raAdd, t.ch.c1.waAdd))
      = some (true, 0x1000, true, 4, 2)
    ∧ see (exec (.d0en 0 (.write 0x101)) { small with dma := { small.dma with c0 := { plainRegs with w := 0x25C00000 } } })
        (fun t => (t.ch.c0.narrow, t.ch.c0.tn, t.history)) = some (true, 0x100000, []) := by decide

theorem test_dstp :
    why (exec (.dstp 0 (.write 1)) small) = some .dmaForceStop
    ∧ see (exec (.dstp 0 (.write 0)) small) (fun t => t.ret) = some none := by decide

theorem test_dsta_and_reserved_writes_ignored :
    see (exec (.dsta 0 (.write 0x12345678)) small) (fun t => t.dma) = some small.dma
    ∧ see (exec (.reservedOffset 0x18 0 (.write 1)) small) (fun t => t.dma) = some small.dma := by decide

/-- Each forwarded row calls SCU_OTHER with its own offset. -/
theorem test_forwarded_rows :
    (forwardedRows 0 (.write 7)).map (fun row => see (exec row.2 small) fun t => t.history)
      = [0x80, 0x84, 0x88, 0x8C, 0x90, 0x94, 0x98, 0xB0, 0xB4, 0xB8, 0xC4, 0xC8].map
          fun off => some [.extWrite .scuOther .w32 off 7] := by decide

theorem test_ims_ignores_high_half :
    see (exec (.ims 0 (.write 0xFFFF1234)) small) (fun t => t.ims) = some 0x1234 := by decide

/-- Another offset map moves the registers (92_eei_decisions.md D12): IMS at 0x10, nothing at 0xA0. -/
theorem test_offset_map_is_a_parameter :
    let s : State := { small with cfg := { small.cfg with regOffsets := [⟨0x10, .ims⟩] } }
    see (exec (.rd32 0x05FE0010) s) (fun t => t.ret) = some (some 0xBFFF)
    ∧ see (exec (.wr32 0x05FE00A0 0) s) (fun t => t.ims) = some 0xBFFF
    ∧ see (exec (.d0en 0 (.write 5)) s) (fun t => t.ims) = some 5 := by decide

/-- Vector I10. -/
theorem test_ist_write_drops_one :
    see (exec (.ist 0 (.write 0xFFFFEFFF))
        { small with ist := 0x1800, q := [rec 0x4B 5 0x0800 0x0800, rec 0x4C 3 0x1000 0x1000] })
        (fun t => (t.ist, t.q)) = some (0x0800, [rec 0x4B 5 0x0800 0x0800]) := by decide

/-- Program P6, its third step: a queued gated record is delivered by its mask, and the flag stays. -/
theorem test_aiack_write_retests :
    see (exec (.aiack 0 (.write 1)) { small with ims := 0, ist := 0x00010000, q := [rec 0x50 7 0x8000 0x00010000] })
        (fun t => (t.aiack, t.q, t.ist, t.history))
      = some (true, [], 0, [.sendInterrupt .primary 0x50 7]) := by decide

-- whole steps

/-- The first step after reset runs the table word placed before it. -/
theorem test_first_step_runs_placed_word :
    see (step (State.reset.withFetchWord 8 0x21)) (fun t => (t.pos, t.stream)) = some (1, [])
    ∧ see (step (State.reset.withFetchWord 32 0x05FE00A0)) (fun t => (t.pos, t.ret, t.port)) = some (1, some 0, []) := by
  decide

/-- An invalid command is refused (60_exceptions.md R191). -/
theorem test_step_refuses_invalid : why (step { small with stream := [0x03] }) = some .invalidCommand := by decide

/-! Witnesses: for each statement with hypotheses, a state and operands that meet all of them together; for a statement
of several clauses, one for each clause. -/

/-- An outcome that shows something has a next state. -/
theorem next_of_see {o : Host.Outcome State Fault Refusal} (h : see o (fun _ => ()) = some ()) : ∃ t, o = .next t := by
  cases o with
  | next t => exact ⟨t, rfl⟩
  | fault r => cases h
  | refused r => cases h

/-- `small` without the controller slot. -/
def noCombo : State := { small with pt := [(0x00, .ext .rom), (0x20, .ext .icapS), (0xC0, .ext .hwram)] }

/-- `small` with every start factor at 0. -/
def otherFactor : State :=
  let k : DmaRegs := { plainRegs with md := 0 }
  { small with dma := ⟨k, k, k⟩ }

/-- `small` with every channel in indirect mode and its table at 0x06000000. -/
def indirectMode : State :=
  let k : DmaRegs := { plainRegs with w := 0x06000000, md := 0x01000007 }
  { small with dma := ⟨k, k, k⟩ }

/-- A wide copy whose read address is the controller's. -/
def readsCtrl : State :=
  { small with ch := { small.ch with c0 := { copying.ch.c0 with ra := 0x05FE0000 } } }

/-- A wide copy whose write address is the controller's. -/
def writesCtrl : State :=
  { small with ch := { small.ch with c0 := { copying.ch.c0 with wa := 0x05FEFFFC } } }

/-- A chain whose descriptor is at `p`. -/
def loadsCtrl (p : Word) : State :=
  { small with ch := { small.ch with c0 := { chained.ch.c0 with ptr := p } } }

/-- A wide fill. -/
def wideFilling : State :=
  { small with ch := { small.ch with c0 := { copying.ch.c0 with raAdd := 0 } } }

theorem witness_DecodeOfEncode :
    (Instr.map 6 7 (.ext (.other 17))).wf [17] = true ∧ (Instr.reservedOffset 0xFC 0xFF (.write 5)).wf [] = true
    ∧ (Instr.zone0PageTable 0x1FFFFFFF (.write8 0xFF)).wf [] = true ∧ (Instr.raise 0xFF 0xF 0xFFFF 1).wf [] = true := by
  decide

theorem witness_EncodeOfDecode :
    decodeFor false [17] [0x10, 0, 0, 0, 0xFF, 0, 0, 0, 0, 0, 0, 0, 0x11, 0x40]
      = .command (.map 0xFF 0 (.ext (.other 17))) [0x40]
    ∧ decodeFor true [] (record 0x05FEFFFC 0x04 5) = .command (.reservedOffset 0xFC 0xFF (.write 5)) [] := by decide

theorem witness_InvalidCommandsRefused_reserved :
    ∀ op ∈ [0x03, 0x07, 0x08, 0x0F, 0x15, 0x1F, 0x22, 0x2F, 0x34, 0x3F, 0x41, 0x4F, 0x50, 0xFF],
      reservedOpcode op = true := by decide

theorem witness_InvalidCommandsRefused_operand :
    reservedOpcode 0x30 = false ∧ [(0xFF : Word), 0x10, 0, 0].length = (operandFields 0x30).length
    ∧ ∃ x ∈ [(0xFF : Word), 0x10, 0, 0].zip (operandFields 0x30), 2 ^ x.2 ≤ x.1.toNat := by decide

theorem witness_InvalidCommandsRefused_step :
    let s : State := { small with stream := [0x12, 0, 0, 0, 0, 0, 0, 0, 0, 0, 0, 0, 0, 0, 0, 0, 0x04] }
    s.refusalMark = false ∧ s.port = [] ∧ decode s.cfg.extraDevices s.stream = .invalid .operandAboveField := by decide

theorem witness_UnknownDeviceRefused : 17 ≤ (17 : Word).toNat ∧ (17 : Word) ∉ small.cfg.extraDevices := by decide

theorem witness_StepRunsDecoded_command :
    let s : State := { small with stream := [0x40, 0x21] }
    s.refusalMark = false ∧ s.port = [] ∧ decode s.cfg.extraDevices s.stream = .command .reset [0x21] := by decide

theorem witness_StepRunsDecoded_access :
    let s : State := { small with port := record 0x05FE00A0 0x00 0, stream := [0x40] }
    s.refusalMark = false ∧ s.port ≠ [] ∧ decodeAccess s.port = .command (.ims 0 .read) [] := by decide

theorem witness_StepRunsDecoded_incomplete :
    let s : State := { small with stream := [0x20, 0, 0, 0] }
    s.refusalMark = false ∧ s.port = [] ∧ decode s.cfg.extraDevices s.stream = .incomplete := by decide

theorem witness_StepRunsDecoded_incomplete_access :
    let s : State := { small with port := [0x05] }
    s.refusalMark = false ∧ s.port ≠ [] ∧ decodeAccess s.port = .incomplete := by decide

theorem witness_RefusalMarkStays :
    why (step { small with stream := [0x03] }) = some .invalidCommand
    ∧ ({ small with refusalMark := true } : State).refusalMark = true ∧ ∃ t, exec .reset small = .next t :=
  ⟨by decide, rfl, next_of_see (by decide)⟩

/-- The steps that the invariants are stated over exist. -/
theorem witness_StepAppendsHistory :
    ∃ t, step { small with stream := [0x02, 0x06, 0, 0, 0] } = .next t := next_of_see (by decide)

/-- The clauses: a read, a write, the first and the last forwarded row, a DSP step, a read and a write of the engine. -/
theorem witness_HandlerCommandsRunInside :
    let s : State := { small with script := [⟨7, [.raise 0x4B 5 0x0800 0x0800]⟩] }
    s.script = ⟨7, [.raise 0x4B 5 0x0800 0x0800]⟩ :: []
    ∧ (s.reachesCtrl 0x26000010 = false ∧ s.target (.read .w16) 0x26000010 = some (.device .hwram, 0x06000010))
    ∧ (s.reachesCtrl 0x05FDFFFF = false ∧ s.target (.write8 3) 0x60000000 = none
      ∧ s.target (.write32 3) 0x60000000 = some (.addrArray, 0x60000000) ∧ s.reachesCtrl 0x60000000 = false)
    ∧ (s.CtrlMapped ∧ ((0x80 : BitVec 8), Instr.ppaf 0 (.write 7)) ∈ forwardedRows 0 (.write 7)
      ∧ ((0xC8 : BitVec 8), Instr.ver 0xFF .read) ∈ forwardedRows 0xFF .read)
    ∧ ((s.chan .c0).active = false ∧ (s.chan .c1).active = false ∧ (s.chan .c2).active = false)
    ∧ s.script.length ≤ 1 ∧ s.target (.read .w32) 0x06000000 = some (.device .hwram, 0x06000000)
    ∧ s.target (.write16 9) 0x05C00000 = some (.device .vdp1, 0x05C00000) ∧ s.reachesCtrl 0x05C00000 = false := by
  decide

theorem witness_QueueInvariantKept :
    let s : State :=
      { small with
        q := [rec 0x4B 5 0x0800 0x0800, rec 0x4C 3 0x1000 0x1000]
        stream := [0x30, 0, 0, 0, 0x4A, 0, 0, 0, 0x06, 0, 0, 0x04, 0, 0, 0, 0x04, 0] }
    QueueOk s.cfg.priorityOrder s.q ∧ ∃ t, step s = .next t := ⟨by decide, next_of_see (by decide)⟩

theorem witness_TablesInvariantKept :
    let s : State := { small with stream := [0x10, 0, 0, 0, 0x04, 0, 0, 0, 0xFF, 0, 0, 0, 0] }
    s.TablesOk ∧ ∃ t, step s = .next t := ⟨by decide, next_of_see (by decide)⟩

theorem witness_IdleChannelsZeroKept :
    let s : State := { copying with script := [⟨5, [.reset]⟩], stream := [0x20, 0, 0, 0, 3] }
    (∀ c, ChannelOk (s.chan c)) ∧ (∃ t, step s = .next t) ∧ ∃ t, exec .drain s = .next t :=
  ⟨fun c => by cases c <;> decide, next_of_see (by decide), next_of_see (by decide)⟩

theorem witness_TablesChangeOnlyByConfiguration :
    small.Quiet ∧ (∃ t, exec (.map 0 255 .unhandled) small = .next t)
    ∧ (∃ t, exec (.mfill 0 0xFFFF 5 true true) small = .next t) ∧ ∃ t, exec .retest small = .next t :=
  ⟨by decide, next_of_see (by decide), next_of_see (by decide), next_of_see (by decide)⟩

theorem witness_MapResult :
    DeviceId.named small.cfg.extraDevices .combo = true
    ∧ DeviceId.named small.cfg.extraDevices .unhandled = true := by decide

/-- The first and the last page of a fill are in its range, the pages before and after are not. -/
theorem witness_MfillResult :
    let covered (a : Word) : Prop :=
      (0x00010000 : Word).toNat / 65536 ≤ a.toNat / 65536 ∧ a.toNat / 65536 ≤ (0x0002FFFF : Word).toNat / 65536
    covered 0x00010000 ∧ covered 0x0002FFFF ∧ ¬ covered 0x0000FFFF ∧ ¬ covered 0x00030000 := by decide

/-- What the statement asks of an access and of the zone row that stands for it. -/
def routed (s : State) (addr : Word) (zone : BitVec 3) (a : BitVec 29) : Bool :=
  !s.reachesCtrl addr && addr == withZone zone a

/-- One address of every zone, at the first or the last of it. -/
theorem witness_BusAccessFollowsZoneTable :
    (State.answering small [5]).Quiet
    ∧ routed small 0x00000000 0 0 ∧ routed small 0x3FFFFFFF 1 0x1FFFFFFF ∧ routed small 0x5FFFFFFF 2 0x1FFFFFFF
    ∧ routed small 0x60000000 3 0 ∧ routed small 0x9FFFFFFF 4 0x1FFFFFFF ∧ routed small 0xBFFFFFFF 5 0x1FFFFFFF
    ∧ routed small 0xC0000000 6 0 ∧ routed small 0xFFFFFFFF 7 0x1FFFFFFF := by
  decide

/-- What the statement asks of an address and of the register row that stands for it. -/
def registerAt (addr : Word) (off m : BitVec 8) : Bool :=
  specPaged addr && specA29 addr == BitVec.ofNat 32 (0x05FE0000 + 256 * m.toNat + off.toNat) && off.toNat % 4 == 0

theorem witness_BusReachesRegisterRow :
    registerAt 0x05FE0000 0 0 ∧ registerAt 0x25FEFFFC 0xFC 0xFF ∧ registerAt 0xA5FE00FC 0xFC 0 := by
  decide

/-- The clauses, at the first and the last byte of the controller page. -/
theorem witness_NarrowControllerAccess :
    (small.reachesCtrl 0x05FE0000 = true ∧ Width.w8 ≠ .w32)
    ∧ small.reachesCtrl 0x25FEFFFF = true ∧ (0x25FEFFFF : Word).toNat % 4 ≠ 0 := by decide

theorem witness_DmaRegisterWrite : small.CtrlMapped ∧ DmaField.md ≠ .en ∧ DmaField.r ≠ .en := by decide

/-- The hypothesis that the register statements share: DMA registers, IMS, IST, AIACK. -/
theorem witness_DmaRegisterRead : small.CtrlMapped := by decide

theorem witness_InterruptRegisterRead : ({ small with ims := 0xFFFF, ist := 0xFFFFFFFF, aiack := true } : State).CtrlMapped := by
  decide

theorem witness_ImsWrite :
    ({ small with q := [rec 0x4B 5 0x0800 0x0800], ist := 0x0800 } : State).CtrlMapped := by decide

theorem witness_IstWrite :
    ({ small with q := [rec 0x4B 5 0x0800 0x0801], ist := 0x0801 } : State).CtrlMapped := by decide

theorem witness_AiackWrite :
    small.CtrlMapped ∧ (0xFFFFFFFF : Word).getLsbD 0 = true ∧ (0xFFFFFFFE : Word).getLsbD 0 = false := by decide

theorem witness_DrawRegisters :
    small.CtrlMapped
    ∧ (∀ off ∈ [(0x18 : BitVec 8), 0x1C, 0x38, 0x9C, 0xFC], off.toNat % 4 = 0 ∧ off ∉ namedOffsets)
    ∧ (0xFFFFFFFE : Word).getLsbD 0 = false ∧ (1 : Word).getLsbD 0 = true := by decide

theorem witness_ForwardedRegisters :
    let s := State.answering small [5]
    s.CtrlMapped ∧ s.Quiet ∧ ((0xC8 : BitVec 8), Instr.ver 0xFF .read) ∈ forwardedRows 0xFF .read := by decide

theorem witness_RegisterRowsBehindStub :
    (0xFC : BitVec 8).toNat % 4 = 0 ∧ State.reset.page 0xBF = .unhandled := by decide

theorem witness_RetestLeavesMasked :
    let s : State := { small with ims := 0x0800, q := [rec 0x4B 5 0x0800 0x0800, rec 0x4C 3 0x1000 0x1000] }
    s.cfg.retestMode = .all ∧ (∃ t, exec .retest s = .next t)
    ∧ see (exec .retest s) (fun t => t.q) = some [rec 0x4B 5 0x0800 0x0800] :=
  ⟨by decide, next_of_see (by decide), by decide⟩

theorem witness_PriorityOrderOfDelivery :
    small.CtrlMapped ∧ small.q = [] ∧ small.cfg.priorityOrder = .lowLevelFirst ∧ small.cfg.retestMode = .all
    ∧ (0x4C : BitVec 8) ≠ 0x4B ∧ (0 : BitVec 4).toNat < (15 : BitVec 4).toNat
    ∧ (0x0800 : BitVec 16) &&& small.ims ≠ 0 ∧ (0x0800 : BitVec 16) &&& (0 : Word).setWidth 16 = 0 := by decide

/-- The first two clauses: EN with another start factor; GO alone at start factor 7. -/
theorem witness_EnableWriteWithoutStart_refused :
    otherFactor.CtrlMapped ∧ (0x100 : Word).getLsbD 8 = true ∧ (∀ c, (otherFactor.regs c).md.toNat % 8 ≠ 7)
    ∧ (0x001 : Word).getLsbD 8 = false ∧ (0x001 : Word).getLsbD 0 = true ∧ ∀ c, (small.regs c).md.toNat % 8 = 7 :=
  ⟨by decide, by decide, fun c => by cases c <;> decide, by decide, by decide, fun c => by cases c <;> decide⟩

/-- The third clause, each of its three cases. -/
theorem witness_EnableWriteWithoutStart_stored :
    small.CtrlMapped
    ∧ ((0x100 : Word).getLsbD 8 = true ∧ (0x100 : Word).getLsbD 0 = false ∧ (small.regs .c0).md.toNat % 8 = 7)
    ∧ ((0x001 : Word).getLsbD 8 = false ∧ (otherFactor.regs .c1).md.toNat % 8 ≠ 7)
    ∧ (0xFFFFFEFE : Word).getLsbD 8 = false ∧ (0xFFFFFEFE : Word).getLsbD 0 = false
    ∧ (small.regs .c2).md.toNat % 8 = 7 := by decide

theorem witness_DirectArm :
    small.CtrlMapped ∧ (0x101 : Word).getLsbD 8 = true ∧ (0x101 : Word).getLsbD 0 = true
    ∧ ∀ c, (small.regs c).md.toNat % 8 = 7 ∧ (small.regs c).md.getLsbD 24 = false ∧ (small.chan c).active = false :=
  ⟨by decide, by decide, by decide, fun c => by cases c <;> decide⟩

theorem witness_IndirectArm :
    let s := State.answering indirectMode [8, 0x06010000, 0x86020000]
    s.CtrlMapped ∧ s.Quiet
    ∧ (∀ c, (s.regs c).md.toNat % 8 = 7 ∧ (s.regs c).md.getLsbD 24 = true ∧ (s.chan c).active = false)
    ∧ ∀ c, ∀ k ∈ [0, 4, 8], s.reachesCtrl ((s.regs c).w + BitVec.ofNat 32 k) = false :=
  ⟨by decide, by decide, fun c => by cases c <;> decide, fun c => by cases c <;> decide⟩

theorem witness_RearmDrainsFirst :
    copying.CtrlMapped ∧ (0x101 : Word).getLsbD 8 = true ∧ (0x101 : Word).getLsbD 0 = true
    ∧ (copying.regs .c0).md.toNat % 8 = 7 ∧ (copying.chan .c0).active = true
    ∧ ∃ t, exec (enableRow .c0 0 (.write 0x101)) (State.answering copying [1, 0, 2, 0]) = .next t :=
  ⟨by decide, by decide, by decide, by decide, by decide, next_of_see (by decide)⟩

/-- A wide and a narrow copy. -/
theorem witness_CopyUnit :
    let s := State.answering copying [5]
    let n : State := { s with ch := { s.ch with c0 := { s.ch.c0 with narrow := true } } }
    (s.Quiet ∧ (s.chan .c0).active = true ∧ (s.chan .c0).raAdd ≠ 0 ∧ s.avoidsCtrl .c0 1)
    ∧ n.Quiet ∧ (n.chan .c0).active = true ∧ (n.chan .c0).raAdd ≠ 0 ∧ n.avoidsCtrl .c0 1 := by
  decide

theorem witness_NarrowFillUnit :
    let s := State.answering filling [5]
    s.Quiet ∧ (s.chan .c2).active = true ∧ (s.chan .c2).raAdd = 0 ∧ (s.chan .c2).narrow = true
    ∧ s.avoidsCtrl .c2 1 := by decide

theorem witness_WideFillUnit :
    let s := State.answering wideFilling [5]
    s.Quiet ∧ (s.chan .c0).active = true ∧ (s.chan .c0).raAdd = 0 ∧ (s.chan .c0).narrow = false
    ∧ s.avoidsCtrl .c0 1 := by decide

/-- The three clauses: a read, a write, and each read of a descriptor that reaches the controller. -/
theorem witness_EngineNeverReachesController :
    (readsCtrl.Quiet ∧ (readsCtrl.chan .c0).active = true ∧ (readsCtrl.chan .c0).unitReads = true
      ∧ readsCtrl.reachesCtrl (readsCtrl.chan .c0).ra = true)
    ∧ (writesCtrl.Quiet ∧ (writesCtrl.chan .c0).active = true ∧ writesCtrl.reachesCtrl (writesCtrl.chan .c0).ra = false
      ∧ writesCtrl.reachesCtrl (writesCtrl.chan .c0).wa = true)
    ∧ ((loadsCtrl 0x05FE0000).Quiet ∧ ((loadsCtrl 0x05FE0000).chan .c0).active = true
      ∧ (loadsCtrl 0x05FE0000).reachesCtrl (((loadsCtrl 0x05FE0000).chan .c0).ptr + BitVec.ofNat 32 0) = true)
    ∧ (loadsCtrl 0x05FDFFFC).reachesCtrl (((loadsCtrl 0x05FDFFFC).chan .c0).ptr + BitVec.ofNat 32 4) = true
    ∧ (loadsCtrl 0x05FDFFF8).reachesCtrl (((loadsCtrl 0x05FDFFF8).chan .c0).ptr + BitVec.ofNat 32 8) = true := by
  decide

/-- The two clauses: an indirect transfer with a descriptor to come, an indirect one at its last, a direct one. -/
theorem witness_BurstEnd :
    let final : State := { small with ch := { small.ch with c0 := { copying.ch.c0 with indirect := true } } }
    ((closeSegment .c0 chained).chan .c0).indirect = true ∧ ((closeSegment .c0 chained).chan .c0).last = false
    ∧ ((closeSegment .c0 final).chan .c0).last = true ∧ ((closeSegment .c0 copying).chan .c0).indirect = false := by
  decide

theorem witness_IdleStep : (∀ c, (small.chan c).active = false) ∧ small.Quiet :=
  ⟨fun c => by cases c <;> decide, by decide⟩

/-- With the default map, a copy, a chain and a fill whose accesses avoid the controller; and a map without it. -/
theorem witness_ExecCompletes :
    let s : State := { small with ch := ⟨copying.ch.c0, { chained.ch.c0 with tn := 8 }, filling.ch.c2⟩ }
    let n : State := { noCombo with ch := ⟨copying.ch.c0, chained.ch.c0, filling.ch.c2⟩ }
    (s.Quiet ∧ execAvoids (handlers s) (1 : Word).toNat s = true) ∧ n.Quiet ∧ n.NoCombo := by decide

/-- An environment in which each call re-arms channel 0: its transfer never ends. -/
def endlessNest : Nest := fun _ _ => .next { copying with script := [⟨0, []⟩] }

/-- A state of that endless transfer: one unit after the re-arm. -/
def endless : State :=
  let s : State := { copying with script := [⟨0, []⟩] }
  s.modChan .c0 fun k => afterWrite 4 { k with ra := k.ra + 4 }

/-- A unit of the endless transfer leads back to where it started. -/
theorem test_endless_tick : tick endlessNest .c0 endless = .next endless := by
  have h : see (tick endlessNest .c0 endless) id = some endless := by decide
  cases hx : tick endlessNest .c0 endless <;> simp_all [see]

theorem test_endless_ticks (n : Nat) : ticks endlessNest .c0 n endless = .next endless := by
  induction n with
  | zero => rfl
  | succ n ih => rw [ticks_succ_of_active n (by decide), test_endless_tick]; exact ih

/-- A drain that ends, one that is refused, and one that never ends. -/
theorem witness_DrainCompletes_drain :
    let s := State.answering copying [1, 0, 2, 0]
    (∃ n t, ticks (handlers s) .c0 n s = .next t ∧ (t.chan .c0).active = false)
    ∧ (∃ n, ticks (handlers s) .c0 n readsCtrl = .refused .dmaToController)
    ∧ (∀ n, ∃ t, ticks endlessNest .c0 n endless = .next t ∧ (t.chan .c0).active = true)
    ∧ ∃ f, drainChannel endlessNest .c0 endless = .fault f := by
  refine ⟨⟨2, _, rfl, by decide⟩, ⟨1, rfl⟩, fun n => ⟨_, test_endless_ticks n, by decide⟩, .dmaHang, ?_⟩
  rw [drainChannel_eq]
  cases h : drainLoop endlessNest .c0 endless with
  | none => rfl
  | some r =>
    obtain ⟨n, hn, hi⟩ := drainLoop_eq_some h
    rw [test_endless_ticks] at hn
    exact absurd (hi _ hn.symm) (by decide)

/-- Direct transfers with the default map whose accesses avoid the controller, and any direct transfers without it. -/
theorem witness_DrainCompletes :
    let s : State := { small with ch := ⟨copying.ch.c0, { Channel.idle with indirect := true }, filling.ch.c2⟩ }
    let n : State := { noCombo with ch := s.ch }
    (s.Quiet ∧ ∀ c, (s.chan c).active = true → (s.chan c).indirect = false
      ∧ 0 < (s.chan c).tn.toInt ∧ s.avoidsCtrl c (s.chan c).unitsLeft)
    ∧ n.Quiet ∧ n.NoCombo ∧ ∀ c, (n.chan c).active = true → (n.chan c).indirect = false :=
  ⟨⟨by decide, fun c => by cases c <;> decide⟩, by decide, by decide, fun c => by cases c <;> decide⟩

/-- A budget below the units that are left, and one that reaches them. -/
theorem witness_DirectTransferByBudget :
    copying.Quiet ∧ (copying.chan .c0).active = true ∧ (copying.chan .c0).indirect = false
    ∧ 0 < (copying.chan .c0).tn.toInt ∧ copying.avoidsCtrl .c0 (copying.chan .c0).unitsLeft
    ∧ 1 < (copying.chan .c0).unitsLeft ∧ (copying.chan .c0).unitsLeft ≤ 2 := by decide

theorem witness_EngineRaisesOnlyEnds :
    let s := State.answering copying [1, 0, 2, 0]
    s.Quiet ∧ (∃ t, exec .drain s = .next t) ∧ (∃ t, exec (.exec 5) s = .next t)
    ∧ s.CtrlMapped ∧ ∃ t, exec (enableRow .c0 0 (.write 0x101)) s = .next t :=
  ⟨by decide, next_of_see (by decide), next_of_see (by decide), by decide, next_of_see (by decide)⟩

/-- Within a burst, at the end of one that has a successor, at the end of the last; and ticks that leave the channel
active and that leave it idle. -/
theorem witness_IndirectChainEnds :
    let within : State := { chained with ch := { chained.ch with c0 := { chained.ch.c0 with tn := 8 } } }
    let final : State := { chained with ch := { chained.ch with c0 := { chained.ch.c0 with last := true } } }
    (∀ s ∈ [within, chained, final],
      s.Quiet ∧ (s.chan .c0).active = true ∧ s.tickAvoids .c0 = true ∧ (s.chan .c0).indirect = true)
    ∧ see (ticks (handlersTo 0) .c0 1 within) (fun t => (t.chan .c0).active) = some true
    ∧ see (ticks (handlersTo 0) .c0 3 final) (fun t => (t.chan .c0).active) = some false := by decide

end Sys2Proof.Tests
end

/-! SUPPORT. What one step can do, said once: the fetch, the step, and how an invariant of every primitive update is one of
every step. -/

namespace Sys2Proof.Machine

variable {s t u : State} {i : Instr} {rest : List Byte}

/-! The fetch. -/

/-- With no bus-port record waiting, the stream's command is fetched. -/
theorem fetch_of_stream_command (hp : s.port = []) (h : decode s.cfg.extraDevices s.stream = .command i rest) :
    fetch s = .run i { s with stream := rest, pos := s.pos + 1 } := by
  simp [fetch, hp, h]

/-- A waiting bus-port record is fetched, whatever the stream holds. -/
theorem fetch_of_port_command (hp : s.port ≠ []) (h : decodeAccess s.port = .command i rest) :
    fetch s = .run i { s with port := rest, pos := s.pos + 1 } := by
  obtain ⟨b, bs, hb⟩ := List.exists_cons_of_ne_nil hp
  rw [hb] at h
  simp [fetch, hb, h]

theorem fetch_of_stream_incomplete (hp : s.port = []) (h : decode s.cfg.extraDevices s.stream = .incomplete) :
    fetch s = .wait := by
  simp [fetch, hp, h]

theorem fetch_of_port_incomplete (hp : s.port ≠ []) (h : decodeAccess s.port = .incomplete) : fetch s = .wait := by
  obtain ⟨b, bs, hb⟩ := List.exists_cons_of_ne_nil hp
  rw [hb] at h
  simp [fetch, hb, h]

/-- A fetch consumes input bytes and moves the position by one; it changes nothing else. -/
theorem fetch_eq_run (h : fetch s = .run i u) :
    ∃ stream port, u = { s with stream := stream, port := port, pos := s.pos + 1 } := by
  unfold fetch at h
  split at h <;> split at h <;> cases h
  · exact ⟨_, _, rfl⟩
  · exact ⟨_, _, rfl⟩

/-! The step. -/

theorem step_of_fetch_run (hm : s.refusalMark = false) (hf : fetch s = .run i u) : step s = exec i u := by
  simp [step, hm, hf]

theorem step_of_fetch_wait (hm : s.refusalMark = false) (hf : fetch s = .wait) : step s = .next s := by
  simp [step, hm, hf]

/-- A run that carries the mark is refused at every step. -/
theorem step_of_marked (hm : s.refusalMark = true) : step s = .refused .refusedBefore := by
  simp [step, hm]

/-- Everything a step that answers a state can do: wait, or run one instruction from the state with its bytes gone. -/
theorem step_eq_next (h : step s = .next t) :
    t = s ∨ ∃ i stream port, exec i { s with stream := stream, port := port, pos := s.pos + 1 } = .next t := by
  unfold step at h
  split at h
  · cases h
  · split at h
    · next i u hf =>
      obtain ⟨stream, port, rfl⟩ := fetch_eq_run hf
      exact .inr ⟨i, stream, port, h⟩
    · cases h; exact .inl rfl
    · cases h

/-- The step of a run that goes on after a refusal. -/
theorem markedStep_of_refused {r : Refusal} (h : step s = .refused r) :
    s.markedStep = { s with refusalMark := true } := by
  simp [State.markedStep, h]

/-- An invariant that every primitive update keeps, and that does not look at the inputs, is kept by every step. -/
theorem Kept.step_invariant {P : State → Prop} (K : Kept fun s t => P s → P t)
    (inputs : ∀ s stream port pos, P s → P { s with stream := stream, port := port, pos := pos })
    (h : step s = .next t) (hs : P s) : P t := by
  rcases step_eq_next h with rfl | ⟨i, stream, port, h⟩
  · exact hs
  · exact K.exec h (inputs s _ _ _ hs)

end Sys2Proof.Machine

/-! SUPPORT. What instructions leave alone: the parameters, the position, the mark and the history's past in every
environment, and the tables in a quiet one. -/

namespace Sys2Proof.Machine

variable {s t : State}

/-! The run's own record. -/

/-- What no instruction undoes: the history only grows, and the parameters, the position and the refusal mark stay. -/
structure RunExtended (s t : State) : Prop where
  history : ∃ events, t.history = s.history ++ events
  cfg : t.cfg = s.cfg
  pos : t.pos = s.pos
  mark : t.refusalMark = s.refusalMark

theorem RunExtended.of_sameHistory (hh : t.history = s.history) (hc : t.cfg = s.cfg) (hp : t.pos = s.pos)
    (hm : t.refusalMark = s.refusalMark) : RunExtended s t :=
  ⟨⟨[], by rw [hh, List.append_nil]⟩, hc, hp, hm⟩

theorem RunExtended.trans {u : State} (h : RunExtended s t) (k : RunExtended t u) : RunExtended s u := by
  obtain ⟨a, ha⟩ := h.history
  obtain ⟨b, hb⟩ := k.history
  exact ⟨⟨a ++ b, by rw [hb, ha, List.append_assoc]⟩, k.cfg.trans h.cfg, k.pos.trans h.pos, k.mark.trans h.mark⟩

/-- Every primitive update extends the run's record, RESET's included (10_state.md R35, R36). -/
theorem runExtended_kept : Kept RunExtended where
  refl _ := .of_sameHistory rfl rfl rfl rfl
  trans := RunExtended.trans
  ret _ _ := .of_sameHistory rfl rfl rfl rfl
  draws _ _ := .of_sameHistory rfl rfl rfl rfl
  script _ _ _ := .of_sameHistory rfl rfl rfl rfl
  emit _ e := ⟨⟨[e], rfl⟩, rfl, rfl, rfl⟩
  modChan _ _ _ _ := .of_sameHistory rfl rfl rfl rfl
  modRegs _ _ _ := .of_sameHistory rfl rfl rfl rfl
  ims _ _ := .of_sameHistory rfl rfl rfl rfl
  ist _ _ := .of_sameHistory rfl rfl rfl rfl
  aiack _ _ := .of_sameHistory rfl rfl rfl rfl
  enqueue r s := by rw [enqueue_eq]; exact .of_sameHistory rfl rfl rfl rfl
  dequeue _ _ _ := .of_sameHistory rfl rfl rfl rfl
  mapPages _ _ _ _ := .of_sameHistory rfl rfl rfl rfl
  clearPages _ := .of_sameHistory rfl rfl rfl rfl
  fillMasks _ _ := .of_sameHistory rfl rfl rfl rfl
  resetBlock _ := .of_sameHistory rfl rfl rfl rfl

/-! The arbiter. -/

/-- Only the arbiter's part of the state changed: the queue, IMS, IST, AIACK and the history. -/
def ArbiterOnly (s t : State) : Prop :=
  ∃ q ims ist aiack history, t = { s with q := q, ims := ims, ist := ist, aiack := aiack, history := history }

theorem ArbiterOnly.refl (s : State) : ArbiterOnly s s := ⟨_, _, _, _, _, rfl⟩

theorem ArbiterOnly.trans {u : State} (h : ArbiterOnly s t) (k : ArbiterOnly t u) : ArbiterOnly s u := by
  obtain ⟨_, _, _, _, _, rfl⟩ := h
  obtain ⟨_, _, _, _, _, rfl⟩ := k
  exact ⟨_, _, _, _, _, rfl⟩

theorem deliverNow_arbiterOnly (v : BitVec 8) (l : BitVec 4) (s : State) : ArbiterOnly s (deliverNow v l s) := by
  unfold deliverNow
  dsimp only
  split <;> exact ⟨_, _, _, _, _, rfl⟩

theorem holdBack_arbiterOnly (r : IrqRecord) (s : State) : ArbiterOnly s (holdBack r s) := by
  unfold holdBack
  rw [enqueue_eq]
  exact ⟨_, _, _, _, _, rfl⟩

theorem raiseIrq_arbiterOnly (r : IrqRecord) (s : State) : ArbiterOnly s (raiseIrq r s) := by
  have acknowledged : ArbiterOnly s { s with aiack := false } := ⟨_, _, _, _, _, rfl⟩
  unfold raiseIrq
  split
  · split
    · dsimp only
      split
      · exact acknowledged.trans (deliverNow_arbiterOnly _ _ _)
      · exact acknowledged.trans (holdBack_arbiterOnly _ _)
    · exact holdBack_arbiterOnly _ _
  · split
    · exact deliverNow_arbiterOnly _ _ _
    · exact holdBack_arbiterOnly _ _

theorem retestPasses_arbiterOnly (n : Nat) (s : State) : ArbiterOnly s (retestPasses n s) := by
  induction n generalizing s with
  | zero => exact .refl s
  | succ n ih =>
    simp only [retestPasses]
    split
    · exact .refl s
    · next r rest _ =>
      have delivered : ArbiterOnly s (deliverQueued r rest s) := ⟨_, _, _, _, _, rfl⟩
      exact delivered.trans (ih _)

theorem retestQueue_arbiterOnly (s : State) : ArbiterOnly s (retestQueue s) := by
  unfold retestQueue
  split <;> exact retestPasses_arbiterOnly _ _

theorem removeByStatus_arbiterOnly (b a : BitVec 32) (s : State) : ArbiterOnly s (removeByStatus b a s) :=
  ⟨_, _, _, _, _, rfl⟩

theorem removeVector_arbiterOnly (v : BitVec 8) (b : BitVec 32) (s : State) : ArbiterOnly s (removeVector v b s) :=
  ⟨_, _, _, _, _, rfl⟩

/-! The tables in a quiet environment. -/

/-- The page table and the region mask tables are the same. -/
structure SameTables (s t : State) : Prop where
  pt : t.pt = s.pt
  mr : t.mr = s.mr
  mw : t.mw = s.mw

/-- From a quiet state the tables stay, and the environment stays quiet. -/
abbrev QuietSameTables (s t : State) : Prop := s.Quiet → t.Quiet ∧ SameTables s t

theorem QuietSameTables.of_arbiterOnly (h : ArbiterOnly s t) : QuietSameTables s t := by
  obtain ⟨_, _, _, _, _, rfl⟩ := h
  exact fun hq => ⟨hq, rfl, rfl, rfl⟩

theorem QuietSameTables.trans {u : State} (h : QuietSameTables s t) (k : QuietSameTables t u) :
    QuietSameTables s u := fun hq => by
  obtain ⟨ht, htpt, htmr, htmw⟩ := h hq
  obtain ⟨hu, hupt, humr, humw⟩ := k ht
  exact ⟨hu, hupt.trans htpt, humr.trans htmr, humw.trans htmw⟩

/-- A call of a quiet environment runs no command, so it leaves the tables as they are. -/
theorem quietSameTables_call {n : Nat} {r : Reaction} {rest : List Reaction} {e : Event} (hs : s.script = r :: rest)
    (h : handlersTo n r.nested (State.emit { s with script := rest } e) = .next t) : QuietSameTables s t := fun hq => by
  rw [hq r (by simp [hs]), handlersTo_nil] at h
  cases h
  exact ⟨fun x hx => hq x (by rw [hs]; exact List.mem_cons_of_mem r hx), rfl, rfl, rfl⟩

/-- What accesses, the DMA engine and the controller registers do in a quiet environment leaves the tables alone. -/
theorem quietSameTables_kept (n : Nat) : CtrlKept QuietSameTables (handlersTo n) where
  refl _ hq := ⟨hq, rfl, rfl, rfl⟩
  trans := QuietSameTables.trans
  ret _ _ hq := ⟨hq, rfl, rfl, rfl⟩
  draws _ _ hq := ⟨hq, rfl, rfl, rfl⟩
  note _ _ _ hq := ⟨hq, rfl, rfl, rfl⟩
  call _ _ _ _ _ hs _ h := quietSameTables_call hs h
  modChan _ _ _ _ hq := ⟨hq, rfl, rfl, rfl⟩
  modRegs _ _ _ hq := ⟨hq, rfl, rfl, rfl⟩
  raiseEnd _ _ := .of_arbiterOnly (raiseIrq_arbiterOnly _ _)
  ims s v :=
    have stored : ArbiterOnly s { s with ims := v } := ⟨_, _, _, _, _, rfl⟩
    .of_arbiterOnly (stored.trans (retestQueue_arbiterOnly _))
  ist s v :=
    have stored : ArbiterOnly s { s with ist := s.ist &&& v } := ⟨_, _, _, _, _, rfl⟩
    .of_arbiterOnly (stored.trans (removeByStatus_arbiterOnly _ _ _))
  ack s :=
    have stored : ArbiterOnly s { s with aiack := true } := ⟨_, _, _, _, _, rfl⟩
    .of_arbiterOnly (stored.trans (retestQueue_arbiterOnly _))
  noAck _ hq := ⟨hq, rfl, rfl, rfl⟩

/-- An instruction that does not configure leaves the tables of a quiet state alone. -/
theorem exec_sameTables {i : Instr} (hq : s.Quiet) (hi : configures i = false) (h : exec i s = .next t) :
    SameTables s t := by
  rw [exec_eq_instrWith] at h
  by_cases hr : i = .retest
  · subst hr
    cases h
    obtain ⟨-, hpt, hmr, hmw⟩ := QuietSameTables.of_arbiterOnly (retestQueue_arbiterOnly s) hq
    exact ⟨hpt, hmr, hmw⟩
  · exact ((quietSameTables_kept _).instrWith hi hr h hq).2

end Sys2Proof.Machine

/-! SUPPORT. The three invariants of the state as relations that every primitive update keeps: the queue's
(10_state.md R29), the tables' canonical form (notes/assumptions/19.md), and an idle channel all zero
(10_state.md R27). -/

namespace Sys2Proof.Machine

/-! The queue. -/

/-- In a list that descends, the elements above a bound are counted by how many come first, and the others follow. -/
theorem take_drop_countP_of_descending {α : Type} {f : α → Nat} {n : Nat} {l : List α}
    (h : l.Pairwise fun x y => f y ≤ f x) :
    (∀ x ∈ l.take (l.countP fun x => decide (n < f x)), n < f x)
      ∧ ∀ x ∈ l.drop (l.countP fun x => decide (n < f x)), f x ≤ n := by
  induction l with
  | nil => simp
  | cons a l ih =>
    obtain ⟨ha, hl⟩ := List.pairwise_cons.1 h
    by_cases hn : n < f a
    · simpa [List.countP_cons, hn] using ih hl
    · have low : ∀ x ∈ l, f x ≤ n := fun x hx => Nat.le_trans (ha x hx) (Nat.not_lt.1 hn)
      have none : l.countP (fun x => decide (n < f x)) = 0 :=
        List.countP_eq_zero.2 fun x hx => by simpa using low x hx
      simpa [List.countP_cons, hn, none] using ⟨Nat.not_lt.1 hn, low⟩

/-- Putting a record at any place of a queue only permutes the queue with it in front. -/
theorem take_append_drop_perm (r : IrqRecord) (q : List IrqRecord) (i : Nat) :
    (q.take i ++ [r] ++ q.drop i).Perm (r :: q) := by
  have front := List.perm_middle (a := r) (l₁ := q.take i) (l₂ := q.drop i)
  rw [List.take_append_drop] at front
  rwa [List.append_assoc]

/-- An enqueue keeps the queue invariants: the duplicate test keeps the vectors apart, the capacity test the bound, and
the place of the record the order (44_interrupt_arbiter.md R176). -/
theorem enqueued_queueOk {order : PriorityOrder} {q : List IrqRecord} (h : QueueOk order q) (r : IrqRecord) :
    QueueOk order (enqueued order r q) := by
  obtain ⟨bounded, distinct, sorted⟩ := h
  unfold enqueued
  split
  · exact ⟨bounded, distinct, sorted⟩
  next accepted =>
  dsimp only
  simp only [Bool.or_eq_true, List.any_eq_true, beq_iff_eq, not_or, not_exists, not_and] at accepted
  obtain ⟨fresh, room⟩ := accepted
  have perm := take_append_drop_perm r q (q.countP fun x => decide (rank order r.level < rank order x.level))
  obtain ⟨above, below⟩ := take_drop_countP_of_descending (n := rank order r.level) sorted
  refine ⟨?_, ?_, ?_⟩
  · have := perm.length_eq
    simp only [List.length_cons] at this
    omega
  · refine (perm.pairwise_iff fun {x y} hxy => Ne.symm hxy).2 (List.pairwise_cons.2 ⟨fun x hx => ?_, distinct⟩)
    exact Ne.symm (fresh x hx)
  · rw [List.append_assoc]
    refine List.pairwise_append.2 ⟨sorted.sublist (List.take_sublist _ _), ?_, ?_⟩
    · exact List.pairwise_cons.2 ⟨below, sorted.sublist (List.drop_sublist _ _)⟩
    · intro x hx y hy
      have hxr := above x hx
      rcases List.mem_cons.1 hy with rfl | hy
      · exact Nat.le_of_lt hxr
      · exact Nat.le_trans (below y hy) (Nat.le_of_lt hxr)

/-- The queue invariants of a state, under its own priority order (10_state.md R29). -/
abbrev State.QueueInvariant (s : State) : Prop := QueueOk s.cfg.priorityOrder s.q

theorem queueOk_kept : Kept fun s t => s.QueueInvariant → t.QueueInvariant where
  refl _ h := h
  trans f g h := g (f h)
  ret _ _ h := h
  draws _ _ h := h
  script _ _ _ h := h
  emit _ _ h := h
  modChan _ _ _ _ h := h
  modRegs _ _ _ h := h
  ims _ _ h := h
  ist _ _ h := h
  aiack _ _ h := h
  enqueue r s h := by rw [enqueue_eq]; exact enqueued_queueOk h r
  dequeue _ _ hs h := h.sublist hs
  mapPages _ _ _ _ h := h
  clearPages _ h := h
  fillMasks _ _ h := h
  resetBlock _ _ := ⟨Nat.zero_le _, .nil, .nil⟩

/-! The tables. -/

theorem tablesOk_kept : Kept fun s t => s.TablesOk → t.TablesOk where
  refl _ h := h
  trans f g h := g (f h)
  ret _ _ h := h
  draws _ _ h := h
  script _ _ _ h := h
  emit _ _ h := h
  modChan _ _ _ _ h := h
  modRegs _ _ _ h := h
  ims _ _ h := h
  ist _ _ h := h
  aiack _ _ h := h
  enqueue r s h := by rw [enqueue_eq]; exact h
  dequeue _ _ _ h := h
  mapPages f l d _ h := mapPages_tablesOk h f l d
  clearPages _ h := ⟨tableWf_nil _ _, h.2⟩
  fillMasks m _ h := fillMasks_tablesOk h m
  resetBlock s _ := emptyTables_tablesOk s

/-! The channels. -/

/-- Every channel that is not active is all zero (10_state.md R27). -/
abbrev State.IdleChannelsZero (s : State) : Prop := ∀ c, ChannelOk (s.chan c)

/-- Changing one channel in a way that keeps it zero while idle keeps every channel so. -/
theorem modChan_idleChannelsZero {s : State} {c : Chan} {f : Channel → Channel}
    (hf : ChannelOk (s.chan c) → ChannelOk (f (s.chan c))) (h : s.IdleChannelsZero) :
    (s.modChan c f).IdleChannelsZero := fun d => by
  by_cases hd : c = d
  · subst hd
    rw [chan_modChan_self]
    exact hf (h c)
  · rw [chan_modChan_ne s hd]
    exact h d

theorem resetBlock_idleChannelsZero (s : State) : (resetBlock s).IdleChannelsZero := fun c _ => by
  cases c <;> rfl

theorem idleChannelsZero_kept : Kept fun s t => s.IdleChannelsZero → t.IdleChannelsZero where
  refl _ h := h
  trans f g h := g (f h)
  ret _ _ h := h
  draws _ _ h := h
  script _ _ _ h := h
  emit _ _ h := h
  modChan _ _ _ hf h := modChan_idleChannelsZero hf h
  modRegs _ _ _ h := h
  ims _ _ h := h
  ist _ _ h := h
  aiack _ _ h := h
  enqueue r s h := by rw [enqueue_eq]; exact h
  dequeue _ _ _ h := h
  mapPages _ _ _ _ h := h
  clearPages _ h := h
  fillMasks _ _ h := h
  resetBlock s _ := resetBlock_idleChannelsZero s

end Sys2Proof.Machine

/-! SUPPORT. The values right after reset (10_state.md R40 to R42). -/

namespace Sys2Proof.Machine

/-- The place of a register among the three of a channel that a reset leaves unspecified (10_state.md R42). -/
def unspecifiedPlace : DmaField → Nat
  | .w => 1
  | .c => 2
  | _ => 0

/-- The place of a channel. -/
def chanPlace : Chan → Nat
  | .c0 => 0
  | .c1 => 1
  | .c2 => 2

theorem chanPlace_injective : ∀ {c d : Chan}, chanPlace c = chanPlace d → c = d
  | .c0, .c0, _ | .c1, .c1, _ | .c2, .c2, _ => rfl

theorem unspecifiedPlace_lt (f : DmaField) : unspecifiedPlace f < 3 := by
  cases f <;> decide

theorem unspecifiedPlace_injective : ∀ f ∈ [DmaField.r, .w, .c], ∀ g ∈ [DmaField.r, .w, .c],
    unspecifiedPlace f = unspecifiedPlace g → f = g := by
  decide

/-- The draw that an unspecified register of a channel holds right after reset (notes/assumptions/10.md). -/
def resetDraw (c : Chan) (f : DmaField) : Nat := 3 * chanPlace c + unspecifiedPlace f

/-- Different unspecified registers hold different draws. -/
theorem resetDraw_injective {c d : Chan} {f g : DmaField} (h : resetDraw c f = resetDraw d g)
    (hf : f ∈ [DmaField.r, .w, .c]) (hg : g ∈ [DmaField.r, .w, .c]) : c = d ∧ f = g := by
  have hf3 := unspecifiedPlace_lt f
  have hg3 := unspecifiedPlace_lt g
  unfold resetDraw at h
  exact ⟨chanPlace_injective (by omega), unspecifiedPlace_injective f hf g hg (by omega)⟩

theorem fieldGet_reset (c : Chan) {f : DmaField} (hf : f ∈ [DmaField.r, .w, .c]) :
    fieldGet f (State.reset.regs c) = Config.draw (resetDraw c f) := by
  simp only [List.mem_cons, List.not_mem_nil, or_false] at hf
  rcases hf with rfl | rfl | rfl <;> cases c <;> rfl

theorem chan_reset (c : Chan) : State.reset.chan c = Channel.idle := by
  cases c <;> rfl

end Sys2Proof.Machine

/-! SUPPORT. The statements about the state and its steps, settled. -/

namespace Sys2Proof.Machine

/-- Settles O11, from the one induction over the model: an enqueue is the only update that adds to the queue. -/
theorem queueInvariantKept : Obligations.QueueInvariantKept := fun _ _ hs h =>
  queueOk_kept.step_invariant (P := State.QueueInvariant) (fun _ _ _ _ h => h) h hs

/-- Settles O13, from the one induction over the model: every fill stays inside its table. -/
theorem tablesInvariantKept : Obligations.TablesInvariantKept := fun _ _ hs h =>
  tablesOk_kept.step_invariant (P := State.TablesOk) (fun _ _ _ _ h => h) h hs

/-- Settles O15, from the one induction over the model: the engine goes on with a transfer only while its channel is
active, so it never writes to an idle one. -/
theorem idleChannelsZeroKept : Obligations.IdleChannelsZeroKept := by
  intro s t hs h
  rcases h with h | ⟨i, h⟩
  · exact idleChannelsZero_kept.step_invariant (P := State.IdleChannelsZero) (fun _ _ _ _ h => h) h hs
  · exact idleChannelsZero_kept.exec h hs

/-- Settles O8: no primitive update changes the mark, and a marked run is refused. -/
theorem refusalMarkStays : Obligations.RefusalMarkStays := by
  refine ⟨rfl, ?_, ?_, ?_⟩
  · intro s r h
    rw [markedStep_of_refused h]
  · intro s hm
    rw [markedStep_of_refused (step_of_marked hm)]
  · intro i s t h
    exact (runExtended_kept.exec h).mark

/-- Settles O9: a step waits, or moves the position by one and runs one instruction, which extends the run's record. -/
theorem stepAppendsHistory : Obligations.StepAppendsHistory := by
  intro s t h
  rcases step_eq_next h with rfl | ⟨i, stream, port, h⟩
  · exact ⟨⟨[], (List.append_nil _).symm⟩, rfl, .inl rfl⟩
  · obtain ⟨history, cfg, pos, -⟩ := runExtended_kept.exec h
    exact ⟨history, cfg, .inr pos⟩

/-- Settles O18: of the instructions that configure, MAP writes only the page table, MFILL only the masks, and the
interrupt commands only the arbiter's part of the state; the others are covered by `exec_sameTables`. -/
theorem tablesChangeOnlyByConfiguration : Obligations.TablesChangeOnlyByConfiguration := by
  intro i s t hq h hinit hreset
  have both : SameTables s t → ((∀ f l d, i ≠ .map f l d) → t.pt = s.pt)
      ∧ ((∀ a b m r w, i ≠ .mfill a b m r w) → t.mr = s.mr ∧ t.mw = s.mw) :=
    fun same => ⟨fun _ => same.pt, fun _ => ⟨same.mr, same.mw⟩⟩
  have arbiter : ∀ u, ArbiterOnly s u → t = silent u → SameTables s t := fun u hu ht => by
    obtain ⟨-, hpt, hmr, hmw⟩ := QuietSameTables.of_arbiterOnly hu hq
    subst ht
    exact ⟨hpt, hmr, hmw⟩
  by_cases hi : configures i = false
  · exact both (exec_sameTables hq hi h)
  · cases i with
    | map f l d =>
      refine ⟨fun hmap => absurd rfl (hmap f l d), fun _ => ?_⟩
      simp only [exec, execMap] at h
      split at h
      · cases h; exact ⟨rfl, rfl⟩
      · cases h
    | mfill a b m r w =>
      cases h
      exact ⟨fun _ => rfl, fun hfill => absurd rfl (hfill a b m r w)⟩
    | init => exact absurd rfl hinit
    | reset => exact absurd rfl hreset
    | raise => cases h; exact both (arbiter _ (raiseIrq_arbiterOnly _ _) rfl)
    | remove => cases h; exact both (arbiter _ (removeVector_arbiterOnly _ _ _) rfl)
    | rmstat => cases h; exact both (arbiter _ (removeByStatus_arbiterOnly _ _ _) rfl)
    | _ => exact absurd rfl hi

/-- Settles O7, one equation of the fetch for each clause. -/
theorem stepRunsDecoded : Obligations.StepRunsDecoded := fun _ hm =>
  ⟨fun _ _ hp h => step_of_fetch_run hm (fetch_of_stream_command hp h),
    fun _ _ hp h => step_of_fetch_run hm (fetch_of_port_command hp h),
    fun hp h => step_of_fetch_wait hm (fetch_of_stream_incomplete hp h),
    fun hp h => step_of_fetch_wait hm (fetch_of_port_incomplete hp h)⟩

/-- Settles O12: the queue is empty. -/
theorem queueInvariantAtReset : Obligations.QueueInvariantAtReset :=
  ⟨Nat.zero_le _, .nil, .nil⟩

/-- Settles O14: the tables list nothing, and an unlisted index reads as the default. -/
theorem tablesAtReset : Obligations.TablesAtReset :=
  ⟨emptyTables_tablesOk State.reset, fun p => tableGet_nil _ p, fun _ => ⟨tableGet_nil _ _, tableGet_nil _ _⟩⟩

/-- Settles O16, from the value of each channel at reset. -/
theorem channelsAndQueueAtReset : Obligations.ChannelsAndQueueAtReset :=
  ⟨fun c => ⟨chan_reset c, by rw [chan_reset c]; rfl⟩, rfl⟩

/-- Settles O17, with `resetDraw` for which draw each of the nine registers holds. -/
theorem registersAtReset : Obligations.RegistersAtReset := by
  refine ⟨fun c => ?_, rfl, rfl, rfl, resetDraw, ?_, fun c f hf => fieldGet_reset c hf⟩
  · cases c <;> exact ⟨rfl, rfl, rfl⟩
  · intro c f d g h hf hg
    exact resetDraw_injective h hf hg

end Sys2Proof.Machine

/-! SUPPORT. The bus: the six bus commands and the eight zone rows are one access of the dispatcher, and where that
access goes in every environment. -/

namespace Sys2Proof.Machine

variable {s : State} {op : BusOp} {addr a : Word} {who : Collab} {onCtrl : OnCtrl} {nest : Nest}

/-! The bus commands and the zone rows. -/

/-- A bus command is the dispatcher's access, finished. -/
theorem instrWith_busCommand (nest : Nest) (op : BusOp) (addr : Word) (s : State) :
    instrWith nest (busCommand op addr) s = finishAccess op (busAccess nest op addr s) := by
  cases op with
  | read w => cases w <;> rfl
  | write8 v => rfl
  | write16 v => rfl
  | write32 v => rfl

/-- The zone bits of an address made from a zone are that zone. -/
theorem zoneOf_withZone (zone : BitVec 3) (a : BitVec 29) : zoneOf (withZone zone a) = zone :=
  BitVec.extractLsb'_append_eq_left

theorem zone_cases : ∀ zone : BitVec 3, zone = 0 ∨ zone = 1 ∨ zone = 2 ∨ zone = 3 ∨ zone = 4 ∨ zone = 5 ∨ zone = 6
    ∨ zone = 7 := by
  decide

/-- A zone row is the dispatcher's access at the full address, finished: the decode picks the row's own route. -/
theorem instrWith_zoneRow (nest : Nest) (zone : BitVec 3) (a : BitVec 29) (op : BusOp) (s : State) :
    instrWith nest (zoneRow zone a op) s = finishAccess op (busAccess nest op (withZone zone a) s) := by
  unfold busAccess access
  rw [zoneOf_withZone]
  rcases zone_cases zone with rfl | rfl | rfl | rfl | rfl | rfl | rfl | rfl <;> rfl

theorem exec_busCommand (op : BusOp) (addr : Word) (s : State) :
    exec (busCommand op addr) s = finishAccess op (busAccess (handlers s) op addr s) := by
  rw [exec_eq_instrWith, instrWith_busCommand]

/-! Where an access goes in every environment. -/

/-- An access of a paged zone that has a target calls it. -/
theorem routePage_of_target (hp : specPaged addr = true) (hc : s.reachesCtrl addr = false)
    (ht : s.target op addr = some (who, a)) : routePage onCtrl nest op addr s = extAccess nest who op a s := by
  simp only [State.target, hp, if_true] at ht
  unfold routePage
  rw [pageOf_a29_eq, a29_eq]
  cases hd : s.page (specPage addr) with
  | unhandled => simp [hd] at ht
  | combo =>
    obtain ⟨rfl, rfl⟩ : Collab.device .vdp2reg = who ∧ specA29 addr = a := by simpa [hd] using ht
    have hsel : selectsCtrl s.cfg (specA29 addr) = false := by
      simpa [State.reachesCtrl, hp, hd, selectsCtrl] using hc
    simp [callHandler, hsel]
  | ext d =>
    obtain ⟨rfl, rfl⟩ : Collab.device d = who ∧ specA29 addr = a := by simpa [hd] using ht
    rfl

/-- An access that does not reach the controller and has a target is one call of it, whatever its handler issues. -/
theorem access_of_target (hc : s.reachesCtrl addr = false) (ht : s.target op addr = some (who, a)) :
    access onCtrl nest op addr s = extAccess nest who op a s := by
  by_cases hp : specPaged addr = true
  · have hz := hp
    simp only [specPaged, Bool.or_eq_true, beq_iff_eq] at hz
    unfold access
    rw [zoneOf_eq]
    rcases hz with (hz | hz) | hz <;> simpa only [hz] using routePage_of_target hp hc ht
  · simp only [State.target, hp, Bool.false_eq_true, if_false] at ht
    unfold access
    rw [zoneOf_eq]
    split at ht
    · next hz => cases ht; rcases hz with hz | hz <;> rw [hz] <;> rfl
    split at ht
    · next hz => cases ht; rw [hz, ← onChipSub_eq]; rfl
    split at ht
    · next hz =>
      rw [hz]
      cases op with
      | write32 v => cases ht; rfl
      | _ => cases ht
    · cases ht

end Sys2Proof.Machine

/-! SUPPORT. How deep a nesting is allowed does not matter, as long as it is at least the number of scripted calls that
are left (20_memory.md R66, notes/assumptions/7.md). Two ways of running the commands that handlers issue, alike on every
script shorter than `n`, make every part of the model alike on a script of at most `n` calls: each call uses one up. -/

namespace Sys2Proof.Machine

/-! Alike outcomes. -/

/-- Two outcomes are the same, and a next state among them has the property. -/
structure Alike {α : Type} (P : α → Prop) (x y : Res α) : Prop where
  eq : x = y
  post : ∀ a, x = .next a → P a

/-- At most `n` scripted calls are left. -/
abbrev State.CallsWithin (n : Nat) (s : State) : Prop := s.script.length ≤ n

/-- Two ways of running a handler's commands that do the same where fewer than `n` calls are left. -/
def NestsAlike (n : Nat) (nest nest' : Nest) : Prop :=
  ∀ is s, s.script.length < n → Alike (State.CallsWithin n) (nest is s) (nest' is s)

section Outcomes

variable {α β : Type} {P : α → Prop} {Q : β → Prop} {x y : Res α}

theorem Alike.same (h : ∀ a, x = .next a → P a) : Alike P x x := ⟨rfl, h⟩

theorem Alike.next {a : α} (h : P a) : Alike P (.next a) (.next a) := .same fun _ e => by cases e; exact h

theorem Alike.fault (r : Fault) : Alike P (.fault r) (.fault r) := .same nofun

theorem Alike.refused (r : Refusal) : Alike P (.refused r) (.refused r) := .same nofun

theorem Alike.mono {P' : α → Prop} (h : Alike P x y) (hP : ∀ a, P a → P' a) : Alike P' x y :=
  ⟨h.eq, fun a ha => hP a (h.post a ha)⟩

/-- Parts that are alike, one after another, are alike. -/
theorem Alike.andThen {f g : α → Res β} (h : Alike P x y) (hf : ∀ a, P a → Alike Q (f a) (g a)) :
    Alike Q (andThen x f) (andThen y g) := by
  obtain ⟨rfl, hP⟩ := h
  cases x with
  | next a => exact hf a (hP a rfl)
  | fault r => exact .fault r
  | refused r => exact .refused r

end Outcomes

/-- No part of the model adds to the script. -/
theorem scriptShrinks_kept : Kept fun s t => t.script.length ≤ s.script.length where
  refl _ := Nat.le_refl _
  trans h k := Nat.le_trans k h
  ret _ _ := Nat.le_refl _
  draws _ _ := Nat.le_refl _
  script _ _ h := h.length_le
  emit _ _ := Nat.le_refl _
  modChan _ _ _ _ := Nat.le_refl _
  modRegs _ _ _ := Nat.le_refl _
  ims _ _ := Nat.le_refl _
  ist _ _ := Nat.le_refl _
  aiack _ _ := Nat.le_refl _
  enqueue r s := by rw [enqueue_eq]
  dequeue _ _ _ := Nat.le_refl _
  mapPages _ _ _ _ := Nat.le_refl _
  clearPages _ := Nat.le_refl _
  fillMasks _ _ := Nat.le_refl _
  resetBlock _ := Nat.le_refl _

/-- The same for the engine's and the controller's parts, given one way of running commands; the parts used below issue
none. -/
theorem scriptShrinks_ctrlKept : CtrlKept (fun s t => t.script.length ≤ s.script.length) (handlersTo 0) :=
  scriptShrinks_kept.toCtrl (scriptShrinks_kept.handlersTo 0)

section

variable {n : Nat} {nest nest' : Nest} {s : State} {c : Chan}

/-! Calls and accesses. -/

theorem extRead_alike (hn : NestsAlike n nest nest') (hs : s.CallsWithin n) (who : Collab) (w : Width) (a : Word) :
    Alike (fun p => p.1.CallsWithin n) (extRead nest who w a s) (extRead nest' who w a s) := by
  unfold extRead
  split
  · next r rest hr =>
    exact (hn _ _ (by simpa [hr] using hs)).andThen fun t ht => .next ht
  · exact .next hs

theorem extCall_alike (hn : NestsAlike n nest nest') (hs : s.CallsWithin n) (e : Event) :
    Alike (State.CallsWithin n) (extCall nest e s) (extCall nest' e s) := by
  unfold extCall
  split
  · next r rest hr => exact hn _ _ (by simpa [hr] using hs)
  · exact .next hs

theorem extAccess_alike (hn : NestsAlike n nest nest') (hs : s.CallsWithin n) (who : Collab) (op : BusOp) (a : Word) :
    Alike (fun p => p.1.CallsWithin n) (extAccess nest who op a s) (extAccess nest' who op a s) := by
  cases op with
  | read w => exact extRead_alike hn hs who w a
  | _ => exact (extCall_alike hn hs _).andThen fun t ht => .next ht

theorem callHandler_alike (hn : NestsAlike n nest nest') (hs : s.CallsWithin n) {onCtrl onCtrl' : OnCtrl}
    (d : DeviceId) (op : BusOp) (a : Word)
    (hc : Alike (fun p => p.1.CallsWithin n) (onCtrl op a s) (onCtrl' op a s)) :
    Alike (fun p => p.1.CallsWithin n) (callHandler onCtrl nest d op a s) (callHandler onCtrl' nest' d op a s) := by
  cases d with
  | unhandled => exact .next hs
  | combo =>
    unfold callHandler
    dsimp only
    split
    · exact hc
    · exact extAccess_alike hn hs _ _ _
  | ext d => exact extAccess_alike hn hs _ _ _

theorem access_alike (hn : NestsAlike n nest nest') (hs : s.CallsWithin n) {onCtrl onCtrl' : OnCtrl}
    (hc : ∀ op a, Alike (fun p => p.1.CallsWithin n) (onCtrl op a s) (onCtrl' op a s)) (op : BusOp) (addr : Word) :
    Alike (fun p => p.1.CallsWithin n) (access onCtrl nest op addr s) (access onCtrl' nest' op addr s) := by
  unfold access
  split
  · exact callHandler_alike hn hs _ _ _ (hc _ _)
  · exact callHandler_alike hn hs _ _ _ (hc _ _)
  · exact extAccess_alike hn hs _ _ _
  · unfold routeAddrArray
    split
    · exact extAccess_alike hn hs _ _ _
    · exact .next hs
  · exact callHandler_alike hn hs _ _ _ (hc _ _)
  · exact callHandler_alike hn hs _ _ _ (hc _ _)
  · exact extAccess_alike hn hs _ _ _
  · exact extAccess_alike hn hs _ _ _

/-! The DMA engine. -/

theorem dmaRead_alike (hn : NestsAlike n nest nest') (hs : s.CallsWithin n) (w : Width) (a : Word) :
    Alike (fun p => p.1.CallsWithin n) (dmaRead nest w a s) (dmaRead nest' w a s) :=
  access_alike hn hs (fun _ _ => .refused _) _ _

theorem dmaWrite_alike (hn : NestsAlike n nest nest') (hs : s.CallsWithin n) (op : BusOp) (a : Word) :
    Alike (State.CallsWithin n) (dmaWrite nest op a s) (dmaWrite nest' op a s) :=
  (access_alike hn hs (fun _ _ => .refused _) _ _).andThen fun _ hp => .next hp

theorem whileActive_alike {f g : State → Res State} (hs : s.CallsWithin n)
    (hf : Alike (State.CallsWithin n) (f s) (g s)) :
    Alike (State.CallsWithin n) (whileActive c f s) (whileActive c g s) := by
  unfold whileActive
  split
  · exact hf
  · exact .next hs

/-- The last change of a unit or of a load. -/
theorem whileActiveMod_alike (hs : s.CallsWithin n) (f : Channel → Channel) :
    Alike (State.CallsWithin n) (whileActive c (fun t => .next (t.modChan c f)) s)
      (whileActive c (fun t => .next (t.modChan c f)) s) :=
  whileActive_alike hs (.next hs)

theorem loadDescriptor_alike (hn : NestsAlike n nest nest') (hs : s.CallsWithin n) :
    Alike (State.CallsWithin n) (loadDescriptor nest c s) (loadDescriptor nest' c s) :=
  (dmaRead_alike hn hs _ _).andThen fun _ h1 => whileActive_alike h1 <|
    (dmaRead_alike hn h1 _ _).andThen fun _ h2 => whileActive_alike h2 <|
      (dmaRead_alike hn h2 _ _).andThen fun _ h3 => whileActive_alike h3 (.next h3)

theorem closeSegment_callsWithin (hs : s.CallsWithin n) : (closeSegment c s).CallsWithin n :=
  Nat.le_trans (scriptShrinks_ctrlKept.closeSegment c s) hs

theorem endBurst_alike (hn : NestsAlike n nest nest') (hs : s.CallsWithin n) :
    Alike (State.CallsWithin n) (endBurst nest c s) (endBurst nest' c s) := by
  have hclosed : (closeSegment c s).CallsWithin n := closeSegment_callsWithin hs
  unfold endBurst
  dsimp only
  split
  · exact loadDescriptor_alike hn hclosed
  · exact .next (Nat.le_trans (scriptShrinks_ctrlKept.complete c _) hclosed)

theorem copyUnit_alike (hn : NestsAlike n nest nest') (hs : s.CallsWithin n) :
    Alike (State.CallsWithin n) (copyUnit nest c s) (copyUnit nest' c s) := by
  unfold copyUnit
  dsimp only
  split <;>
    exact (dmaRead_alike hn hs _ _).andThen fun _ h1 =>
      Alike.andThen (whileActive_alike h1 (dmaWrite_alike hn h1 _ _)) fun _ h2 => whileActiveMod_alike h2 _

theorem readFill_alike (hn : NestsAlike n nest nest') (hs : s.CallsWithin n) :
    Alike (State.CallsWithin n) (readFill nest c s) (readFill nest' c s) := by
  unfold readFill
  dsimp only
  split
  · exact .next hs
  · exact (dmaRead_alike hn hs _ _).andThen fun _ h1 => whileActiveMod_alike h1 _

theorem fillNarrowUnit_alike (hn : NestsAlike n nest nest') (hs : s.CallsWithin n) :
    Alike (State.CallsWithin n) (fillNarrowUnit nest c s) (fillNarrowUnit nest' c s) := by
  refine Alike.andThen (P := State.CallsWithin n) ?_ fun _ h => whileActiveMod_alike h _
  split
  · exact dmaWrite_alike hn hs _ _
  · exact (readFill_alike hn hs).andThen fun _ h1 => whileActive_alike h1 (dmaWrite_alike hn h1 _ _)

theorem fillWideUnit_alike (hn : NestsAlike n nest nest') (hs : s.CallsWithin n) :
    Alike (State.CallsWithin n) (fillWideUnit nest c s) (fillWideUnit nest' c s) :=
  (readFill_alike hn hs).andThen fun _ h1 =>
    Alike.andThen (whileActive_alike h1 (dmaWrite_alike hn h1 _ _)) fun _ h2 => whileActiveMod_alike h2 _

theorem unit_alike (hn : NestsAlike n nest nest') (hs : s.CallsWithin n) :
    Alike (State.CallsWithin n) (unit nest c s) (unit nest' c s) := by
  unfold unit
  dsimp only
  split
  · exact copyUnit_alike hn hs
  · split
    · exact fillNarrowUnit_alike hn hs
    · exact fillWideUnit_alike hn hs

theorem tick_alike (hn : NestsAlike n nest nest') (hs : s.CallsWithin n) :
    Alike (State.CallsWithin n) (tick nest c s) (tick nest' c s) := by
  refine (unit_alike hn hs).andThen fun t ht => whileActive_alike ht ?_
  split
  · exact endBurst_alike hn ht
  · exact .next ht

theorem ticks_alike (hn : NestsAlike n nest nest') (budget : Nat) (hs : s.CallsWithin n) :
    Alike (State.CallsWithin n) (ticks nest c budget s) (ticks nest' c budget s) := by
  induction budget generalizing s with
  | zero => exact .next hs
  | succ budget ih =>
    unfold ticks
    split
    · exact (tick_alike hn hs).andThen fun _ ht => ih ht
    · exact .next hs

theorem stepChannel_alike (hn : NestsAlike n nest nest') (budget : Nat) (hs : s.CallsWithin n) :
    Alike (State.CallsWithin n) (stepChannel nest c budget s) (stepChannel nest' c budget s) := by
  refine (ticks_alike hn budget hs).andThen fun t ht => .next ?_
  split
  · exact closeSegment_callsWithin ht
  · exact ht

/-- A drain has a result exactly where some number of units reaches it, an idle channel being the result of a state. -/
theorem drainLoop_eq_some_iff {r : Res State} :
    drainLoop nest c s = some r ↔ ∃ k, ticks nest c k s = r ∧ ∀ t, r = .next t → (t.chan c).active = false := by
  refine ⟨drainLoop_eq_some, ?_⟩
  rintro ⟨k, hk, idle⟩
  rw [drainLoop_of_ticks k, hk]
  cases r with
  | next t => exact drainLoop_of_idle (idle t rfl)
  | fault r => rfl
  | refused r => rfl

/-- What any number of units of a channel does fixes what its drain does. -/
theorem drainChannel_congr (h : ∀ k, ticks nest c k s = ticks nest' c k s) :
    drainChannel nest c s = drainChannel nest' c s := by
  have loops : drainLoop nest c s = drainLoop nest' c s := by
    ext r
    simp only [drainLoop_eq_some_iff, h]
  rw [drainChannel_eq, drainChannel_eq, loops]

theorem drainChannel_alike (hn : NestsAlike n nest nest') (hs : s.CallsWithin n) :
    Alike (State.CallsWithin n) (drainChannel nest c s) (drainChannel nest' c s) where
  eq := drainChannel_congr fun k => (ticks_alike hn k hs).eq
  post t ht := by
    obtain ⟨k, hk, -⟩ := drainChannel_eq_next ht
    exact (ticks_alike hn k hs).post t hk

theorem latch_alike (hn : NestsAlike n nest nest') (hs : s.CallsWithin n) :
    Alike (State.CallsWithin n) (latch nest c s) (latch nest' c s) := by
  unfold latch
  dsimp only
  split
  · exact loadDescriptor_alike hn hs
  · exact .next hs

theorem arm_alike (hn : NestsAlike n nest nest') (hs : s.CallsWithin n) :
    Alike (State.CallsWithin n) (arm nest c s) (arm nest' c s) := by
  refine Alike.andThen (P := State.CallsWithin n) ?_ fun _ h => latch_alike hn h
  split
  · exact drainChannel_alike hn hs
  · exact .next hs

/-! The controller registers. -/

theorem enableRegister_alike (hn : NestsAlike n nest nest') (hs : s.CallsWithin n) (op : RegOp) :
    Alike (fun p => p.1.CallsWithin n) (enableRegister nest c op s) (enableRegister nest' c op s) := by
  cases op with
  | read => exact .next hs
  | write v =>
    refine Alike.andThen (P := State.CallsWithin n) ?_ fun _ h => .next h
    unfold writeEnable
    dsimp only
    split
    · exact arm_alike hn hs
    · exact .refused _
    · exact .next hs

theorem registerAccess_alike (hn : NestsAlike n nest nest') (hs : s.CallsWithin n) (off : BitVec 8) (op : RegOp) :
    Alike (fun p => p.1.CallsWithin n) (registerAccess nest off op s) (registerAccess nest' off op s) := by
  have within {p : State × Word} (h : p.1.script.length ≤ s.script.length) : p.1.CallsWithin n := Nat.le_trans h hs
  unfold registerAccess
  split
  · exact enableRegister_alike hn hs op
  · exact .same fun _ h => within (scriptShrinks_ctrlKept.dmaRegister h)
  · exact .same fun _ h => within (scriptShrinks_ctrlKept.dstpRegister h)
  · exact .same fun _ h => within (scriptShrinks_ctrlKept.dstaRegister h)
  · exact .same fun _ h => within (scriptShrinks_ctrlKept.imsRegister h)
  · exact .same fun _ h => within (scriptShrinks_ctrlKept.istRegister h)
  · exact .same fun _ h => within (scriptShrinks_ctrlKept.aiackRegister h)
  · exact extAccess_alike hn hs _ _ _
  · exact .same fun _ h => within (scriptShrinks_ctrlKept.reservedRegister h)

theorem ctrlAccess_alike (hn : NestsAlike n nest nest') (hs : s.CallsWithin n) (op : BusOp) (a : Word) :
    Alike (fun p => p.1.CallsWithin n) (ctrlAccess nest op a s) (ctrlAccess nest' op a s) := by
  unfold ctrlAccess
  split
  · split
    · exact registerAccess_alike hn hs _ _
    · exact .next hs
  · exact .next hs
  · split
    · exact registerAccess_alike hn hs _ _
    · exact .refused _
  · exact .refused _
  · exact .refused _

/-! Instructions. -/

theorem finishedBusAccess_alike (hn : NestsAlike n nest nest') (hs : s.CallsWithin n) (op : BusOp) (addr : Word) :
    Alike (State.CallsWithin n) (finishAccess op (busAccess nest op addr s))
      (finishAccess op (busAccess nest' op addr s)) := by
  refine (access_alike hn hs (fun _ _ => ctrlAccess_alike hn hs _ _) _ _).andThen fun _ hp => ?_
  cases op <;> exact .next hp

theorem busCommand_alike (hn : NestsAlike n nest nest') (hs : s.CallsWithin n) (op : BusOp) (addr : Word) :
    Alike (State.CallsWithin n) (instrWith nest (busCommand op addr) s) (instrWith nest' (busCommand op addr) s) := by
  rw [instrWith_busCommand, instrWith_busCommand]
  exact finishedBusAccess_alike hn hs _ _

theorem zoneRow_alike (hn : NestsAlike n nest nest') (hs : s.CallsWithin n) (zone : BitVec 3) (a : BitVec 29)
    (op : BusOp) :
    Alike (State.CallsWithin n) (instrWith nest (zoneRow zone a op) s) (instrWith nest' (zoneRow zone a op) s) := by
  rw [instrWith_zoneRow, instrWith_zoneRow]
  exact finishedBusAccess_alike hn hs _ _

theorem execWith_alike (hn : NestsAlike n nest nest') (hs : s.CallsWithin n) (t : Word) :
    Alike (State.CallsWithin n) (execWith nest t s) (execWith nest' t s) :=
  ((stepChannel_alike hn _ hs).andThen fun _ h0 => (stepChannel_alike hn _ h0).andThen fun _ h1 =>
    (stepChannel_alike hn _ h1).andThen fun _ h2 => extCall_alike hn h2 _).andThen fun _ h => .next h

theorem drainWith_alike (hn : NestsAlike n nest nest') (hs : s.CallsWithin n) :
    Alike (State.CallsWithin n) (drainWith nest s) (drainWith nest' s) :=
  ((drainChannel_alike hn hs).andThen fun _ h0 => (drainChannel_alike hn h0).andThen fun _ h1 =>
    drainChannel_alike hn h1).andThen fun _ h => .next h

/-- Every instruction does the same with ways of running a handler's commands that are alike on shorter scripts. -/
theorem instrWith_alike (hn : NestsAlike n nest nest') (hs : s.CallsWithin n) (i : Instr) :
    Alike (State.CallsWithin n) (instrWith nest i s) (instrWith nest' i s) := by
  have alone {x : Res State} (hx : x = exec i s) : Alike (State.CallsWithin n) x x :=
    .same fun t ht => Nat.le_trans (scriptShrinks_kept.exec (hx.symm.trans ht)) hs
  cases i with
  | rd8 addr => exact busCommand_alike hn hs (.read .w8) addr
  | rd16 addr => exact busCommand_alike hn hs (.read .w16) addr
  | rd32 addr => exact busCommand_alike hn hs (.read .w32) addr
  | wr8 addr v => exact busCommand_alike hn hs (.write8 v) addr
  | wr16 addr v => exact busCommand_alike hn hs (.write16 v) addr
  | wr32 addr v => exact busCommand_alike hn hs (.write32 v) addr
  | map | init | mfill | mlkr | mlkw | raise | remove | retest | rmstat | reset => exact alone rfl
  | exec t => exact execWith_alike hn hs t
  | drain => exact drainWith_alike hn hs
  | zone0PageTable a op => exact zoneRow_alike hn hs 0 a op
  | zone1PageTable a op => exact zoneRow_alike hn hs 1 a op
  | zone2DataArray a op => exact zoneRow_alike hn hs 2 a op
  | zone3AddressArray a op => exact zoneRow_alike hn hs 3 a op
  | zone4Unhandled a op => exact zoneRow_alike hn hs 4 a op
  | zone5PageTable a op => exact zoneRow_alike hn hs 5 a op
  | zone6DataArray a op => exact zoneRow_alike hn hs 6 a op
  | zone7Onchip a op => exact zoneRow_alike hn hs 7 a op
  | d0r | d0w | d0c | d0ad | d0en | d0md | d1r | d1w | d1c | d1ad | d1en | d1md | d2r | d2w | d2c | d2ad | d2en | d2md
  | dstp | dsta | ppaf | ppd | pda | pdd | t0c | t1s | t1md | ims | ist | aiack | asr0 | asr1 | aref | rsel | ver
  | reservedOffset => exact finishedBusAccess_alike hn hs _ _

end

/-! The nesting depth. -/

theorem runAll_alike {n : Nat} {f g : Instr → State → Res State}
    (h : ∀ i s, s.CallsWithin n → Alike (State.CallsWithin n) (f i s) (g i s)) (is : List Instr) {s : State}
    (hs : s.CallsWithin n) : Alike (State.CallsWithin n) (runAll f is s) (runAll g is s) := by
  induction is generalizing s with
  | nil => exact .next hs
  | cons i is ih => exact (h i s hs).andThen fun _ ht => ih ht

/-- Any two depths that cover the calls left are alike. -/
theorem handlersTo_alike {n k m : Nat} (hk : n ≤ k) (hm : n ≤ m) : NestsAlike n (handlersTo k) (handlersTo m) := by
  induction n generalizing k m with
  | zero => exact fun is s hs => absurd hs (Nat.not_lt_zero _)
  | succ n ih =>
    obtain ⟨k, rfl⟩ := Nat.exists_eq_succ_of_ne_zero (n := k) (by omega)
    obtain ⟨m, rfl⟩ := Nat.exists_eq_succ_of_ne_zero (n := m) (by omega)
    have below : NestsAlike n (handlersTo k) (handlersTo m) :=
      ih (Nat.le_of_succ_le_succ hk) (Nat.le_of_succ_le_succ hm)
    intro is s hs
    exact (runAll_alike (fun i _ h => instrWith_alike below h i) is (Nat.le_of_lt_succ hs)).mono
      fun _ h => Nat.le_succ_of_le h

/-- An instruction at any depth that covers the calls left is the instruction as a command of its own. -/
theorem instrWith_handlersTo_alike {n : Nat} (i : Instr) {s : State} (hs : s.CallsWithin n) :
    Alike (State.CallsWithin n) (instrWith (handlersTo n) i s) (exec i s) := by
  rw [exec_eq_instrWith]
  exact (instrWith_alike (handlersTo_alike hs (Nat.le_refl _)) (Nat.le_refl _) i).mono fun _ h => Nat.le_trans h hs

/-- The commands that a handler issues run in order, each as a command of its own (20_memory.md R66). -/
theorem handlersTo_eq_runAll {n : Nat} (is : List Instr) {s : State} (hs : s.script.length < n) :
    handlersTo n is s = runAll exec is s := by
  obtain ⟨n, rfl⟩ := Nat.exists_eq_succ_of_ne_zero (Nat.ne_zero_of_lt hs)
  exact (runAll_alike (fun i _ h => instrWith_handlersTo_alike i h) is (Nat.le_of_lt_succ hs)).eq

end Sys2Proof.Machine

/-! SUPPORT. A call with an entry of the script: it is recorded, and the handler's commands run inside it, each as a
command of its own (20_memory.md R66). -/

namespace Sys2Proof.Machine

/-- Finishing an access of two parts finishes its second part. -/
theorem finishAccess_andThen {α : Type} (op : BusOp) (x : Res α) (f : α → Res (State × Word)) :
    finishAccess op (andThen x f) = andThen x fun a => finishAccess op (f a) := by
  cases x <;> rfl

section

variable {n : Nat} {s : State} {r : Reaction} {rest : List Reaction}

theorem extCall_of_script (hr : s.script = r :: rest) (hn : s.CallsWithin n) (e : Event) :
    extCall (handlersTo n) e s = runAll exec r.nested (State.emit { s with script := rest } e) := by
  have shorter : rest.length < n := by simpa [hr] using hn
  simp only [extCall, hr]
  exact handlersTo_eq_runAll r.nested shorter

/-- A call of a collaborator; a write's value, which nothing reads, is 0. -/
theorem extAccess_of_script (hr : s.script = r :: rest) (hn : s.CallsWithin n) (who : Collab) (op : BusOp) (a : Word) :
    extAccess (handlersTo n) who op a s
      = andThen (runAll exec r.nested (State.emit { s with script := rest } (callEvent who op a r.answer)))
          fun t => .next (t, (op.returns (clip (opWidth op) r.answer)).getD 0) := by
  cases op with
  | read w =>
    have shorter : rest.length < n := by simpa [hr] using hn
    simp only [extAccess, extRead, hr]
    rw [handlersTo_eq_runAll r.nested shorter]
    rfl
  | _ =>
    simp only [extAccess, extCall_of_script hr hn]
    rfl

/-- A finished call of a collaborator, which returns what the command returns. -/
theorem finishAccess_extAccess_of_script (hr : s.script = r :: rest) (hn : s.CallsWithin n) (who : Collab) (op : BusOp)
    (a : Word) :
    finishAccess op (extAccess (handlersTo n) who op a s)
      = andThen (runAll exec r.nested (State.emit { s with script := rest } (callEvent who op a r.answer)))
          fun t => .next { t with ret := op.returns (clip (opWidth op) r.answer) } := by
  rw [extAccess_of_script hr hn, finishAccess_andThen]
  cases op <;> simp only [finishAccess_next, BusOp.returns, Option.getD_some]

end

/-! The forwarded rows. -/

/-- A forwarded row is the access of its own offset, a multiple of 4 that the default offset map forwards. -/
theorem forwardedRow_spec {m off : BitVec 8} {op : RegOp} {i : Instr} (h : (off, i) ∈ forwardedRows m op) :
    (∀ s, exec i s = portAccess (handlers s) off m op s) ∧ offsetAligned off = true
      ∧ ctrlRegAt Config.default off = .forwarded := by
  simp only [forwardedRows, List.mem_cons, List.not_mem_nil, or_false, Prod.mk.injEq] at h
  rcases h with ⟨rfl, rfl⟩ | ⟨rfl, rfl⟩ | ⟨rfl, rfl⟩ | ⟨rfl, rfl⟩ | ⟨rfl, rfl⟩ | ⟨rfl, rfl⟩ | ⟨rfl, rfl⟩ | ⟨rfl, rfl⟩
    | ⟨rfl, rfl⟩ | ⟨rfl, rfl⟩ | ⟨rfl, rfl⟩ | ⟨rfl, rfl⟩ <;> exact ⟨fun _ => rfl, rfl, rfl⟩

/-- Where the default maps put the controller, a forwarded row calls SCU_OTHER with its offset
(42_controller_registers.md R138). -/
theorem exec_forwardedRow_of_ctrlMapped {s : State} (hs : s.CtrlMapped) {m off : BitVec 8} {op : RegOp} {i : Instr}
    (h : (off, i) ∈ forwardedRows m op) :
    exec i s = finishAccess op.toBus (extAccess (handlers s) .scuOther op.toBus (off.setWidth 32) s) := by
  obtain ⟨row, aligned, forwarded⟩ := forwardedRow_spec h
  rw [row, portAccess_of_ctrlMapped hs _ _ _ _ aligned, registerAccess, ctrlRegAt_of_ctrlMapped hs, forwarded]
  rfl

/-! EXEC with idle channels. -/

/-- Stepping an idle channel does nothing (43_dma.md R164). -/
theorem stepChannel_of_idle {nest : Nest} {c : Chan} {s : State} (budget : Nat) (h : (s.chan c).active = false) :
    stepChannel nest c budget s = .next s := by
  simp [stepChannel, h]

/-- With every channel idle, EXEC is the DSP's step (43_dma.md R166, R167). -/
theorem exec_exec_of_idle {s : State} (h : ∀ c, (s.chan c).active = false) (ticks : Word) :
    exec (.exec ticks) s = finishSilent (extCall (handlers s) (.dspStep ticks) s) := by
  simp only [exec, execExec, execWith, stepChannel_of_idle _ (h _), andThen_next]

end Sys2Proof.Machine

/-! SUPPORT. The statements about bus accesses and the commands inside them, settled. -/

namespace Sys2Proof.Machine

/-- Settles O24: the zone row and the bus command are the same access. -/
theorem zoneRowIsBusCommand : Obligations.ZoneRowIsBusCommand := by
  intro s op zone a
  rw [exec_busCommand, exec_eq_instrWith, instrWith_zoneRow]

/-- Settles O23: the access goes where the zone table says, and a zone row is the bus command of the same access. -/
theorem busAccessFollowsZoneTable : Obligations.BusAccessFollowsZoneTable := by
  intro s op addr hq hc t
  have command : exec (busCommand op addr) s = .next t := by
    rw [exec_busCommand, busAccess, handlers, access_of_quiet hq _ _ _ _ hc, finishAccess_next]
  refine ⟨command, ?_⟩
  rintro zone a rfl
  rw [zoneRowIsBusCommand, command]

/-- Settles O10: each kind of call is one `extRead` or `extCall`, whose handler's commands run as commands of their own
whatever depth of nesting the outer command allows. -/
theorem handlerCommandsRunInside : Obligations.HandlerCommandsRunInside := by
  intro s r rest hr inside
  have own : s.CallsWithin s.script.length := Nat.le_refl _
  refine ⟨?_, ?_, ?_, ?_, ?_⟩
  · intro op addr who a hc ht
    rw [exec_busCommand, busAccess, access_of_target hc ht]
    exact finishAccess_extAccess_of_script hr own who op a
  · rintro m op hs ⟨off, i⟩ hrow
    rw [exec_forwardedRow_of_ctrlMapped hs hrow, handlers, finishAccess_extAccess_of_script hr own]
    cases op <;> rfl
  · intro idle ticks
    rw [exec_exec_of_idle idle, handlers, extCall_of_script hr own]
    rfl
  · intro n w addr who a hn hc ht
    rw [dmaRead, access_of_target hc ht]
    exact extAccess_of_script hr hn who (.read w) a
  · intro n op addr who a hn hc ht
    rw [dmaWrite, access_of_target hc ht, extAccess_of_script hr hn]
    show andThen (andThen (inside _) _) _ = inside _
    cases inside (callEvent who op a r.answer) <;> rfl

end Sys2Proof.Machine

/-! SUPPORT. The command decoder, said once per case: nothing there, a reserved opcode, a string that ends inside a
command, a whole command (30_encoding.md R71, R77, R78). -/

namespace Sys2Proof.Machine

variable {extra : List Word} {op : Byte} {ws : List Word} {bs rest : List Byte} {i : Instr} {why : Invalid}

/-! Words and their bytes (30_encoding.md R71). -/

theorem wordOf_bytesOf (w : Word) :
    wordOf (w.extractLsb' 24 8) (w.extractLsb' 16 8) (w.extractLsb' 8 8) (w.extractLsb' 0 8) = w := by
  unfold wordOf
  rw [BitVec.extractLsb'_append_extractLsb'_eq_extractLsb' (show 24 = 16 + 8 from rfl),
    BitVec.extractLsb'_append_extractLsb'_eq_extractLsb' (show 16 = 8 + 8 from rfl),
    BitVec.extractLsb'_append_extractLsb'_eq_extractLsb' (show 8 = 0 + 8 from rfl)]
  exact BitVec.extractLsb'_eq_self

theorem bytesOf_wordOf (b0 b1 b2 b3 : Byte) : bytesOf (wordOf b0 b1 b2 b3) = [b0, b1, b2, b3] := by
  have top : (b0 ++ b1 ++ b2 ++ b3).extractLsb' 24 8 = b0 := by
    rw [BitVec.extractLsb'_append_eq_of_le (by decide), BitVec.extractLsb'_append_eq_of_le (by decide)]
    exact BitVec.extractLsb'_append_eq_left
  have high : (b0 ++ b1 ++ b2 ++ b3).extractLsb' 16 8 = b1 := by
    rw [BitVec.extractLsb'_append_eq_of_le (by decide), BitVec.extractLsb'_append_eq_of_le (by decide)]
    exact BitVec.extractLsb'_append_eq_right
  have low : (b0 ++ b1 ++ b2 ++ b3).extractLsb' 8 8 = b2 := by
    rw [BitVec.extractLsb'_append_eq_of_le (by decide)]
    exact BitVec.extractLsb'_append_eq_right
  have bottom : (b0 ++ b1 ++ b2 ++ b3).extractLsb' 0 8 = b3 := BitVec.extractLsb'_append_eq_right
  simp only [bytesOf, wordOf, top, high, low, bottom]

/-! The operand words. -/

/-- The words whose bytes stand at the head of a string are read, and the bytes after them stay. -/
theorem takeWords_flatMap_bytesOf (ws : List Word) (rest : List Byte) :
    takeWords ws.length (ws.flatMap bytesOf ++ rest) = some (ws, rest) := by
  induction ws with
  | nil => rfl
  | cons w ws ih =>
    simp only [List.flatMap_cons, bytesOf, List.cons_append, List.nil_append, List.length_cons, takeWords, ih,
      wordOf_bytesOf]

/-- A string that is long enough is `k` words and the bytes after them. -/
theorem exists_words_of_le : ∀ {k : Nat} {bs : List Byte}, 4 * k ≤ bs.length →
    ∃ (ws : List Word) (rest : List Byte), ws.length = k ∧ bs = ws.flatMap bytesOf ++ rest
  | 0, bs, _ => ⟨[], bs, rfl, rfl⟩
  | k + 1, b0 :: b1 :: b2 :: b3 :: bs, h => by
    have htail : 4 * k ≤ bs.length := by simp only [List.length_cons] at h; omega
    obtain ⟨ws, rest, rfl, rfl⟩ := exists_words_of_le htail
    exact ⟨wordOf b0 b1 b2 b3 :: ws, rest, rfl, by simp [bytesOf_wordOf]⟩
  | k + 1, [], h | k + 1, [_], h | k + 1, [_, _], h | k + 1, [_, _, _], h => by
    simp only [List.length_cons, List.length_nil] at h; omega

theorem length_commandBytes (op : Byte) (ws : List Word) : (commandBytes op ws).length = 1 + 4 * ws.length := by
  have words : (ws.flatMap bytesOf).length = 4 * ws.length := by
    induction ws with
    | nil => rfl
    | cons w ws ih =>
      have four : (bytesOf w).length = 4 := rfl
      rw [List.flatMap_cons, List.length_append, four, ih, List.length_cons]
      omega
  rw [commandBytes, List.length_cons, words, Nat.add_comm]

/-- A string that is too short holds no `k` words. -/
theorem takeWords_of_lt : ∀ {k : Nat} {bs : List Byte}, bs.length < 4 * k → takeWords k bs = none
  | k + 1, _ :: _ :: _ :: _ :: bs, h => by
    have htail : bs.length < 4 * k := by simp only [List.length_cons] at h; omega
    rw [takeWords, takeWords_of_lt htail]
  | _ + 1, [], _ | _ + 1, [_], _ | _ + 1, [_, _], _ | _ + 1, [_, _, _], _ => rfl

/-! The decoder (30_encoding.md R77, R78). -/

/-- The opcodes that fix a number of operand words are those that R77 does not reserve. -/
theorem operandCount_eq : ∀ op : Byte,
    operandCount op = if reservedOpcode op then none else some (operandFields op).length := by
  decide

theorem decode_of_reserved (h : reservedOpcode op = true) : decode extra (op :: bs) = .invalid .reservedOpcode := by
  simp [decode, operandCount_eq, h]

/-- A command whose operand words are not all there is incomplete. -/
theorem decode_of_short (h : reservedOpcode op = false) (hs : bs.length < 4 * (operandFields op).length) :
    decode extra (op :: bs) = .incomplete := by
  simp [decode, operandCount_eq, h, takeWords_of_lt hs]

section Whole

variable (h : reservedOpcode op = false) (hw : ws.length = (operandFields op).length)
include h hw

theorem decode_of_commandOf_ok (hc : commandOf extra op ws = .ok i) :
    decode extra (commandBytes op ws ++ rest) = .command i rest := by
  simp [decode, commandBytes, operandCount_eq, h, ← hw, takeWords_flatMap_bytesOf, hc]

theorem decode_of_commandOf_error (hc : commandOf extra op ws = .error why) :
    decode extra (commandBytes op ws ++ rest) = .invalid why := by
  simp [decode, commandBytes, operandCount_eq, h, ← hw, takeWords_flatMap_bytesOf, hc]

end Whole

/-- Every string of command bytes is empty, or begins with a reserved opcode, or ends inside a command, or begins with
an opcode and all its operand words. -/
theorem command_bytes_cases (bs : List Byte) :
    bs = [] ∨ (∃ op tail, bs = op :: tail ∧ reservedOpcode op = true)
    ∨ (∃ op tail, bs = op :: tail ∧ reservedOpcode op = false ∧ tail.length < 4 * (operandFields op).length)
    ∨ ∃ op ws rest, bs = commandBytes op ws ++ rest ∧ reservedOpcode op = false
        ∧ ws.length = (operandFields op).length := by
  match bs with
  | [] => exact .inl rfl
  | op :: tail =>
    cases hr : reservedOpcode op with
    | true => exact .inr (.inl ⟨op, tail, rfl, hr⟩)
    | false =>
      rcases Nat.lt_or_ge tail.length (4 * (operandFields op).length) with hs | hl
      · exact .inr (.inr (.inl ⟨op, tail, rfl, hr, hs⟩))
      · obtain ⟨ws, rest, hw, rfl⟩ := exists_words_of_le hl
        exact .inr (.inr (.inr ⟨op, ws, rest, rfl, hr, hw⟩))

/-- A string that decodes to a command is that command's opcode and operand words, and the rest. -/
theorem decode_eq_command (h : decode extra bs = .command i rest) :
    ∃ op ws, bs = commandBytes op ws ++ rest ∧ commandOf extra op ws = .ok i := by
  obtain rfl | ⟨op, tail, rfl, hr⟩ | ⟨op, tail, rfl, hr, hs⟩ | ⟨op, ws, left, rfl, hr, hw⟩ := command_bytes_cases bs
  · cases h
  · rw [decode_of_reserved hr] at h; cases h
  · rw [decode_of_short hr hs] at h; cases h
  · cases hc : commandOf extra op ws with
    | ok j => rw [decode_of_commandOf_ok hr hw hc] at h; cases h; exact ⟨op, ws, rfl, hc⟩
    | error why => rw [decode_of_commandOf_error hr hw hc] at h; cases h

end Sys2Proof.Machine

/-! SUPPORT. The command table: the operand fields, the device codes, and the two directions of each of the 18 command
rows (30_encoding.md R72 to R77, R95). -/

namespace Sys2Proof.Machine

variable {extra : List Word} {op : Byte} {ws : List Word} {i j : Instr}

/-! The operand fields (30_encoding.md R77). -/

/-- A value written as a word fits its field. -/
theorem fits_setWidth {n : Nat} (v : BitVec n) : fits n (v.setWidth 32) = true := by
  simpa [fits] using Nat.lt_of_le_of_lt (Nat.mod_le _ _) v.isLt

/-- A word that fits its field is its field's value, written as a word. -/
theorem setWidth_setWidth_of_fits {n : Nat} {w : Word} (h : fits n w = true) : (w.setWidth n).setWidth 32 = w := by
  apply BitVec.eq_of_toNat_eq
  rw [BitVec.toNat_setWidth, BitVec.toNat_setWidth, Nat.mod_eq_of_lt (of_decide_eq_true h), Nat.mod_eq_of_lt w.isLt]

/-- The flags word of MFILL, read back (30_encoding.md R73). -/
theorem fillFlags_spec : ∀ r w : Bool,
    let flags : Word := 0#30 ++ (BitVec.ofBool w ++ BitVec.ofBool r)
    fits 2 flags = true ∧ flags.getLsbD 0 = r ∧ flags.getLsbD 1 = w := by
  decide

/-- A word of two bits is the flags word of its bits. -/
theorem fillFlags_of_fits {f : Word} (h : fits 2 f = true) :
    0#30 ++ (BitVec.ofBool (f.getLsbD 1) ++ BitVec.ofBool (f.getLsbD 0)) = f := by
  have twoBits : ∀ b : BitVec 2, 0#30 ++ (BitVec.ofBool ((b.setWidth 32).getLsbD 1)
      ++ BitVec.ofBool ((b.setWidth 32).getLsbD 0)) = b.setWidth 32 := by decide
  rw [← setWidth_setWidth_of_fits h]
  exact twoBits _

theorem ifFits_eq_ok {ok : Bool} (h : ifFits ok i = .ok j) : ok = true ∧ i = j := by
  cases ok with
  | true => exact ⟨rfl, Except.ok.inj h⟩
  | false => cases h

/-! The device codes (30_encoding.md R95). -/

theorem deviceOf_of_le {code : Word} (h : 17 ≤ code.toNat) :
    deviceOf extra code = if extra.contains code then some (.ext (.other code)) else none := by
  unfold deviceOf
  split
  case h_18 => rfl
  all_goals omega

/-- A device that a MAP may name is read from its own code. -/
theorem deviceOf_code {dev : DeviceId} (h : dev.named extra = true) : deviceOf extra dev.code = some dev := by
  match dev with
  | .ext (.other code) =>
    simp only [DeviceId.named, Bool.and_eq_true, decide_eq_true_eq] at h
    rw [DeviceId.code, deviceOf_of_le h.1, if_pos h.2]
  | .unhandled | .combo => rfl
  | .ext .rom | .ext .smpc | .ext .bup | .ext .lwram | .ext .icapS | .ext .icapM | .ext .cs0 | .ext .cs1 | .ext .cs2
  | .ext .sndram | .ext .scsp | .ext .vdp1 | .ext .vdp2 | .ext .hwram | .ext .vdp2reg => rfl

/-- A code names at most one device, and that is a device a MAP may name. -/
theorem named_of_deviceOf {code : Word} {dev : DeviceId} (h : deviceOf extra code = some dev) :
    dev.named extra = true ∧ dev.code = code := by
  rcases Nat.lt_or_ge code.toNat 17 with hlt | hge
  · unfold deviceOf at h
    interval_cases hc : code.toNat
    all_goals cases h; exact ⟨rfl, (BitVec.eq_of_toNat_eq hc).symm⟩
  · rw [deviceOf_of_le hge] at h
    split at h
    · next hmem => cases h; exact ⟨by rw [DeviceId.named, decide_eq_true hge, hmem]; rfl, rfl⟩
    · cases h

end Sys2Proof.Machine

/-! SUPPORT. The 18 command rows, in both directions: what a row's operand words make, and what words a command is made
of (30_encoding.md R72 to R76). -/

namespace Sys2Proof.Machine

variable {extra : List Word} {op : Byte} {ws : List Word} {bs rest : List Byte} {i : Instr}

/-! How many words a row uses. -/

theorem onNone_eq_ok {x : Except Invalid Instr} (h : onNone x ws = .ok i) : ws = [] ∧ x = .ok i :=
  match ws, h with
  | [], h => ⟨rfl, h⟩

theorem onOne_eq_ok {f : Word → Except Invalid Instr} (h : onOne f ws = .ok i) : ∃ a, ws = [a] ∧ f a = .ok i :=
  match ws, h with
  | [a], h => ⟨a, rfl, h⟩

theorem onTwo_eq_ok {f : Word → Word → Except Invalid Instr} (h : onTwo f ws = .ok i) :
    ∃ a b, ws = [a, b] ∧ f a b = .ok i :=
  match ws, h with
  | [a, b], h => ⟨a, b, rfl, h⟩

theorem onThree_eq_ok {f : Word → Word → Word → Except Invalid Instr} (h : onThree f ws = .ok i) :
    ∃ a b c, ws = [a, b, c] ∧ f a b c = .ok i :=
  match ws, h with
  | [a, b, c], h => ⟨a, b, c, rfl, h⟩

theorem onFour_eq_ok {f : Word → Word → Word → Word → Except Invalid Instr} (h : onFour f ws = .ok i) :
    ∃ a b c d, ws = [a, b, c, d] ∧ f a b c d = .ok i :=
  match ws, h with
  | [a, b, c, d], h => ⟨a, b, c, d, rfl, h⟩

/-! From the words to the command. -/

/-- The command is well formed, is one of the command stream, and its bytes are this opcode and these words. -/
structure CommandIs (extra : List Word) (op : Byte) (ws : List Word) (i : Instr) : Prop where
  fromPort : i.fromPort = false
  wf : i.wf extra = true
  encode : encode i = commandBytes op ws

theorem commandIs_of_makeWr8 {a d : Word} (h : makeWr8 a d = .ok i) : CommandIs extra 0x04 [a, d] i := by
  obtain ⟨hd, rfl⟩ := ifFits_eq_ok h
  exact ⟨rfl, rfl, by rw [encode, setWidth_setWidth_of_fits hd]⟩

theorem commandIs_of_makeWr16 {a d : Word} (h : makeWr16 a d = .ok i) : CommandIs extra 0x05 [a, d] i := by
  obtain ⟨hd, rfl⟩ := ifFits_eq_ok h
  exact ⟨rfl, rfl, by rw [encode, setWidth_setWidth_of_fits hd]⟩

theorem commandIs_of_makeMap {f l d : Word} (h : makeMap extra f l d = .ok i) : CommandIs extra 0x10 [f, l, d] i := by
  unfold makeMap at h
  split at h
  · next hfit =>
    obtain ⟨hf, hl⟩ := Bool.and_eq_true_iff.1 hfit
    split at h
    · next dev hdev =>
      obtain ⟨hnamed, rfl⟩ := named_of_deviceOf hdev
      cases h
      exact ⟨rfl, hnamed, by rw [encode, setWidth_setWidth_of_fits hf, setWidth_setWidth_of_fits hl]⟩
    · cases h
  · cases h

theorem commandIs_of_makeMfill {s e m f : Word} (h : makeMfill s e m f = .ok i) :
    CommandIs extra 0x12 [s, e, m, f] i := by
  obtain ⟨hf, rfl⟩ := ifFits_eq_ok h
  exact ⟨rfl, rfl, by rw [encode, fillFlags_of_fits hf]⟩

theorem commandIs_of_makeRaise {v l m s : Word} (h : makeRaise v l m s = .ok i) :
    CommandIs extra 0x30 [v, l, m, s] i := by
  obtain ⟨hfit, rfl⟩ := ifFits_eq_ok h
  simp only [Bool.and_eq_true] at hfit
  obtain ⟨⟨hv, hl⟩, hm⟩ := hfit
  exact ⟨rfl, rfl, by
    rw [encode, setWidth_setWidth_of_fits hv, setWidth_setWidth_of_fits hl, setWidth_setWidth_of_fits hm]⟩

theorem commandIs_of_makeRemove {v l s : Word} (h : makeRemove v l s = .ok i) : CommandIs extra 0x31 [v, l, s] i := by
  obtain ⟨hfit, rfl⟩ := ifFits_eq_ok h
  obtain ⟨hv, hl⟩ := Bool.and_eq_true_iff.1 hfit
  exact ⟨rfl, rfl, by rw [encode, setWidth_setWidth_of_fits hv, setWidth_setWidth_of_fits hl]⟩

theorem byte_eq_of_toNat {b : Byte} {n : Nat} (h : b.toNat = n) : b = BitVec.ofNat 8 n := by
  rw [← h, BitVec.ofNat_toNat, BitVec.setWidth_eq]

/-- An opcode and the words it uses make the one command whose bytes they are. -/
theorem commandIs_of_commandOf (h : commandOf extra op ws = .ok i) : CommandIs extra op ws i := by
  unfold commandOf at h
  split at h
  case h_19 => cases h
  all_goals rename_i hop; obtain rfl := byte_eq_of_toNat hop
  case h_4 => obtain ⟨a, d, rfl, h⟩ := onTwo_eq_ok h; exact commandIs_of_makeWr8 h
  case h_5 => obtain ⟨a, d, rfl, h⟩ := onTwo_eq_ok h; exact commandIs_of_makeWr16 h
  case h_7 => obtain ⟨f, l, d, rfl, h⟩ := onThree_eq_ok h; exact commandIs_of_makeMap h
  case h_9 => obtain ⟨s, e, m, f, rfl, h⟩ := onFour_eq_ok h; exact commandIs_of_makeMfill h
  case h_14 => obtain ⟨v, l, m, s, rfl, h⟩ := onFour_eq_ok h; exact commandIs_of_makeRaise h
  case h_15 => obtain ⟨v, l, s, rfl, h⟩ := onThree_eq_ok h; exact commandIs_of_makeRemove h
  -- The rows whose words are all 32 bits wide: none, two, or one of them.
  case h_8 | h_13 | h_16 | h_18 => obtain ⟨rfl, h⟩ := onNone_eq_ok h; cases h; exact ⟨rfl, rfl, rfl⟩
  case h_6 | h_17 => obtain ⟨a, b, rfl, h⟩ := onTwo_eq_ok h; cases h; exact ⟨rfl, rfl, rfl⟩
  all_goals obtain ⟨a, rfl, h⟩ := onOne_eq_ok h; cases h; exact ⟨rfl, rfl, rfl⟩

/-! From the command to the words. -/

theorem makeWr8_setWidth (a : Word) (d : BitVec 8) : makeWr8 a (d.setWidth 32) = .ok (.wr8 a d) := by
  simp [makeWr8, ifFits, fits_setWidth]

theorem makeWr16_setWidth (a : Word) (d : BitVec 16) : makeWr16 a (d.setWidth 32) = .ok (.wr16 a d) := by
  simp [makeWr16, ifFits, fits_setWidth]

theorem makeMap_of_named {f l : BitVec 8} {dev : DeviceId} (h : dev.named extra = true) :
    makeMap extra (f.setWidth 32) (l.setWidth 32) dev.code = .ok (.map f l dev) := by
  simp [makeMap, fits_setWidth, deviceOf_code h]

theorem makeMfill_flags (s e m : Word) (r w : Bool) :
    makeMfill s e m (0#30 ++ (BitVec.ofBool w ++ BitVec.ofBool r)) = .ok (.mfill s e m r w) := by
  obtain ⟨hfits, hr, hw⟩ := fillFlags_spec r w
  rw [makeMfill, hfits, hr, hw]
  rfl

theorem makeRaise_setWidth (v : BitVec 8) (l : BitVec 4) (m : BitVec 16) (s : Word) :
    makeRaise (v.setWidth 32) (l.setWidth 32) (m.setWidth 32) s = .ok (.raise v l m s) := by
  simp [makeRaise, ifFits, fits_setWidth]

theorem makeRemove_setWidth (v : BitVec 8) (l : BitVec 4) (s : Word) :
    makeRemove (v.setWidth 32) (l.setWidth 32) s = .ok (.remove v l s) := by
  simp [makeRemove, ifFits, fits_setWidth]

/-- A well-formed command of the stream is its opcode and its words, and they make it. -/
theorem exists_commandOf (hp : i.fromPort = false) (hwf : i.wf extra = true) :
    ∃ op ws, encode i = commandBytes op ws ∧ reservedOpcode op = false ∧ ws.length = (operandFields op).length
      ∧ commandOf extra op ws = .ok i := by
  cases i <;> cases hp
  case wr8 a d => exact ⟨_, _, rfl, rfl, rfl, makeWr8_setWidth a d⟩
  case wr16 a d => exact ⟨_, _, rfl, rfl, rfl, makeWr16_setWidth a d⟩
  case map f l dev => exact ⟨_, _, rfl, rfl, rfl, makeMap_of_named hwf⟩
  case mfill s e m r w => exact ⟨_, _, rfl, rfl, rfl, makeMfill_flags s e m r w⟩
  case raise v l m s => exact ⟨_, _, rfl, rfl, rfl, makeRaise_setWidth v l m s⟩
  case remove v l s => exact ⟨_, _, rfl, rfl, rfl, makeRemove_setWidth v l s⟩
  all_goals exact ⟨_, _, rfl, rfl, rfl, rfl⟩

end Sys2Proof.Machine

/-! SUPPORT. The bus-port records and the ADDR and REG rows, in both directions, and what executing a register row is
(30_encoding.md R79, R80, R98; 20_memory.md R47; the record's form is the model's, notes/assumptions/3.md). -/

namespace Sys2Proof.Machine

variable {extra : List Word} {bs rest : List Byte} {i : Instr}

/-! The control byte and the datum of a record. -/

/-- An access is read from its own control byte and datum. -/
theorem accessOf_control_datum (op : BusOp) : accessOf op.control op.datum = .ok op := by
  cases op with
  | read w => cases w <;> rfl
  | write8 v => simp [accessOf, BusOp.control, BusOp.datum, fits_setWidth]
  | write16 v => simp [accessOf, BusOp.control, BusOp.datum, fits_setWidth]
  | write32 v => rfl

theorem eq_zero_of_fits {w : Word} (h : fits 0 w = true) : w = 0 :=
  BitVec.eq_of_toNat_eq (Nat.lt_one_iff.1 (of_decide_eq_true h))

/-- A control byte and a datum make at most one access, and are its own. -/
theorem control_datum_of_accessOf {control : Byte} {datum : Word} {op : BusOp} (h : accessOf control datum = .ok op) :
    op.control = control ∧ op.datum = datum := by
  unfold accessOf at h
  split at h
  case h_7 => cases h
  all_goals rename_i hcontrol; obtain rfl := byte_eq_of_toNat hcontrol
  case h_4 => cases h; exact ⟨rfl, rfl⟩
  -- The other rows test the datum: 0 for a read, its width for a narrow write.
  all_goals
    split at h
    case isFalse => cases h
    rename_i hfit
    cases h
  case h_5 | h_6 => exact ⟨rfl, setWidth_setWidth_of_fits hfit⟩
  all_goals exact ⟨rfl, (eq_zero_of_fits hfit).symm⟩

/-! The record. -/

theorem decodeAccess_accessBytes (addr : Word) (op : BusOp) (rest : List Byte) :
    decodeAccess (accessBytes addr op ++ rest) = .command (accessRow addr op) rest := by
  simp only [accessBytes, bytesOf, List.cons_append, List.nil_append, decodeAccess, wordOf_bytesOf,
    accessOf_control_datum]

/-- A string that decodes to an access is that access's record, and the rest. -/
theorem decodeAccess_eq_command (h : decodeAccess bs = .command i rest) :
    ∃ addr op, bs = accessBytes addr op ++ rest ∧ i = accessRow addr op := by
  unfold decodeAccess at h
  split at h
  · next a0 a1 a2 a3 control d0 d1 d2 d3 left =>
    split at h
    · next op hop =>
      obtain ⟨rfl, hdatum⟩ := control_datum_of_accessOf hop
      cases h
      exact ⟨wordOf a0 a1 a2 a3, op, by simp [accessBytes, hdatum, bytesOf_wordOf], rfl⟩
    · cases h
  · cases h

/-! The register rows (30_encoding.md R79, R80). -/

/-- A register row has the bytes of its offset's access, comes from the bus port, and runs as that access. -/
theorem registerRow_spec (off m : BitVec 8) (op : RegOp) :
    encode (registerRow off m op) = registerBytes off m op ∧ (registerRow off m op).fromPort = true
      ∧ ∀ s, exec (registerRow off m op) s = portAccess (handlers s) off m op s := by
  unfold registerRow
  split
  case h_36 => exact ⟨rfl, rfl, fun _ => rfl⟩
  all_goals
    rename_i hoff
    obtain rfl := byte_eq_of_toNat hoff
    exact ⟨rfl, rfl, fun _ => rfl⟩

theorem registerRow_of_not_named {off : BitVec 8} (h : off ∉ namedOffsets) (m : BitVec 8) (op : RegOp) :
    registerRow off m op = .reservedOffset off m op := by
  unfold registerRow
  split
  case h_36 => rfl
  all_goals
    rename_i hoff
    obtain rfl := byte_eq_of_toNat hoff
    exact absurd (by decide) h

/-- The register row of a multiple of 4 is well formed. -/
theorem wf_registerRow {off : BitVec 8} (h : off.extractLsb' 0 2 = 0#2) (m : BitVec 8) (op : RegOp) :
    (registerRow off m op).wf extra = true := by
  by_cases hn : off ∈ namedOffsets
  · clear h
    revert off
    simp only [namedOffsets, List.forall_mem_cons, List.not_mem_nil, IsEmpty.forall_iff, implies_true, and_true]
    and_intros <;> rfl
  · rw [registerRow_of_not_named hn]
    simp [Instr.wf, h, hn]

/-! The address of a register row below its zone bits. -/

/-- A29 of a register row in 29 bits: 0x05FE, the mirror byte, the offset (30_encoding.md R79). -/
def rowA29 (off m : BitVec 8) : BitVec 29 := 0x05FE#13 ++ (m ++ off)

theorem withZone_rowA29 (off m : BitVec 8) : withZone 0 (rowA29 off m) = registerAddress off m :=
  (BitVec.append_assoc (x₁ := 0#3) (x₂ := 0x05FE#13) (x₃ := m ++ off)).symm

/-- A zone-0 word of a register row has a row's A29, at an offset that is a multiple of 4. -/
theorem eq_rowA29_of_isRegisterWord {a : BitVec 29} (h : isRegisterWord a = true) :
    ∃ off m, a = rowA29 off m ∧ off.extractLsb' 0 2 = 0#2 := by
  simp only [isRegisterWord, Bool.and_eq_true, beq_iff_eq] at h
  obtain ⟨hbase, haligned⟩ := h
  refine ⟨a.extractLsb' 0 8, a.extractLsb' 8 8, ?_, ?_⟩
  · rw [rowA29, ← hbase, BitVec.extractLsb'_append_extractLsb'_eq_extractLsb' (show 8 = 0 + 8 from rfl),
      BitVec.extractLsb'_append_extractLsb'_eq_extractLsb' (show 16 = 0 + 16 from rfl)]
    exact BitVec.extractLsb'_eq_self.symm
  · rw [BitVec.extractLsb'_extractLsb'_of_le (by decide), haligned]

theorem isRegisterWord_rowA29 {off : BitVec 8} (h : off.extractLsb' 0 2 = 0#2) (m : BitVec 8) :
    isRegisterWord (rowA29 off m) = true := by
  have hbase : (rowA29 off m).extractLsb' 16 13 = 0x05FE#13 := BitVec.extractLsb'_append_eq_left
  have haligned : (rowA29 off m).extractLsb' 0 2 = 0#2 := by
    rw [rowA29, BitVec.extractLsb'_append_eq_of_add_le (by decide),
      BitVec.extractLsb'_append_eq_of_add_le (by decide), h]
  simp [isRegisterWord, hbase, haligned]

/-- A 32-bit access at a row's A29 in zone 0 is the row. -/
theorem zone0Row_rowA29 {off : BitVec 8} (h : off.extractLsb' 0 2 = 0#2) (m : BitVec 8) (op : RegOp) :
    zone0Row (rowA29 off m) op.toBus = registerRow off m op := by
  have hoff : (rowA29 off m).extractLsb' 0 8 = off := by
    rw [rowA29, BitVec.extractLsb'_append_eq_of_add_le (by decide), BitVec.extractLsb'_append_eq_right]
  have hm : (rowA29 off m).extractLsb' 8 8 = m := by
    rw [rowA29, BitVec.extractLsb'_append_eq_of_add_le (by decide), BitVec.extractLsb'_append_eq_left]
  cases op <;> simp only [zone0Row, RegOp.toBus, isRegisterWord_rowA29 h, if_true, hoff, hm]

/-- Every other access in zone 0 is the page-table route. -/
theorem zone0Row_of_not_register {a : BitVec 29} {op : BusOp} (h : (isRegisterWord a && op.is32) = false) :
    zone0Row a op = .zone0PageTable a op := by
  unfold zone0Row
  split
  · next hreg =>
    rw [hreg, Bool.true_and] at h
    match op with
    | .read .w32 | .write32 _ => cases h
    | .read .w8 | .read .w16 | .write8 _ | .write16 _ => rfl
  · rfl

theorem exists_regOp_of_is32 {op : BusOp} (h : op.is32 = true) : ∃ r : RegOp, op = r.toBus := by
  match op with
  | .read .w32 => exact ⟨.read, rfl⟩
  | .write32 v => exact ⟨.write v, rfl⟩

/-! The rows of an address. -/

theorem exists_withZone (addr : Word) : ∃ zone a, addr = withZone zone a := by
  refine ⟨addr.extractLsb' 29 3, addr.extractLsb' 0 29, ?_⟩
  rw [withZone, BitVec.extractLsb'_append_extractLsb'_eq_extractLsb' (show 29 = 0 + 29 from rfl)]
  exact BitVec.extractLsb'_eq_self.symm

/-- The row of an access is its zone's, where in zone 0 the register rows come first. -/
theorem accessRow_withZone (zone : BitVec 3) (a : BitVec 29) (op : BusOp) :
    accessRow (withZone zone a) op = if zone = 0 then zone0Row a op else zoneRow zone a op := by
  have hzone : (withZone zone a).extractLsb' 29 3 = zone := BitVec.extractLsb'_append_eq_left
  have ha : (withZone zone a).extractLsb' 0 29 = a := BitVec.extractLsb'_append_eq_right
  simp only [accessRow, hzone, ha]
  rcases zone_cases zone with rfl | rfl | rfl | rfl | rfl | rfl | rfl | rfl <;> rfl

theorem accessRow_registerAddress {off : BitVec 8} (h : off.extractLsb' 0 2 = 0#2) (m : BitVec 8) (op : RegOp) :
    accessRow (registerAddress off m) op.toBus = registerRow off m op := by
  rw [← withZone_rowA29, accessRow_withZone, if_pos rfl, zone0Row_rowA29 h]

/-- The row of an access comes from the bus port, is well formed, and has that access's record as its bytes. -/
theorem accessRow_spec (addr : Word) (op : BusOp) :
    (accessRow addr op).fromPort = true ∧ (accessRow addr op).wf extra = true
      ∧ encode (accessRow addr op) = accessBytes addr op := by
  obtain ⟨zone, a, rfl⟩ := exists_withZone addr
  rw [accessRow_withZone]
  split
  · next hzone =>
    subst hzone
    cases hreg : isRegisterWord a && op.is32 with
    | true =>
      obtain ⟨hword, h32⟩ := Bool.and_eq_true_iff.1 hreg
      obtain ⟨off, m, rfl, haligned⟩ := eq_rowA29_of_isRegisterWord hword
      obtain ⟨r, rfl⟩ := exists_regOp_of_is32 h32
      obtain ⟨bytes, fromPort, -⟩ := registerRow_spec off m r
      rw [zone0Row_rowA29 haligned, withZone_rowA29]
      exact ⟨fromPort, wf_registerRow haligned m r, bytes⟩
    | false =>
      rw [zone0Row_of_not_register hreg]
      exact ⟨rfl, by rw [Instr.wf, hreg]; rfl, rfl⟩
  · next hzone =>
    obtain rfl | rfl | rfl | rfl | rfl | rfl | rfl | rfl := zone_cases zone
    · exact absurd rfl hzone
    all_goals exact ⟨rfl, rfl, rfl⟩

/-- A well-formed row of the bus port is the row of the access whose record its bytes are. -/
theorem exists_accessRow (hp : i.fromPort = true) (hwf : i.wf extra = true) :
    ∃ addr op, encode i = accessBytes addr op ∧ accessRow addr op = i := by
  cases i <;> cases hp
  case zone0PageTable a op =>
    exact ⟨_, _, rfl, (accessRow_withZone 0 a op).trans (zone0Row_of_not_register (Bool.not_eq_true' _ ▸ hwf))⟩
  case zone1PageTable a op => exact ⟨_, _, rfl, accessRow_withZone 1 a op⟩
  case zone2DataArray a op => exact ⟨_, _, rfl, accessRow_withZone 2 a op⟩
  case zone3AddressArray a op => exact ⟨_, _, rfl, accessRow_withZone 3 a op⟩
  case zone4Unhandled a op => exact ⟨_, _, rfl, accessRow_withZone 4 a op⟩
  case zone5PageTable a op => exact ⟨_, _, rfl, accessRow_withZone 5 a op⟩
  case zone6DataArray a op => exact ⟨_, _, rfl, accessRow_withZone 6 a op⟩
  case zone7Onchip a op => exact ⟨_, _, rfl, accessRow_withZone 7 a op⟩
  case reservedOffset off m op =>
    simp only [Instr.wf, Bool.and_eq_true, beq_iff_eq, Bool.not_eq_true', List.contains_eq_mem, decide_eq_false_iff_not]
      at hwf
    obtain ⟨haligned, hn⟩ := hwf
    exact ⟨_, _, rfl, (accessRow_registerAddress haligned m op).trans (registerRow_of_not_named hn m op)⟩
  all_goals exact ⟨_, _, rfl, accessRow_registerAddress rfl _ _⟩

end Sys2Proof.Machine

/-! SUPPORT. What the statements about the encoding need beside the two decoders: that the operand words of a command
fit their fields, the step at an INVALID byte string, and that a paged access depends on its A29 only. -/

namespace Sys2Proof.Machine

variable {extra : List Word} {op : Byte} {ws : List Word} {i : Instr} {s : State}

/-! The operand fields of a command (30_encoding.md R77). -/

/-- A command's bytes determine its opcode and its words. -/
theorem commandBytes_inj {op' : Byte} {ws' : List Word} (h : commandBytes op ws = commandBytes op' ws') :
    op = op' ∧ ws = ws' := by
  obtain ⟨hop, hwords⟩ := List.cons.inj h
  have hlen : ws.length = ws'.length := by
    have bytes := congrArg List.length h
    rw [length_commandBytes, length_commandBytes] at bytes
    omega
  have read := takeWords_flatMap_bytesOf ws []
  rw [hwords, hlen, takeWords_flatMap_bytesOf] at read
  cases read
  exact ⟨hop, rfl⟩

theorem fits_word (w : Word) : fits 32 w = true := decide_eq_true w.isLt

/-- The operand words of a command fit their fields. -/
theorem CommandIs.operands_fit (h : CommandIs extra op ws i) :
    ∀ x ∈ ws.zip (operandFields op), fits x.2 x.1 = true := by
  obtain ⟨hp, -, henc⟩ := h
  cases i <;> cases hp
  all_goals obtain ⟨rfl, rfl⟩ := commandBytes_inj henc
  case mfill s e m r w =>
    obtain ⟨flags, -, -⟩ := fillFlags_spec r w
    simp [operandFields, fits_word, flags]
  all_goals simp [operandFields, fits_word, fits_setWidth]

/-! The step at an INVALID byte string (30_encoding.md R77). -/

theorem fetch_of_stream_invalid {why : Invalid} (hp : s.port = [])
    (h : decode s.cfg.extraDevices s.stream = .invalid why) : fetch s = .bad why := by
  simp [fetch, hp, h]

theorem step_of_fetch_bad {why : Invalid} (hm : s.refusalMark = false) (hf : fetch s = .bad why) :
    step s = .refused .invalidCommand := by
  simp [step, hm, hf]

/-! MAP of a code that names no device (30_encoding.md R95). -/

theorem deviceOf_of_unknown {code : Word} (h : 17 ≤ code.toNat) (hc : code ∉ extra) : deviceOf extra code = none := by
  rw [deviceOf_of_le h, if_neg (by simpa using hc)]

theorem makeMap_of_unknown {code : Word} (h : 17 ≤ code.toNat) (hc : code ∉ extra) (f l : BitVec 8) :
    makeMap extra (f.setWidth 32) (l.setWidth 32) code = .error .unknownDevice := by
  simp [makeMap, fits_setWidth, deviceOf_of_unknown h hc]

theorem named_of_unknown {code : Word} (hc : code ∉ extra) : DeviceId.named extra (.ext (.other code)) = false := by
  simp [DeviceId.named, hc]

/-! Paged accesses (20_memory.md R48, R49). -/

theorem access_of_paged {addr : Word} (h : specPaged addr = true) (onCtrl : OnCtrl) (nest : Nest) (op : BusOp)
    (s : State) : access onCtrl nest op addr s = routePage onCtrl nest op addr s := by
  simp only [specPaged, Bool.or_eq_true, beq_iff_eq] at h
  unfold access
  rw [zoneOf_eq]
  rcases h with (hz | hz) | hz <;> simp only [hz]

/-- Two accesses of the paged zones at the same A29 are the same. -/
theorem access_of_sameA29 {addr addr' : Word} (h : specPaged addr = true) (h' : specPaged addr' = true)
    (ha : specA29 addr = specA29 addr') (onCtrl : OnCtrl) (nest : Nest) (op : BusOp) (s : State) :
    access onCtrl nest op addr s = access onCtrl nest op addr' s := by
  rw [access_of_paged h, access_of_paged h', routePage, routePage, a29_eq, a29_eq, ha]

theorem specPaged_registerAddress (off m : BitVec 8) : specPaged (registerAddress off m) = true := by
  obtain ⟨hzone, -, -⟩ := registerAddress_zone off m
  simp [specPaged, hzone]

theorem specA29_registerAddress (off m : BitVec 8) :
    specA29 (registerAddress off m) = BitVec.ofNat 32 (0x05FE0000 + 256 * m.toNat + off.toNat) := by
  obtain ⟨-, -, ha⟩ := registerAddress_zone off m
  rw [ha, ← registerAddress_toNat, BitVec.ofNat_toNat, BitVec.setWidth_eq]

end Sys2Proof.Machine

/-! SUPPORT. The statements about the encoding, settled. -/

namespace Sys2Proof.Machine

/-- Settles O1: a command's words make the command, and a record's access has the row; each decoder reads back what it
was given the bytes of. -/
theorem decodeOfEncode : Obligations.DecodeOfEncode := by
  intro extra i rest hwf
  cases hp : i.fromPort with
  | false =>
    obtain ⟨op, ws, henc, hr, hw, hc⟩ := exists_commandOf hp hwf
    rw [henc]
    exact decode_of_commandOf_ok hr hw hc
  | true =>
    obtain ⟨addr, op, henc, hrow⟩ := exists_accessRow hp hwf
    rw [henc, ← hrow]
    exact decodeAccess_accessBytes addr op rest

/-- Settles O2: a decoded string is an opcode with its words, or a record, and the instruction read from it has those
bytes. -/
theorem encodeOfDecode : Obligations.EncodeOfDecode := by
  intro fromPort extra bs rest i h
  cases fromPort with
  | false =>
    obtain ⟨op, ws, rfl, hc⟩ := decode_eq_command h
    obtain ⟨hp, hwf, henc⟩ := commandIs_of_commandOf hc
    exact ⟨hp, hwf, by rw [henc]⟩
  | true =>
    obtain ⟨addr, op, rfl, rfl⟩ := decodeAccess_eq_command h
    obtain ⟨hp, hwf, henc⟩ := accessRow_spec (extra := extra) addr op
    exact ⟨hp, hwf, by rw [henc]⟩

/-- Settles O3: the words of a command fit their fields, so words of which one does not fit make none. -/
theorem invalidCommandsRefused : Obligations.InvalidCommandsRefused := by
  refine ⟨fun extra op bs hr => ⟨_, decode_of_reserved hr⟩, ?_, ?_⟩
  · rintro extra op ws bs hr hw ⟨x, hx, above⟩
    cases hc : commandOf extra op ws with
    | ok i =>
      have fit : x.1.toNat < 2 ^ x.2 := of_decide_eq_true ((commandIs_of_commandOf hc).operands_fit x hx)
      exact absurd fit (Nat.not_lt.2 above)
    | error why => exact ⟨why, decode_of_commandOf_error hr hw hc⟩
  · intro s why hm hp h
    exact step_of_fetch_bad hm (fetch_of_stream_invalid hp h)

/-- Settles O5: one verdict for each form of a string of command bytes. -/
theorem decoderIsTotal : Obligations.DecoderIsTotal := by
  intro extra bs
  obtain rfl | ⟨op, tail, rfl, hr⟩ | ⟨op, tail, rfl, hr, hs⟩ | ⟨op, ws, rest, rfl, hr, hw⟩ := command_bytes_cases bs
  · exact .inl rfl
  · rw [decode_of_reserved hr]
    exact ⟨op, rfl, .inl hr⟩
  · rw [decode_of_short hr hs]
    exact .inr ⟨op, rfl, hr, by rw [List.length_cons]; omega⟩
  · have hlen : (commandBytes op ws ++ rest).length = 1 + 4 * (operandFields op).length + rest.length := by
      rw [List.length_append, length_commandBytes, hw]
    cases hc : commandOf extra op ws with
    | ok i =>
      rw [decode_of_commandOf_ok hr hw hc]
      exact ⟨op, rfl, hr, hlen⟩
    | error why =>
      rw [decode_of_commandOf_error hr hw hc]
      exact ⟨op, rfl, .inr (by rw [hlen]; omega)⟩

/-- Settles O26: a register row is the access at its own address, and a paged access depends on its A29 only. -/
theorem busReachesRegisterRow : Obligations.BusReachesRegisterRow := by
  intro s op addr off m hpaged ha _
  obtain ⟨-, -, row⟩ := registerRow_spec off m op
  rw [row, portAccess, exec_busCommand, busAccess, busAccess,
    access_of_sameA29 hpaged (specPaged_registerAddress off m) (ha.trans (specA29_registerAddress off m).symm)]

/-- Settles O4: the code is read as no device, and a MAP of it names none. -/
theorem unknownDeviceRefused : Obligations.UnknownDeviceRefused := by
  intro s first last code rest hle hc
  refine ⟨⟨.unknownDevice, ?_⟩, ?_⟩
  · exact decode_of_commandOf_error (ws := [first.setWidth 32, last.setWidth 32, code]) rfl rfl
      (makeMap_of_unknown hle hc first last)
  · simp [exec, execMap, named_of_unknown hc]

/-- Settles O6: each word is decoded as it stands. -/
theorem sampleWordsDecode : Obligations.SampleWordsDecode := by
  unfold Obligations.SampleWordsDecode
  decide

end Sys2Proof.Machine

/-! SUPPORT. What the statements about the dispatcher need: what a list of table fills leaves at an index, what it
leaves alone in the state, and the address of an access in a paged zone. -/

namespace Sys2Proof.Machine

/-! A list of fills: the last one that covers an index counts (40_dispatcher.md R109). -/

/-- Where each of a list of writes sets one observed value if it covers it and keeps it otherwise, the last covering
write decides the value. -/
theorem observe_foldl {σ β γ : Type} {write : σ → β → σ} {observe : σ → γ} {covers : β → Bool} {value : β → γ}
    (h : ∀ s b, observe (write s b) = if covers b then value b else observe s) (s : σ) (bs : List β) :
    observe (bs.foldl write s) = (bs.reverse.find? covers).elim (observe s) value := by
  induction bs using List.reverseRecOn with
  | nil => rfl
  | append_singleton bs b ih =>
    rw [List.foldl_concat, h, List.reverse_concat, List.find?_cons]
    cases covers b with
    | true => rfl
    | false => exact ih

theorem maskPageOf_eq (a : Word) : maskPageOf a = a.toNat / 65536 := by
  simp only [maskPageOf, BitVec.extractLsb'_toNat, Nat.shiftRight_eq_div_pow]
  omega

theorem readMask_fillMasks (m : MaskFill) (s : State) (a : Word) :
    (fillMasks m s).readMask a
      = if m.start.toNat / 65536 ≤ a.toNat / 65536 ∧ a.toNat / 65536 ≤ m.stop.toNat / 65536 then m.entry m.r
        else s.readMask a := by
  simp only [← maskPageOf_eq]
  exact tableGet_fill _ _ _ _ _ _

theorem writeMask_fillMasks (m : MaskFill) (s : State) (a : Word) :
    (fillMasks m s).writeMask a
      = if m.start.toNat / 65536 ≤ a.toNat / 65536 ∧ a.toNat / 65536 ≤ m.stop.toNat / 65536 then m.entry m.w
        else s.writeMask a := by
  simp only [← maskPageOf_eq]
  exact tableGet_fill _ _ _ _ _ _

/-- A page row covers a slot: the test of `pageFrom`. -/
def rowCovers (p : Nat) (e : PageRow) : Bool := decide (e.first.toNat ≤ p) && decide (p ≤ e.last.toNat)

theorem rowCovers_iff (p : Nat) (e : PageRow) : rowCovers p e = true ↔ e.first.toNat ≤ p ∧ p ≤ e.last.toNat := by
  simp [rowCovers]

theorem pageFrom_eq (rows : List PageRow) (p : Nat) :
    pageFrom rows p = (rows.reverse.find? (rowCovers p)).elim .unhandled PageRow.dev := by
  unfold pageFrom rowCovers
  cases rows.reverse.find? _ <;> rfl

/-- A fill covers a mask page: the test of `lastFill`. -/
def fillCovers (page : Nat) (m : MaskFill) : Bool :=
  decide (m.start.toNat / 65536 ≤ page) && decide (page ≤ m.stop.toNat / 65536)

theorem fillCovers_iff (page : Nat) (m : MaskFill) :
    fillCovers page m = true ↔ m.start.toNat / 65536 ≤ page ∧ page ≤ m.stop.toNat / 65536 := by
  simp [fillCovers]

theorem lastFill_eq (fills : List MaskFill) (page : Nat) :
    lastFill fills page = fills.reverse.find? (fillCovers page) := rfl

theorem page_foldl_mapPages (s : State) (rows : List PageRow) (p : Nat) :
    (rows.foldl (fun t e => mapPages e.first e.last e.dev t) { s with pt := [] }).page p = pageFrom rows p := by
  rw [pageFrom_eq]
  exact observe_foldl (write := fun t e => mapPages e.first e.last e.dev t) (observe := fun t => t.page p)
    (covers := rowCovers p) (value := PageRow.dev) (fun t e => by simp only [page_mapPages, rowCovers_iff])
    { s with pt := [] } rows

theorem readMask_foldl_fillMasks (s : State) (fills : List MaskFill) (a : Word) :
    (fills.foldl (fun t m => fillMasks m t) s).readMask a
      = (lastFill fills (a.toNat / 65536)).elim (s.readMask a) fun m => m.entry m.r := by
  rw [lastFill_eq]
  exact observe_foldl (write := fun t m => fillMasks m t) (observe := fun t => t.readMask a)
    (fun t m => by simp only [readMask_fillMasks, fillCovers_iff]) s fills

theorem writeMask_foldl_fillMasks (s : State) (fills : List MaskFill) (a : Word) :
    (fills.foldl (fun t m => fillMasks m t) s).writeMask a
      = (lastFill fills (a.toNat / 65536)).elim (s.writeMask a) fun m => m.entry m.w := by
  rw [lastFill_eq]
  exact observe_foldl (write := fun t m => fillMasks m t) (observe := fun t => t.writeMask a)
    (fun t m => by simp only [writeMask_fillMasks, fillCovers_iff]) s fills

/-! The frame: page rows write the page table only, fills the masks only. -/

theorem foldl_mapPages_frame (rows : List PageRow) (s : State) :
    ∃ pt, rows.foldl (fun t e => mapPages e.first e.last e.dev t) s = { s with pt := pt } := by
  induction rows generalizing s with
  | nil => exact ⟨s.pt, rfl⟩
  | cons e rows ih => exact ih (mapPages e.first e.last e.dev s)

theorem foldl_fillMasks_frame (fills : List MaskFill) (s : State) :
    ∃ mr mw, fills.foldl (fun t m => fillMasks m t) s = { s with mr := mr, mw := mw } := by
  induction fills generalizing s with
  | nil => exact ⟨s.mr, s.mw, rfl⟩
  | cons m fills ih => exact ih (fillMasks m s)

/-! The address of an access in a zone (20_memory.md R46, R49). -/

theorem specZone_withZone (zone : BitVec 3) (a : BitVec 29) : specZone (withZone zone a) = zone.toNat := by
  rw [← zoneOf_eq, zoneOf_withZone]

theorem specA29_withZone (zone : BitVec 3) (a : BitVec 29) : specA29 (withZone zone a) = a.setWidth 32 := by
  have ha : (withZone zone a).extractLsb' 0 29 = a := BitVec.extractLsb'_append_eq_right
  apply BitVec.eq_of_toNat_eq
  conv_rhs => rw [← ha]
  simp only [specA29, BitVec.toNat_ofNat, BitVec.toNat_setWidth, BitVec.extractLsb'_toNat, Nat.shiftRight_zero]

/-- A bus command in a paged zone depends on its A29 only. -/
theorem exec_busCommand_of_sameA29 {addr addr' : Word} (h : specPaged addr = true) (h' : specPaged addr' = true)
    (ha : specA29 addr = specA29 addr') (op : BusOp) (s : State) :
    exec (busCommand op addr) s = exec (busCommand op addr') s := by
  rw [exec_busCommand, exec_busCommand, busAccess, busAccess, access_of_sameA29 h h' ha]

end Sys2Proof.Machine

/-! SUPPORT. The statements about the dispatcher, settled. -/

namespace Sys2Proof.Machine

/-- Settles O19: a MAP of a named device is one fill of the page table. -/
theorem mapResult : Obligations.MapResult := by
  intro first last dev s hdev
  exact ⟨silent (mapPages first last dev s), if_pos hdev, page_mapPages first last dev s, rfl⟩

/-- Settles O20: the fills leave the page table alone, so the pages are those of the page rows over an empty table; the
page rows leave the masks alone, so the masks are those of the fills over the old ones. -/
theorem initResult : Obligations.InitResult := by
  intro s
  obtain ⟨pt, hmap⟩ := foldl_mapPages_frame s.cfg.initPageMap { s with pt := [] }
  obtain ⟨mr, mw, hfill⟩ := foldl_fillMasks_frame s.cfg.initMaskFills { s with pt := pt }
  have hinit : initTables s = s.cfg.initMaskFills.foldl (fun t m => fillMasks m t) { s with pt := pt } := by
    rw [initTables, hmap]
  refine ⟨silent (initTables s), rfl, fun p => ?page, fun a => ?readMask, fun a => ?writeMask, ?frame⟩
  case page =>
    rw [← page_foldl_mapPages s, hmap, hinit, hfill]
    rfl
  case readMask =>
    change (initTables s).readMask a = _
    rw [hinit, readMask_foldl_fillMasks]
    cases lastFill s.cfg.initMaskFills (a.toNat / 65536) <;> rfl
  case writeMask =>
    change (initTables s).writeMask a = _
    rw [hinit, writeMask_foldl_fillMasks]
    cases lastFill s.cfg.initMaskFills (a.toNat / 65536) <;> rfl
  case frame =>
    rw [hinit, hfill]
    rfl

/-- Settles O25: zones 0, 1 and 5 are paged, and the zone bits are no part of A29. -/
theorem pagedZonesAlias : Obligations.PagedZonesAlias := by
  intro s op a
  have paged {zone : BitVec 3} (h : zone = 0 ∨ zone = 1 ∨ zone = 5) : specPaged (withZone zone a) = true := by
    rcases h with rfl | rfl | rfl <;> simp [specPaged, specZone_withZone]
  have sameAsZone0 {zone : BitVec 3} (h : zone = 0 ∨ zone = 1 ∨ zone = 5) :
      exec (busCommand op (withZone zone a)) s = exec (busCommand op (withZone 0 a)) s :=
    exec_busCommand_of_sameA29 (paged h) (paged (.inl rfl))
      ((specA29_withZone zone a).trans (specA29_withZone 0 a).symm) op s
  exact ⟨sameAsZone0 (.inr (.inl rfl)), sameAsZone0 (.inr (.inr rfl))⟩

end Sys2Proof.Machine

/-! SUPPORT. What the statements about the region masks need: the entries of a page inside and outside a fill, and the
entry that a look-up reads. -/

namespace Sys2Proof.Machine

/-- A page in the range of a fill holds the fill's entry in both tables, whatever it held before
(41_region_mask.md R113). -/
theorem masks_fillMasks_of_covered {m : MaskFill} {a : Word}
    (ha : m.start.toNat / 65536 ≤ a.toNat / 65536 ∧ a.toNat / 65536 ≤ m.stop.toNat / 65536) (s : State) :
    (fillMasks m s).readMask a = m.entry m.r ∧ (fillMasks m s).writeMask a = m.entry m.w :=
  ⟨(readMask_fillMasks m s a).trans (if_pos ha), (writeMask_fillMasks m s a).trans (if_pos ha)⟩

/-- A page outside the range of a fill keeps its entries. -/
theorem masks_fillMasks_of_not_covered {m : MaskFill} {a : Word}
    (ha : ¬ (m.start.toNat / 65536 ≤ a.toNat / 65536 ∧ a.toNat / 65536 ≤ m.stop.toNat / 65536)) (s : State) :
    (fillMasks m s).readMask a = s.readMask a ∧ (fillMasks m s).writeMask a = s.writeMask a :=
  ⟨(readMask_fillMasks m s a).trans (if_neg ha), (writeMask_fillMasks m s a).trans (if_neg ha)⟩

theorem readMask_eq (s : State) (a : Word) : s.readMask a = tableGet 0 s.mr (a.toNat / 65536) := by
  rw [State.readMask, maskPageOf_eq]

theorem writeMask_eq (s : State) (a : Word) : s.writeMask a = tableGet 0 s.mw (a.toNat / 65536) := by
  rw [State.writeMask, maskPageOf_eq]

theorem exec_mlkr (a : Word) (s : State) : exec (.mlkr a) s = .next (returning (s.readMask a) s) := rfl

theorem exec_mlkw (a : Word) (s : State) : exec (.mlkw a) s = .next (returning (s.writeMask a) s) := rfl

end Sys2Proof.Machine

/-! SUPPORT. The statements about the region masks, settled. -/

namespace Sys2Proof.Machine

/-- Settles O21: MFILL is one fill of both tables, and the pages divide into those it covers and the others. -/
theorem mfillResult : Obligations.MfillResult := by
  intro start stop wmask r w s
  refine ⟨silent (fillMasks ⟨start, stop, wmask, r, w⟩ s), rfl, fun a ha => ?inside, fun a ha => ?outside, rfl⟩
  case inside => exact masks_fillMasks_of_covered (m := ⟨start, stop, wmask, r, w⟩) ha s
  case outside => exact masks_fillMasks_of_not_covered (m := ⟨start, stop, wmask, r, w⟩) ha s

/-- Settles O22: a look-up returns the entry at the page of the address, which is the address divided by the page
size. -/
theorem maskLookup : Obligations.MaskLookup := by
  intro addr s
  rw [exec_mlkr, exec_mlkw, readMask_eq, writeMask_eq]
  exact ⟨rfl, rfl⟩

end Sys2Proof.Machine

/-! SUPPORT. What a register row does where the default maps put the controller: each row is the access of the one
register that the default offset map has at its offset (30_encoding.md R80; 42_controller_registers.md R120). -/

namespace Sys2Proof.Machine

/-! Offsets. -/

/-- The bit field of the alignment test is the remainder by 4. -/
theorem offsetAligned_eq (off : BitVec 8) : offsetAligned off = decide (off.toNat % 4 = 0) := by
  rw [offsetAligned, Bool.beq_eq_decide_eq, decide_eq_decide, ← BitVec.toNat_inj]
  simp

/-- The default offset map has nothing at an offset that no row names. -/
theorem ctrlRegAt_default_of_not_named {off : BitVec 8} (h : off ∉ namedOffsets) :
    ctrlRegAt Config.default off = .reserved := by
  have names : namedOffsets = defaultRegOffsets.map OffsetRow.off := rfl
  have absent : defaultRegOffsets.find? (fun e => e.off == off) = none :=
    List.find?_eq_none.2 fun e he heq => h (names ▸ List.mem_map.2 ⟨e, he, eq_of_beq heq⟩)
  rw [ctrlRegAt, show Config.default.regOffsets = defaultRegOffsets from rfl, absent]

/-- A row of a channel is the access of an offset, a multiple of 4, where the default offset map has that register. -/
theorem channelRow_spec (c : Chan) (f : DmaField) (m : BitVec 8) (op : RegOp) : ∃ off : BitVec 8,
    (∀ s, exec (channelRow c f m op) s = portAccess (handlers s) off m op s) ∧ offsetAligned off = true
      ∧ ctrlRegAt Config.default off = .dma c f := by
  cases c <;> cases f <;> exact ⟨_, fun _ => rfl, rfl, rfl⟩

/-! The rows. -/

section

variable {s : State} (hs : s.CtrlMapped) (m : BitVec 8) (op : RegOp)

include hs

/-- A row does what an access of its register does, the one that the default offset map has at the row's offset. -/
theorem exec_row_of_ctrlMapped {i : Instr} (off : BitVec 8) (reg : CtrlReg) {x : Res (State × Word)}
    (row : exec i s = portAccess (handlers s) off m op s) (aligned : offsetAligned off = true)
    (register : ctrlRegAt Config.default off = reg)
    (result : ctrlRegAt s.cfg off = reg → registerAccess (handlers s) off op s = x) :
    exec i s = finishAccess op.toBus x := by
  rw [row, portAccess_of_ctrlMapped hs _ _ _ _ aligned, result ((ctrlRegAt_of_ctrlMapped hs off).trans register)]

theorem exec_ims_of_ctrlMapped : exec (.ims m op) s = finishAccess op.toBus (imsRegister op s) :=
  exec_row_of_ctrlMapped hs m op 0xA0 .ims rfl rfl rfl fun h => by rw [registerAccess, h]

theorem exec_ist_of_ctrlMapped : exec (.ist m op) s = finishAccess op.toBus (istRegister op s) :=
  exec_row_of_ctrlMapped hs m op 0xA4 .ist rfl rfl rfl fun h => by rw [registerAccess, h]

theorem exec_aiack_of_ctrlMapped : exec (.aiack m op) s = finishAccess op.toBus (aiackRegister op s) :=
  exec_row_of_ctrlMapped hs m op 0xA8 .aiack rfl rfl rfl fun h => by rw [registerAccess, h]

theorem exec_dstp_of_ctrlMapped : exec (.dstp m op) s = finishAccess op.toBus (dstpRegister op s) :=
  exec_row_of_ctrlMapped hs m op 0x60 .dstp rfl rfl rfl fun h => by rw [registerAccess, h]

theorem exec_dsta_of_ctrlMapped : exec (.dsta m op) s = finishAccess op.toBus (dstaRegister op s) :=
  exec_row_of_ctrlMapped hs m op 0x7C .dsta rfl rfl rfl fun h => by rw [registerAccess, h]

theorem exec_reservedOffset_of_ctrlMapped {off : BitVec 8} (ho : off.toNat % 4 = 0) (hn : off ∉ namedOffsets) :
    exec (.reservedOffset off m op) s = finishAccess op.toBus (reservedRegister op s) :=
  exec_row_of_ctrlMapped hs m op off .reserved rfl (by rw [offsetAligned_eq, decide_eq_true ho])
    (ctrlRegAt_default_of_not_named hn) fun h => by rw [registerAccess, h]

/-- A read of any of the six registers of a channel returns it. -/
theorem exec_channelRow_read (c : Chan) (f : DmaField) :
    exec (channelRow c f m .read) s = .next (returning (fieldGet f (s.regs c)) s) := by
  obtain ⟨off, row, aligned, register⟩ := channelRow_spec c f m .read
  refine exec_row_of_ctrlMapped hs m .read off (.dma c f) (x := .next (s, fieldGet f (s.regs c))) (row s) aligned
    register fun h => ?_
  rw [registerAccess, h]
  cases f <;> rfl

/-- A write of a register of a channel other than DcEN stores it. -/
theorem exec_channelRow_write (c : Chan) {f : DmaField} (hf : f ≠ .en) (v : Word) :
    exec (channelRow c f m (.write v)) s = .next (silent (s.modRegs c (fieldSet f v))) := by
  obtain ⟨off, row, aligned, register⟩ := channelRow_spec c f m (.write v)
  refine exec_row_of_ctrlMapped hs m (.write v) off (.dma c f) (x := .next (s.modRegs c (fieldSet f v), 0)) (row s)
    aligned register fun h => ?_
  rw [registerAccess, h]
  cases f with
  | en => exact absurd rfl hf
  | _ => rfl

end

/-- A write of one register of one channel is seen in that register of that channel only. -/
theorem fieldGet_regs_modRegs_fieldSet (s : State) (c d : Chan) (f g : DmaField) (v : Word) :
    fieldGet g ((s.modRegs c (fieldSet f v)).regs d) = if d = c ∧ g = f then v else fieldGet g (s.regs d) := by
  by_cases hd : d = c
  · subst hd
    by_cases hg : g = f
    · subst hg; simp
    · simp [hg, Ne.symm hg]
  · simp [hd, Ne.symm hd]

end Sys2Proof.Machine

/-! SUPPORT. The arbiter's shared operations in one step each: a retest, and the removal by status
(44_interrupt_arbiter.md R177, R180). -/

namespace Sys2Proof.Machine

variable {s : State} {r : IrqRecord} {rest : List IrqRecord}

/-- The next record a retest delivers is the last of those that are unmasked. -/
theorem nextDue_eq (s : State) :
    takeLast (fun r => unmasked s.ims r.mask) s.q = takeLast (fun r => s.lets r.mask) s.q := by
  simp only [unmasked_eq_lets]

/-! What a retest delivers and keeps, by mode. -/

theorem due_of_all (hall : s.cfg.retestMode = .all) : s.due = (s.q.filter fun r => s.lets r.mask).reverse := by
  simp only [State.due, hall]

theorem due_of_one (hone : s.cfg.retestMode = .one) :
    s.due = (s.q.filter fun r => s.lets r.mask).reverse.take 1 := by
  simp only [State.due, hone]

theorem kept_of_all (hall : s.cfg.retestMode = .all) : s.kept = s.q.filter fun r => !s.lets r.mask := by
  simp only [State.kept, hall]

theorem kept_of_one (hone : s.cfg.retestMode = .one) :
    s.kept = (s.q.reverse.eraseP fun r => s.lets r.mask).reverse := by
  simp only [State.kept, hone]

/-! The retest. -/

/-- With every record masked a retest changes nothing. -/
theorem retested_of_nothing_due (h : takeLast (fun r => s.lets r.mask) s.q = none) : s.retested = s := by
  have nothing : s.q.filter (fun r => s.lets r.mask) = [] := filter_of_takeLast_none h
  have all_masked : ∀ x ∈ s.q, s.lets x.mask = false := by simpa using nothing
  have unchanged : s.due = [] ∧ s.kept = s.q := by
    cases hmode : s.cfg.retestMode with
    | all =>
      rw [due_of_all hmode, kept_of_all hmode, nothing]
      exact ⟨rfl, List.filter_eq_self.2 fun x hx => by simp [all_masked x hx]⟩
    | one =>
      rw [due_of_one hmode, kept_of_one hmode, nothing, List.eraseP_of_forall_not (by simpa using all_masked)]
      exact ⟨rfl, List.reverse_reverse s.q⟩
  obtain ⟨due, kept⟩ := unchanged
  have no_bits : s.ist &&& ~~~statusBits [] = s.ist := BitVec.and_allOnes
  rw [State.retested, due, kept, no_bits, List.map_nil, List.append_nil]

/-- Under ALL a retest is the delivery of the next record due, then a retest of what it leaves. -/
theorem retested_deliverQueued (hall : s.cfg.retestMode = .all)
    (h : takeLast (fun r => s.lets r.mask) s.q = some (r, rest)) : (deliverQueued r rest s).retested = s.retested := by
  obtain ⟨ready, masked, -⟩ := filter_of_takeLast_some h
  have hall' : (deliverQueued r rest s).cfg.retestMode = .all := hall
  have due : s.due = r :: (deliverQueued r rest s).due := by
    rw [due_of_all hall, due_of_all hall', ready, List.reverse_concat]
    rfl
  have kept : (deliverQueued r rest s).kept = s.kept := by
    rw [kept_of_all hall, kept_of_all hall', masked]
    rfl
  have ist : (deliverQueued r rest s).ist = s.ist &&& ~~~r.status := rfl
  have history : (deliverQueued r rest s).history = s.history ++ [.sendInterrupt .primary r.vector r.level] := rfl
  rw [State.retested, State.retested, kept, due, ist, history, and_not_and_not, List.append_assoc]
  rfl

/-- Under ALL enough passes are a whole retest. -/
theorem retestPasses_of_all {n : Nat} (hall : s.cfg.retestMode = .all) (hn : s.q.length ≤ n) :
    retestPasses n s = s.retested := by
  induction n generalizing s with
  | zero =>
    have empty : s.q = [] := List.length_eq_zero_iff.1 (Nat.le_zero.1 hn)
    have nothing : takeLast (fun r => s.lets r.mask) s.q = none := by rw [empty]; rfl
    exact (retested_of_nothing_due nothing).symm
  | succ n ih =>
    rw [retestPasses, nextDue_eq]
    cases h : takeLast (fun r => s.lets r.mask) s.q with
    | none => exact (retested_of_nothing_due h).symm
    | some next =>
      obtain ⟨r, rest⟩ := next
      obtain ⟨-, -, shorter⟩ := filter_of_takeLast_some h
      have left : rest.length ≤ n := by omega
      exact (ih (s := deliverQueued r rest s) hall left).trans (retested_deliverQueued hall h)

/-- Under ONE a retest is a single delivery. -/
theorem deliverQueued_of_one (hone : s.cfg.retestMode = .one)
    (h : takeLast (fun r => s.lets r.mask) s.q = some (r, rest)) : deliverQueued r rest s = s.retested := by
  obtain ⟨ready, -, -⟩ := filter_of_takeLast_some h
  have due : s.due = [r] := by rw [due_of_one hone, ready, List.reverse_concat]; rfl
  have kept : s.kept = rest := by
    rw [takeLast_eq] at h
    obtain ⟨x, -, hx⟩ := Option.map_eq_some_iff.1 h
    obtain ⟨-, hrest⟩ := Prod.mk.inj hx
    rw [kept_of_one hone, hrest]
  have bits : statusBits [r] = r.status := BitVec.or_zero
  rw [State.retested, due, kept, bits]
  rfl

/-- The model's retest is the retest of the specification, in both modes. -/
theorem retestQueue_eq_retested (s : State) : retestQueue s = s.retested := by
  unfold retestQueue
  cases hmode : s.cfg.retestMode with
  | all => exact retestPasses_of_all hmode (Nat.le_refl _)
  | one =>
    show retestPasses 1 s = s.retested
    rw [retestPasses, nextDue_eq]
    cases h : takeLast (fun r => s.lets r.mask) s.q with
    | none => exact (retested_of_nothing_due h).symm
    | some next => exact deliverQueued_of_one hmode h

/-- A removal by status drops the records that carry a bit cleared between the two values. -/
theorem removeByStatus_eq_droppedBy (before after : BitVec 32) (s : State) :
    removeByStatus before after s = s.droppedBy (before &&& ~~~after) := by
  simp only [removeByStatus, State.droppedBy, clearedBits, foldl_statusClear, bne, Bool.not_not]

end Sys2Proof.Machine

/-! SUPPORT. The accesses of the controller page that are not 32 bits at a multiple of 4
(42_controller_registers.md R141). -/

namespace Sys2Proof.Machine

variable {s : State} {addr : Word}

theorem offsetAligned_specA29 (addr : Word) :
    offsetAligned (regOffset (specA29 addr)) = decide (addr.toNat % 4 = 0) := by
  rw [offsetAligned_eq, decide_eq_decide]
  simp only [regOffset, specA29, BitVec.extractLsb'_toNat, BitVec.toNat_ofNat, Nat.shiftRight_zero]
  omega

theorem exec_busCommand_of_reachesCtrl (hc : s.reachesCtrl addr = true) (op : BusOp) :
    exec (busCommand op addr) s = finishAccess op (ctrlAccess (handlers s) op (specA29 addr) s) := by
  rw [exec_busCommand, busAccess, access_of_reachesCtrl _ _ _ _ hc]

/-- A read of a narrow width or at another offset is a draw. -/
theorem ctrlAccess_read_of_narrow {w : Width} (h : w ≠ .w32 ∨ addr.toNat % 4 ≠ 0) (nest : Nest) (s : State) :
    ctrlAccess nest (.read w) (specA29 addr) s = drawRead w s := by
  cases w with
  | w8 => rfl
  | w16 => rfl
  | w32 =>
    have misaligned : addr.toNat % 4 ≠ 0 := h.resolve_left (· rfl)
    simp [ctrlAccess, offsetAligned_specA29, misaligned]

theorem ctrlAccess_write32_of_misaligned (h : addr.toNat % 4 ≠ 0) (nest : Nest) (v : Word) (s : State) :
    ctrlAccess nest (.write32 v) (specA29 addr) s = .refused .ctrlMisaligned := by
  simp [ctrlAccess, offsetAligned_specA29, h]

end Sys2Proof.Machine

/-! SUPPORT. The statements about the controller registers, settled. -/

namespace Sys2Proof.Machine

/-- Settles O27: the access is the controller's, which draws or refuses by the width and the two low bits. -/
theorem narrowControllerAccess : Obligations.NarrowControllerAccess := by
  intro s addr hc
  refine ⟨fun w hw => ?read, fun v => ?write8, fun v => ?write16, fun hmis v => ?write32⟩
  case read =>
    rw [exec_busCommand_of_reachesCtrl hc, ctrlAccess_read_of_narrow hw]
    rfl
  case write8 => exact exec_busCommand_of_reachesCtrl hc (.write8 v)
  case write16 => exact exec_busCommand_of_reachesCtrl hc (.write16 v)
  case write32 =>
    refine (exec_busCommand_of_reachesCtrl hc (.write32 v)).trans ?_
    rw [ctrlAccess_write32_of_misaligned hmis]
    rfl

/-- Settles O28: the write is one register of one channel, and the rest of the state is its frame. -/
theorem dmaRegisterWrite : Obligations.DmaRegisterWrite := by
  intro s c f m v hs hf
  exact ⟨silent (s.modRegs c (fieldSet f v)), exec_channelRow_write hs m c hf v,
    fun d g => fieldGet_regs_modRegs_fieldSet s c d f g v, rfl⟩

/-- Settles O31: the write stores the low half and is a retest from there. -/
theorem imsWrite : Obligations.ImsWrite := by
  intro s m v hs
  have low : BitVec.ofNat 16 (v.toNat % 65536) = v.setWidth 16 := by
    apply BitVec.eq_of_toNat_eq
    simp
  rw [exec_ims_of_ctrlMapped hs, imsRegister, finishAccess_next, retestQueue_eq_retested, low]
  rfl

/-- Settles O32: the write is a removal by status, from the old status to the new one. -/
theorem istWrite : Obligations.IstWrite := by
  intro s m v hs
  rw [exec_ist_of_ctrlMapped hs, istRegister, finishAccess_next, removeByStatus_eq_droppedBy]
  rfl

/-- Settles O33: bit 0 decides between a retest with the flag set and a clear flag alone. -/
theorem aiackWrite : Obligations.AiackWrite := by
  intro s m v hs
  rw [exec_aiack_of_ctrlMapped hs, aiackRegister, finishAccess_next]
  constructor <;> intro hbit
  · rw [hbit, if_pos rfl, retestQueue_eq_retested]
    rfl
  · rw [hbit, if_neg Bool.false_ne_true]
    rfl

/-- Settles O29: every row of a channel reads its own register. -/
theorem dmaRegisterRead : Obligations.DmaRegisterRead := fun _ c f m hs => exec_channelRow_read hs m c f

/-- Settles O30: each row reads its own register; the flag is one bit, zero-extended. -/
theorem interruptRegisterRead : Obligations.InterruptRegisterRead := by
  intro s m hs
  have flag : (BitVec.ofBool s.aiack).setWidth 32 = if s.aiack then (1 : Word) else 0 := by
    cases s.aiack <;> rfl
  refine ⟨exec_ims_of_ctrlMapped hs m .read, exec_ist_of_ctrlMapped hs m .read, ?_⟩
  rw [exec_aiack_of_ctrlMapped hs, ← flag]
  rfl

/-- Settles O34: the three kinds of register without a stored value, by row and direction. -/
theorem drawRegisters : Obligations.DrawRegisters := by
  intro s m off v hs ho hn drawn
  refine ⟨exec_dsta_of_ctrlMapped hs m .read, exec_dstp_of_ctrlMapped hs m .read,
    exec_reservedOffset_of_ctrlMapped hs m .read ho hn, exec_dsta_of_ctrlMapped hs m (.write v),
    exec_reservedOffset_of_ctrlMapped hs m (.write v) ho hn, fun hbit => ?noStop, fun hbit => ?stop⟩
  case noStop =>
    rw [exec_dstp_of_ctrlMapped hs, dstpRegister, hbit]
    rfl
  case stop =>
    rw [exec_dstp_of_ctrlMapped hs, dstpRegister, hbit]
    rfl

/-- Settles O35: a forwarded row is one call of SCU_OTHER, which a quiet environment answers at once. -/
theorem forwardedRegisters : Obligations.ForwardedRegisters := by
  rintro s m op hs hq ⟨off, i⟩ hrow
  rw [exec_forwardedRow_of_ctrlMapped hs hrow, handlers, extAccess_of_quiet hq, finishAccess_next]
  cases op <;> rfl

end Sys2Proof.Machine

/-! SUPPORT. The DMA engine's accesses in a quiet environment: an access looks at neither the channels nor the DMA
registers, and one of the engine is either refused or the access of the zone table (43_dma.md R144, R158). -/

namespace Sys2Proof.Machine

variable {s : State} {c : Chan}

/-! Updates of the engine's own state, and accesses. -/

@[simp] theorem accessed_modChan (s : State) (c : Chan) (f : Channel → Channel) (op : BusOp) (a : Word) :
    (s.modChan c f).accessed op a = (s.accessed op a).modChan c f := by
  have target : (s.modChan c f).target op a = s.target op a := rfl
  simp only [State.accessed, target]
  cases s.target op a with
  | none => rfl
  | some call => cases op <;> rfl

@[simp] theorem accessed_modRegs (s : State) (c : Chan) (f : DmaRegs → DmaRegs) (op : BusOp) (a : Word) :
    (s.modRegs c f).accessed op a = (s.accessed op a).modRegs c f := by
  have target : (s.modRegs c f).target op a = s.target op a := rfl
  simp only [State.accessed, target]
  cases s.target op a with
  | none => rfl
  | some call => cases op <;> rfl

@[simp] theorem valueAt_modChan (s : State) (c : Chan) (f : Channel → Channel) (op : BusOp) (a : Word) :
    (s.modChan c f).valueAt op a = s.valueAt op a := rfl

@[simp] theorem valueAt_modRegs (s : State) (c : Chan) (f : DmaRegs → DmaRegs) (op : BusOp) (a : Word) :
    (s.modRegs c f).valueAt op a = s.valueAt op a := rfl

@[simp] theorem reachesCtrl_modRegs (s : State) (c : Chan) (f : DmaRegs → DmaRegs) (a : Word) :
    (s.modRegs c f).reachesCtrl a = s.reachesCtrl a := rfl

/-- Whether an access reaches the controller depends on the page table and the parameters only. -/
theorem reachesCtrl_congr {t : State} (hpt : t.pt = s.pt) (hcfg : t.cfg = s.cfg) (a : Word) :
    t.reachesCtrl a = s.reachesCtrl a := by
  simp only [State.reachesCtrl, State.page, hpt, hcfg]

/-- An update that leaves a channel as it is leaves the state as it is. -/
theorem modChan_eq_self {f : Channel → Channel} (h : f (s.chan c) = s.chan c) : s.modChan c f = s := by
  rw [State.modChan, show f (s.ch.get c) = s.ch.get c from h, Trio.set_get]

/-! The engine's accesses. -/

/-- A read of the engine, in both cases. -/
theorem dmaRead_eq (hq : s.Quiet) (n : Nat) (w : Width) (a : Word) :
    dmaRead (handlersTo n) w a s
      = if s.reachesCtrl a then .refused .dmaToController
        else .next (s.accessed (.read w) a, s.valueAt (.read w) a) := by
  cases h : s.reachesCtrl a with
  | true => exact access_of_reachesCtrl _ _ _ _ h
  | false => exact dmaRead_of_quiet a hq n w h

/-- A write of the engine, in both cases. -/
theorem dmaWrite_eq (hq : s.Quiet) (n : Nat) (op : BusOp) (a : Word) :
    dmaWrite (handlersTo n) op a s
      = if s.reachesCtrl a then .refused .dmaToController else .next (s.accessed op a) := by
  cases h : s.reachesCtrl a with
  | true => rw [dmaWrite, access_of_reachesCtrl _ _ _ _ h]; rfl
  | false => exact dmaWrite_of_quiet op a hq n h

end Sys2Proof.Machine

/-! SUPPORT. One unit of a channel in a quiet environment (43_dma.md R154 to R158): a read if the unit makes one, a
write, and the change of the channel. The three kinds of unit differ only in what they read, write and change. -/

namespace Sys2Proof.Machine

variable {s : State} {c : Chan}

/-! What a unit does, as data. -/

/-- A channel copies if its read address moves; else it fills. -/
def Channel.copies (k : Channel) : Bool := decide (k.raAdd ≠ 0)

theorem unitReads_of_copies {k : Channel} (h : k.copies = true) : k.unitReads = true := Bool.or_eq_true_iff.2 (.inl h)

theorem unitReads_of_fills {k : Channel} (h : k.copies = false) :
    k.unitReads = ((!k.narrow || !k.half) && !(k.csrc && k.fvalid)) := by
  show (k.copies || _) = _
  rw [h, Bool.false_or]

/-- The width of the read of a unit: a fill reads its whole value. -/
def Channel.unitWidth (k : Channel) : Width := if k.copies && k.narrow then .w16 else .w32

/-- The datum a unit has in hand when it writes. -/
def State.unitDatum (s : State) (c : Chan) : Word :=
  if (s.chan c).unitReads then s.valueAt (.read (s.chan c).unitWidth) (s.chan c).ra else (s.chan c).fval

/-- The state when a unit writes. -/
def State.unitFetched (s : State) (c : Chan) : State :=
  if (s.chan c).unitReads then s.accessed (.read (s.chan c).unitWidth) (s.chan c).ra else s

/-- The write of a unit with datum `v`; a narrow fill writes the high half first. -/
def Channel.unitWrite (k : Channel) (v : Word) : BusOp :=
  if k.narrow then .write16 (if k.copies then v.setWidth 16 else if k.half then lowHalf v else highHalf v)
  else .write32 v

/-- The channel after a unit with datum `v`. -/
def Channel.afterUnit (k : Channel) (v : Word) : Channel :=
  let size : Word := if k.narrow then 2 else 4
  let written : Channel := { k with wa := k.wa + k.waAdd, tn := k.tn - size, segw := true }
  if k.copies then { written with ra := k.ra + size }
  else { written with fval := v, fvalid := k.fvalid || k.unitReads, half := if k.narrow then !k.half else k.half }

/-- The state after a unit. -/
def State.unitDone (s : State) (c : Chan) : State :=
  ((s.unitFetched c).accessed ((s.chan c).unitWrite (s.unitDatum c)) (s.chan c).wa).modChan c
    fun k => k.afterUnit (s.unitDatum c)

/-- No access of the next unit reaches the controller. -/
def State.unitAvoids (s : State) (c : Chan) : Bool :=
  !((s.chan c).unitReads && s.reachesCtrl (s.chan c).ra) && !s.reachesCtrl (s.chan c).wa

/-! The phases of a unit. -/

theorem modChan_congr {f g : Channel → Channel} (h : f (s.chan c) = g (s.chan c)) : s.modChan c f = s.modChan c g := by
  rw [State.modChan, State.modChan, show f (s.ch.get c) = g (s.ch.get c) from h]

@[simp] theorem chan_unitFetched (s : State) (c d : Chan) : (s.unitFetched c).chan d = s.chan d := by
  unfold State.unitFetched; split <;> simp

@[simp] theorem reachesCtrl_unitFetched (s : State) (c : Chan) (a : Word) :
    (s.unitFetched c).reachesCtrl a = s.reachesCtrl a := by
  unfold State.unitFetched; split <;> simp

theorem quiet_unitFetched (hq : s.Quiet) (c : Chan) : (s.unitFetched c).Quiet := by
  unfold State.unitFetched; split
  · exact quiet_accessed _ _ hq
  · exact hq

/-- The read of a unit that makes one. -/
theorem dmaRead_of_unitReads (hq : s.Quiet) (reads : (s.chan c).unitReads = true) {w : Width}
    (hw : (s.chan c).unitWidth = w) (n : Nat) :
    dmaRead (handlersTo n) w (s.chan c).ra s
      = if s.reachesCtrl (s.chan c).ra then .refused .dmaToController
        else .next (s.unitFetched c, s.unitDatum c) := by
  rw [dmaRead_eq hq, State.unitFetched, State.unitDatum, if_pos reads, if_pos reads, hw]

/-- The write of a unit, then the change of the channel, in the state `u` that the read leaves: `g` is what the read
itself has changed of the channel, `f` what is changed after the write. -/
theorem dmaWrite_then_modChan (hq : s.Quiet) (n : Nat) {u : State} {f g : Channel → Channel}
    (hu : u = (s.unitFetched c).modChan c g) (active : (g (s.chan c)).active = true)
    (changed : f (g (s.chan c)) = (s.chan c).afterUnit (s.unitDatum c)) :
    andThen (dmaWrite (handlersTo n) ((s.chan c).unitWrite (s.unitDatum c)) (s.chan c).wa u)
        (whileActive c fun t => .next (t.modChan c f))
      = if s.reachesCtrl (s.chan c).wa then .refused .dmaToController else .next (s.unitDone c) := by
  subst hu
  rw [dmaWrite_eq ((quiet_modChan _ _ _).2 (quiet_unitFetched hq c)), reachesCtrl_modChan, reachesCtrl_unitFetched]
  split
  · rfl
  · rw [andThen_next, accessed_modChan, whileActive_of_active _ (by simpa using active), modChan_modChan]
    exact congrArg _ (modChan_congr (by simpa using changed))

/-! The units of the model. -/

/-- Both widths of a copy unit at once. -/
theorem copyUnit_eq_phases (nest : Nest) (hr : (s.chan c).copies = true) :
    copyUnit nest c s
      = andThen (dmaRead nest (s.chan c).unitWidth (s.chan c).ra s) fun p =>
          andThen (whileActive c (fun t => dmaWrite nest ((s.chan c).unitWrite p.2) (t.chan c).wa t) p.1) <|
          whileActive c fun t => .next (t.modChan c fun k =>
            let size : Word := if (s.chan c).narrow then 2 else 4
            afterWrite size { k with ra := k.ra + size }) := by
  cases hn : (s.chan c).narrow <;> simp [copyUnit, Channel.unitWidth, Channel.unitWrite, hn, hr]

theorem copyUnit_eq (hq : s.Quiet) (ha : (s.chan c).active = true) (hr : (s.chan c).copies = true) (n : Nat) :
    copyUnit (handlersTo n) c s
      = if s.unitAvoids c then .next (s.unitDone c) else .refused .dmaToController := by
  have reads : (s.chan c).unitReads = true := unitReads_of_copies hr
  have done : afterWrite (if (s.chan c).narrow then 2 else 4)
      { s.chan c with ra := (s.chan c).ra + if (s.chan c).narrow then 2 else 4 }
      = (s.chan c).afterUnit (s.unitDatum c) := by
    simp [Channel.afterUnit, afterWrite, hr]
  rw [copyUnit_eq_phases _ hr, dmaRead_of_unitReads hq reads rfl, State.unitAvoids, reads, Bool.true_and]
  cases s.reachesCtrl (s.chan c).ra with
  | true => rfl
  | false =>
    rw [if_neg Bool.false_ne_true, andThen_next, whileActive_of_active _ (by simpa using ha), chan_unitFetched,
      dmaWrite_then_modChan hq n (g := id) (modChan_eq_self rfl).symm ha done]
    cases s.reachesCtrl (s.chan c).wa <;> rfl

/-- What the read of a fill changes of the channel. -/
def Channel.withDatum (v : Word) (k : Channel) : Channel := { k with fval := v, fvalid := k.fvalid || k.unitReads }

/-- A unit that reads nothing has the cached datum, so its read phase changes nothing. -/
theorem unitFetched_of_not_reads (reads : (s.chan c).unitReads = false) :
    (s.unitFetched c).modChan c (Channel.withDatum (s.unitDatum c)) = s := by
  rw [State.unitFetched, if_neg (Bool.not_eq_true _ ▸ reads)]
  exact modChan_eq_self (by simp [Channel.withDatum, State.unitDatum, reads])

/-- The read of a fill whose next write is not the low half of a value it has. -/
theorem readFill_eq (hq : s.Quiet) (ha : (s.chan c).active = true) (hr : (s.chan c).copies = false)
    (hh : ((s.chan c).narrow && (s.chan c).half) = false) (n : Nat) :
    readFill (handlersTo n) c s
      = if (s.chan c).unitReads && s.reachesCtrl (s.chan c).ra then .refused .dmaToController
        else .next ((s.unitFetched c).modChan c (Channel.withDatum (s.unitDatum c))) := by
  have reads : (s.chan c).unitReads = !((s.chan c).csrc && (s.chan c).fvalid) := by
    rw [unitReads_of_fills hr, ← Bool.not_and, hh, Bool.not_false, Bool.true_and]
  unfold readFill
  dsimp only
  cases hc : (s.chan c).csrc && (s.chan c).fvalid with
  | true =>
    replace reads : (s.chan c).unitReads = false := by rw [reads, hc]; rfl
    rw [if_pos rfl, unitFetched_of_not_reads reads, reads]
    rfl
  | false =>
    replace reads : (s.chan c).unitReads = true := by rw [reads, hc]; rfl
    rw [if_neg Bool.false_ne_true, dmaRead_of_unitReads hq reads (by simp [Channel.unitWidth, hr]), reads,
      Bool.true_and]
    split
    · rfl
    · rw [andThen_next, whileActive_of_active _ (by simpa using ha)]
      exact congrArg _ (modChan_congr (by simp [Channel.withDatum, reads]))

/-- A fill unit that begins with the read phase: its write, then the change of the channel. -/
theorem readFill_then_write (hq : s.Quiet) (ha : (s.chan c).active = true) (hr : (s.chan c).copies = false)
    (hh : ((s.chan c).narrow && (s.chan c).half) = false) (n : Nat) {write : Word → BusOp} {f : Channel → Channel}
    (writes : write (s.unitDatum c) = (s.chan c).unitWrite (s.unitDatum c))
    (changed : f ((s.chan c).withDatum (s.unitDatum c)) = (s.chan c).afterUnit (s.unitDatum c)) :
    andThen (andThen (readFill (handlersTo n) c s)
        (whileActive c fun t => dmaWrite (handlersTo n) (write (t.chan c).fval) (t.chan c).wa t))
        (whileActive c fun t => .next (t.modChan c f))
      = if s.unitAvoids c then .next (s.unitDone c) else .refused .dmaToController := by
  rw [readFill_eq hq ha hr hh, State.unitAvoids]
  cases (s.chan c).unitReads && s.reachesCtrl (s.chan c).ra with
  | true => rfl
  | false =>
    have active : ((s.chan c).withDatum (s.unitDatum c)).active = true := ha
    rw [if_neg Bool.false_ne_true, andThen_next, whileActive_of_active _ (by simpa using active), chan_modChan_self,
      chan_unitFetched]
    show andThen (dmaWrite _ (write (s.unitDatum c)) (s.chan c).wa _) _ = _
    rw [writes, dmaWrite_then_modChan hq n rfl active changed]
    cases s.reachesCtrl (s.chan c).wa <;> rfl

theorem fillWideUnit_eq (hq : s.Quiet) (ha : (s.chan c).active = true) (hr : (s.chan c).copies = false)
    (hn : (s.chan c).narrow = false) (n : Nat) :
    fillWideUnit (handlersTo n) c s
      = if s.unitAvoids c then .next (s.unitDone c) else .refused .dmaToController := by
  rw [← readFill_then_write hq ha hr (by rw [hn]; rfl) n (write := .write32) (f := afterWrite 4)
    (by simp [Channel.unitWrite, hn]) (by simp [Channel.withDatum, Channel.afterUnit, afterWrite, hr, hn]),
    fillWideUnit]
  cases readFill (handlersTo n) c s <;> rfl

theorem fillNarrowUnit_eq (hq : s.Quiet) (ha : (s.chan c).active = true) (hr : (s.chan c).copies = false)
    (hn : (s.chan c).narrow = true) (n : Nat) :
    fillNarrowUnit (handlersTo n) c s
      = if s.unitAvoids c then .next (s.unitDone c) else .refused .dmaToController := by
  have changed : afterWrite 2 { (s.chan c).withDatum (s.unitDatum c) with half := !(s.chan c).half }
      = (s.chan c).afterUnit (s.unitDatum c) := by
    simp [Channel.withDatum, Channel.afterUnit, afterWrite, hr, hn]
  unfold fillNarrowUnit
  cases hh : (s.chan c).half with
  | false =>
    exact readFill_then_write hq ha hr (by rw [hh, Bool.and_false]) n (write := fun v => .write16 (highHalf v))
      (by simp [Channel.unitWrite, hr, hn, hh]) changed
  | true =>
    have reads : (s.chan c).unitReads = false := by rw [unitReads_of_fills hr, hn, hh]; rfl
    have datum : s.unitDatum c = (s.chan c).fval := if_neg (Bool.not_eq_true _ ▸ reads)
    have writes : BusOp.write16 (lowHalf (s.chan c).fval) = (s.chan c).unitWrite (s.unitDatum c) := by
      simp [Channel.unitWrite, hr, hn, hh, datum]
    rw [if_pos rfl, writes, dmaWrite_then_modChan hq n (unitFetched_of_not_reads reads).symm ha changed,
      State.unitAvoids, reads]
    cases s.reachesCtrl (s.chan c).wa <;> rfl

/-- One unit: refused if one of its accesses reaches the controller, else its read, its write and the change of the
channel. -/
theorem unit_eq (hq : s.Quiet) (ha : (s.chan c).active = true) (n : Nat) :
    unit (handlersTo n) c s
      = if s.unitAvoids c then .next (s.unitDone c) else .refused .dmaToController := by
  unfold unit
  dsimp only
  split
  · next hr => exact copyUnit_eq hq ha (decide_eq_true hr) n
  · next hr =>
    have fills : (s.chan c).copies = false := decide_eq_false hr
    split
    · next hn => exact fillNarrowUnit_eq hq ha fills hn n
    · next hn => exact fillWideUnit_eq hq ha fills (Bool.not_eq_true _ ▸ hn) n

end Sys2Proof.Machine

/-! SUPPORT. Loading a burst, closing a segment and completing a transfer, as the specification's arithmetic has them
(43_dma.md R147 to R149, R151, R152, R159, R161, R162), and the raise of an interrupt in one step
(44_interrupt_arbiter.md R174). -/

namespace Sys2Proof.Machine

variable {s : State} {c : Chan}

/-! The latched fields (30_encoding.md R84 to R93). -/

theorem specA29_toNat (a : Word) : (specA29 a).toNat = a.toNat % 2 ^ 29 := by
  rw [specA29, BitVec.toNat_ofNat]; omega

theorem inBBus_eq_inWindow (s : State) (w : Word) : inBBus s.cfg w = s.inWindow w := by
  simp only [inBBus, State.inWindow, a29_eq, BitVec.le_def, BitVec.lt_def, specA29_toNat]

theorem loadBurst_eq_burst (s : State) (r w n : Word) (last : Bool) (k : Channel) :
    loadBurst s.cfg r w n last k = s.burst k r w n last := by
  simp only [loadBurst, State.burst, inBBus_eq_inWindow, constSource, Bool.beq_eq_decide_eq]

theorem startFactor_eq_iff (md : Word) : startFactor md = 7 ↔ md.toNat % 8 = 7 := by
  rw [startFactor, ← BitVec.toNat_inj]
  simp

theorem writeAdd_eq (ad : Word) :
    writeAdd ad = if ad.toNat % 8 = 0 then 0 else BitVec.ofNat 32 (2 ^ (ad.toNat % 8)) := by
  have code : (ad.extractLsb' 0 3).toNat = ad.toNat % 8 := by simp
  have zero : ad.extractLsb' 0 3 = 0 ↔ ad.toNat % 8 = 0 := by rw [← BitVec.toNat_inj, code]; rfl
  unfold writeAdd
  simp only [zero, code]
  split
  · rfl
  · apply BitVec.eq_of_toNat_eq
    simp [Nat.shiftLeft_eq]

theorem latchMode_eq_latched (s : State) (c : Chan) : latchMode (s.regs c) (s.chan c) = s.latched c := by
  simp only [latchMode, State.latched, writeAdd_eq]
  rfl

theorem descriptorRead_eq (r : Word) : descriptorRead r = BitVec.ofNat 32 (r.toNat % 2 ^ 31) := by
  apply BitVec.eq_of_toNat_eq
  have mask : (0x7FFFFFFF : Word).toNat = 2 ^ 31 - 1 := by decide
  rw [descriptorRead, BitVec.toNat_and, mask, Nat.and_two_pow_sub_one_eq_mod, BitVec.toNat_ofNat]
  omega

theorem lastMark_eq (r : Word) : lastMark r = decide (2 ^ 31 ≤ r.toNat) := by
  rw [lastMark, ← BitVec.msb_eq_getLsbD_last r, BitVec.msb_eq_decide]

theorem byteCount_eq_countOf (s : State) (c : Chan) (v : Word) : byteCount s.cfg c v = s.countOf c v := rfl

/-! The descriptor (43_dma.md R149). -/

/-- The state after the descriptor at `p` is loaded: three reads in order, then the burst. -/
def State.loadedFrom (s : State) (c : Chan) (p : Word) : State :=
  let s1 := s.accessed (.read .w32) p
  let s2 := s1.accessed (.read .w32) (p + 4)
  let s3 := s2.accessed (.read .w32) (p + 8)
  let n := s.valueAt (.read .w32) p
  let w := s1.valueAt (.read .w32) (p + 4)
  let r := s2.valueAt (.read .w32) (p + 8)
  s3.modChan c fun k =>
    s.burst { k with ptr := p } (BitVec.ofNat 32 (r.toNat % 2 ^ 31)) w (s.countOf c n) (decide (2 ^ 31 ≤ r.toNat))

/-- The same state field by field: the reads change no channel. -/
theorem loadedFrom_eq (s : State) (c : Chan) (p : Word) :
    s.loadedFrom c p
      = let s1 := s.accessed (.read .w32) p
        let s2 := s1.accessed (.read .w32) (p + 4)
        let s3 := s2.accessed (.read .w32) (p + 8)
        let r := s2.valueAt (.read .w32) (p + 8)
        { s3 with
          ch := s.ch.set c
            (s.burst { s.chan c with ptr := p } (BitVec.ofNat 32 (r.toNat % 2 ^ 31))
              (s1.valueAt (.read .w32) (p + 4)) (s.countOf c (s.valueAt (.read .w32) p))
              (decide (2 ^ 31 ≤ r.toNat))) } := by
  simp only [State.loadedFrom, State.modChan, accessed_ch]
  rfl

/-- No read of the descriptor at `p` reaches the controller. -/
def State.loadAvoids (s : State) (p : Word) : Bool := [0, 4, 8].all fun j => !s.reachesCtrl (p + BitVec.ofNat 32 j)

theorem loadAvoids_eq (s : State) (p : Word) :
    s.loadAvoids p = (!s.reachesCtrl p && (!s.reachesCtrl (p + 4) && !s.reachesCtrl (p + 8))) := by
  simp [State.loadAvoids]

/-- The load of the descriptor at the channel's pointer: refused if one of its reads reaches the controller. -/
theorem loadDescriptor_eq (hq : s.Quiet) (ha : (s.chan c).active = true) (n : Nat) :
    loadDescriptor (handlersTo n) c s
      = if s.loadAvoids (s.chan c).ptr then .next (s.loadedFrom c (s.chan c).ptr)
        else .refused .dmaToController := by
  unfold loadDescriptor
  dsimp only
  generalize hp : (s.chan c).ptr = p
  have q1 : (s.accessed (.read .w32) p).Quiet := quiet_accessed _ _ hq
  have q2 : ((s.accessed (.read .w32) p).accessed (.read .w32) (p + 4)).Quiet := quiet_accessed _ _ q1
  have pointer : { s.chan c with ptr := p } = s.chan c := by rw [← hp]
  rw [loadAvoids_eq, dmaRead_eq hq]
  cases s.reachesCtrl p with
  | true => rfl
  | false =>
    rw [if_neg Bool.false_ne_true, andThen_next, whileActive_of_active _ (by simpa using ha), dmaRead_eq q1,
      reachesCtrl_accessed]
    cases s.reachesCtrl (p + 4) with
    | true => rfl
    | false =>
      rw [if_neg Bool.false_ne_true, andThen_next, whileActive_of_active _ (by simpa using ha), dmaRead_eq q2,
        reachesCtrl_accessed, reachesCtrl_accessed]
      cases s.reachesCtrl (p + 8) with
      | true => rfl
      | false =>
        rw [if_neg Bool.false_ne_true, andThen_next, whileActive_of_active _ (by simpa using ha)]
        show _ = Host.Outcome.next (s.loadedFrom c p)
        unfold State.loadedFrom
        dsimp only
        refine congrArg _ (modChan_congr ?_)
        simp only [accessed_cfg, chan_accessed, loadBurst_eq_burst, pointer, byteCount_eq_countOf, descriptorRead_eq,
          lastMark_eq]

/-! The segment (43_dma.md R159). -/

theorem inWram_eq (cfg : Config) (a : Word) :
    inWram cfg (a29 a)
      = cfg.wramRanges.any fun win =>
          decide (win.1.toNat ≤ a.toNat % 2 ^ 29) && decide (a.toNat % 2 ^ 29 ≤ win.2.toNat) := by
  simp only [inWram, a29_eq, BitVec.le_def, specA29_toNat]

/-- The event of closing a segment, if there is one. -/
def State.segmentEvents (s : State) (c : Chan) : List Event :=
  if (s.chan c).segw && inWram s.cfg (a29 (s.chan c).seg) then
    [.notifyWrite (s.chan c).seg ((s.chan c).wa - (s.chan c).seg)] else []

theorem eq_notifyWrite_of_mem {e : Event} (h : e ∈ s.segmentEvents c) :
    ∃ start length, e = .notifyWrite start length := by
  unfold State.segmentEvents at h
  split at h
  · exact ⟨_, _, List.mem_singleton.1 h⟩
  · cases h

theorem closeSegment_eq (s : State) (c : Chan) :
    closeSegment c s
      = { s with
          history := s.history ++ s.segmentEvents c
          ch := s.ch.set c { s.chan c with seg := (s.chan c).wa, segw := false } } := by
  simp only [closeSegment, State.segmentEvents]
  split
  · rfl
  · rw [List.append_nil]; rfl

/-! The raise and the completion. -/

theorem holdBack_eq (r : IrqRecord) (s : State) :
    holdBack r s = { s with ist := s.ist ||| r.status, q := enqueued s.cfg.priorityOrder r s.q } := by
  rw [holdBack, enqueue_eq]; rfl

theorem deliverNow_eq (v : BitVec 8) (l : BitVec 4) (s : State) :
    deliverNow v l s = { s with history := s.history ++ deliveryEvents s.cfg.mirror v l } := by
  simp only [deliverNow, deliveryEvents]
  cases s.cfg.mirror.find? _ with
  | none => rfl
  | some m => simp [State.emit]

/-- The model's raise is the specification's. -/
theorem raiseIrq_eq_raised (r : IrqRecord) (s : State) : raiseIrq r s = s.raised r := by
  unfold raiseIrq State.raised
  simp only [unmasked_eq_lets, holdBack_eq, deliverNow_eq]
  by_cases gated : r.mask = s.cfg.ackMask
  · rw [if_pos gated, beq_iff_eq.2 gated]
    cases s.aiack <;> cases s.lets r.mask <;> rfl
  · rw [if_neg gated, beq_eq_false_iff_ne.2 gated, Bool.not_false, Bool.and_true]
    cases s.lets r.mask <;> rfl

/-- The registers of a channel after a write-back. -/
theorem writeBack_eq (s : State) (c : Chan) :
    writeBack c s
      = { s with
          dma := s.dma.set c
            { s.regs c with
              r := if !(s.chan c).indirect && (s.chan c).rup then (s.chan c).ra else (s.regs c).r
              w := if !(s.chan c).indirect && (s.chan c).wup then (s.chan c).wa else (s.regs c).w } } := by
  have same : s = { s with dma := s.dma.set c (s.regs c) } := by rw [State.regs, Trio.set_get]
  unfold writeBack
  dsimp only
  cases (s.chan c).indirect with
  | true => exact same
  | false =>
    cases (s.chan c).rup <;> cases (s.chan c).wup
    case false.false => exact same
    case true.true => simp [State.modRegs, State.regs, fieldSet]
    all_goals rfl

/-- A completion writes back, clears the channel and raises the end interrupt. -/
theorem complete_eq (s : State) (c : Chan) :
    complete c s = ((writeBack c s).modChan c fun _ => Channel.idle).raised (s.cfg.dmaEnd.get c) := by
  rw [complete, raiseIrq_eq_raised, writeBack_eq]
  rfl

end Sys2Proof.Machine

/-! SUPPORT. One tick of a channel in a quiet environment (43_dma.md R153, R160): the unit, and where it ends the burst,
the segment's end and then the next descriptor or the completion. -/

namespace Sys2Proof.Machine

variable {s : State} {c d : Chan}

/-! The channel after a unit. -/

@[simp] theorem chan_unitDone_self (s : State) (c : Chan) :
    (s.unitDone c).chan c = (s.chan c).afterUnit (s.unitDatum c) := by
  simp [State.unitDone]

@[simp] theorem afterUnit_active (k : Channel) (v : Word) : (k.afterUnit v).active = k.active := by
  unfold Channel.afterUnit; dsimp only; split <;> rfl

@[simp] theorem afterUnit_indirect (k : Channel) (v : Word) : (k.afterUnit v).indirect = k.indirect := by
  unfold Channel.afterUnit; dsimp only; split <;> rfl

@[simp] theorem afterUnit_last (k : Channel) (v : Word) : (k.afterUnit v).last = k.last := by
  unfold Channel.afterUnit; dsimp only; split <;> rfl

@[simp] theorem afterUnit_ptr (k : Channel) (v : Word) : (k.afterUnit v).ptr = k.ptr := by
  unfold Channel.afterUnit; dsimp only; split <;> rfl

@[simp] theorem afterUnit_narrow (k : Channel) (v : Word) : (k.afterUnit v).narrow = k.narrow := by
  unfold Channel.afterUnit; dsimp only; split <;> rfl

@[simp] theorem afterUnit_raAdd (k : Channel) (v : Word) : (k.afterUnit v).raAdd = k.raAdd := by
  unfold Channel.afterUnit; dsimp only; split <;> rfl

@[simp] theorem afterUnit_waAdd (k : Channel) (v : Word) : (k.afterUnit v).waAdd = k.waAdd := by
  unfold Channel.afterUnit; dsimp only; split <;> rfl

@[simp] theorem afterUnit_wa (k : Channel) (v : Word) : (k.afterUnit v).wa = k.wa + k.waAdd := by
  unfold Channel.afterUnit; dsimp only; split <;> rfl

/-- A unit takes its size off the count. -/
@[simp] theorem afterUnit_tn (k : Channel) (v : Word) :
    (k.afterUnit v).tn = k.tn - BitVec.ofNat 32 k.unitSize := by
  unfold Channel.afterUnit Channel.unitSize
  dsimp only
  cases k.narrow <;> split <;> rfl

/-- A unit moves the read address by the stride, which is zero for a fill. -/
theorem afterUnit_ra (k : Channel) (v : Word) :
    (k.afterUnit v).ra = k.ra + BitVec.ofNat 32 k.readStride := by
  have copies : k.copies = !decide (k.raAdd = 0) := decide_not
  unfold Channel.afterUnit Channel.readStride Channel.unitSize
  dsimp only
  by_cases h : k.raAdd = 0
  · rw [copies, decide_eq_true h, if_pos h]
    simp
  · rw [copies, decide_eq_false h, if_neg h]
    cases k.narrow <;> rfl

/-! The end of a burst. -/

@[simp] theorem chan_closeSegment_self (s : State) (c : Chan) :
    (closeSegment c s).chan c = { s.chan c with seg := (s.chan c).wa, segw := false } := by
  rw [closeSegment_eq]; simp [State.chan]

theorem chan_closeSegment_ne (s : State) (h : c ≠ d) : (closeSegment c s).chan d = s.chan d := by
  rw [closeSegment_eq]; simp [State.chan, h]

@[simp] theorem reachesCtrl_closeSegment (s : State) (c : Chan) (a : Word) :
    (closeSegment c s).reachesCtrl a = s.reachesCtrl a := by
  rw [closeSegment_eq]; rfl

theorem quiet_closeSegment (hq : s.Quiet) (c : Chan) : (closeSegment c s).Quiet := by
  rw [closeSegment_eq]; exact hq

/-- Loading the descriptor at a pointer writes that pointer, whatever it was. -/
theorem loadedFrom_modChan (s : State) (c : Chan) (p : Word) :
    (s.modChan c fun k => { k with ptr := p }).loadedFrom c p = s.loadedFrom c p := by
  simp only [State.loadedFrom, accessed_modChan, modChan_modChan]
  rfl

theorem endBurst_of_next (nest : Nest) (hi : (s.chan c).indirect = true) (hl : (s.chan c).last = false) :
    endBurst nest c s
      = loadDescriptor nest c ((closeSegment c s).modChan c fun k => { k with ptr := (s.chan c).ptr + 12 }) := by
  simp only [endBurst, chan_closeSegment_self, hi, hl, Bool.not_false, Bool.and_true, if_true]
  exact congrArg (loadDescriptor nest c) (modChan_congr (by rw [chan_closeSegment_self]))

theorem endBurst_of_last (nest : Nest) (h : (s.chan c).indirect = false ∨ (s.chan c).last = true) :
    endBurst nest c s = .next (complete c (closeSegment c s)) := by
  have last : ((s.chan c).indirect && !(s.chan c).last) = false := by rcases h with h | h <;> simp [h]
  simp only [endBurst, chan_closeSegment_self, last, Bool.false_eq_true, if_false]

/-- The transfer goes on at another descriptor after the burst. -/
def Channel.hasNext (k : Channel) : Bool := k.indirect && !k.last

/-- The state after the end of a burst. -/
def State.burstEnded (s : State) (c : Chan) : State :=
  if (s.chan c).hasNext then (closeSegment c s).loadedFrom c ((s.chan c).ptr + 12) else complete c (closeSegment c s)

theorem endBurst_eq (hq : s.Quiet) (ha : (s.chan c).active = true) (n : Nat) :
    endBurst (handlersTo n) c s
      = if !(s.chan c).hasNext || s.loadAvoids ((s.chan c).ptr + 12) then .next (s.burstEnded c)
        else .refused .dmaToController := by
  cases h : (s.chan c).hasNext with
  | true =>
    obtain ⟨hi, hl⟩ := Bool.and_eq_true_iff.1 h
    rw [endBurst_of_next _ hi (by simpa using hl),
      loadDescriptor_eq ((quiet_modChan _ _ _).2 (quiet_closeSegment hq c)) (by simpa using ha), chan_modChan_self,
      loadedFrom_modChan, State.burstEnded, if_pos h]
    simp [State.loadAvoids]
  | false =>
    have last : (s.chan c).indirect = false ∨ (s.chan c).last = true :=
      (Bool.and_eq_false_iff.1 h).imp_right fun hl => by simpa using hl
    rw [endBurst_of_last _ last, State.burstEnded, h]
    rfl

/-! The tick. -/

theorem burstDone_eq (k : Channel) : burstDone k = decide (k.tn.toInt ≤ 0) := rfl

/-- The state after a tick. -/
def State.tickDone (s : State) (c : Chan) : State :=
  if burstDone ((s.unitDone c).chan c) then (s.unitDone c).burstEnded c else s.unitDone c

theorem tickDone_of_positive (h : 0 < ((s.unitDone c).chan c).tn.toInt) : s.tickDone c = s.unitDone c := by
  rw [State.tickDone, burstDone_eq, decide_eq_false (Int.not_le.2 h)]
  rfl

theorem tickDone_of_done_last (h : ((s.unitDone c).chan c).tn.toInt ≤ 0)
    (last : (s.chan c).indirect = false ∨ (s.chan c).last = true) :
    s.tickDone c = complete c (closeSegment c (s.unitDone c)) := by
  have noNext : ((s.unitDone c).chan c).hasNext = false := by rcases last with h | h <;> simp [Channel.hasNext, h]
  rw [State.tickDone, burstDone_eq, decide_eq_true h, if_pos rfl, State.burstEnded, noNext]
  rfl

theorem tickDone_of_done_next (h : ((s.unitDone c).chan c).tn.toInt ≤ 0) (hi : (s.chan c).indirect = true)
    (hl : (s.chan c).last = false) :
    s.tickDone c = (closeSegment c (s.unitDone c)).loadedFrom c ((s.chan c).ptr + 12) := by
  have next : ((s.unitDone c).chan c).hasNext = true := by simp [Channel.hasNext, hi, hl]
  rw [State.tickDone, burstDone_eq, decide_eq_true h, if_pos rfl, State.burstEnded, next, if_pos rfl,
    chan_unitDone_self, afterUnit_ptr]

theorem tickAvoids_eq (s : State) (c : Chan) :
    s.tickAvoids c
      = (s.unitAvoids c && (!burstDone ((s.unitDone c).chan c)
          || (!(s.chan c).hasNext || s.loadAvoids ((s.chan c).ptr + 12)))) := by
  simp only [State.tickAvoids, State.unitAvoids, State.loadAvoids, chan_unitDone_self, burstDone_eq, afterUnit_tn,
    Channel.hasNext, Bool.not_and, Bool.or_assoc]

@[simp] theorem reachesCtrl_unitDone (s : State) (c : Chan) (a : Word) :
    (s.unitDone c).reachesCtrl a = s.reachesCtrl a := by
  simp [State.unitDone]

theorem quiet_unitDone (hq : s.Quiet) (c : Chan) : (s.unitDone c).Quiet :=
  (quiet_modChan _ _ _).2 (quiet_accessed _ _ (quiet_unitFetched hq c))

theorem tick_eq (hq : s.Quiet) (ha : (s.chan c).active = true) (n : Nat) :
    tick (handlersTo n) c s
      = if s.tickAvoids c then .next (s.tickDone c) else .refused .dmaToController := by
  have active : ((s.unitDone c).chan c).active = true := by simpa using ha
  rw [tick, unit_eq hq ha, tickAvoids_eq, State.tickDone]
  cases s.unitAvoids c with
  | false => rfl
  | true =>
    rw [if_pos rfl, andThen_next, whileActive_of_active _ active, endBurst_eq (quiet_unitDone hq c) active]
    cases burstDone ((s.unitDone c).chan c) with
    | false => rfl
    | true => simp [State.loadAvoids, Channel.hasNext]

end Sys2Proof.Machine

/-! SUPPORT. A write of DcEN where the default maps put the controller (43_dma.md R145 to R147). -/

namespace Sys2Proof.Machine

variable {s : State} {c : Chan} {v : Word}

theorem enableRow_eq_channelRow (c : Chan) (m : BitVec 8) (op : RegOp) : enableRow c m op = channelRow c .en m op := by
  cases c <;> rfl

/-- A DcEN row's write is `writeEnable`, and returns nothing. -/
theorem exec_enableRow_write (hs : s.CtrlMapped) (c : Chan) (m : BitVec 8) (v : Word) :
    exec (enableRow c m (.write v)) s = finishSilent (writeEnable (handlers s) c v s) := by
  obtain ⟨off, row, aligned, register⟩ := channelRow_spec c .en m (.write v)
  rw [enableRow_eq_channelRow, exec_row_of_ctrlMapped hs m (.write v) off (.dma c .en) (row s) aligned register
    (x := enableRegister (handlers s) c (.write v) s) fun h => by rw [registerAccess, h]]
  simp only [enableRegister]
  cases writeEnable (handlers s) c v s <;> rfl

/-- The state with a value stored in DcEN. -/
abbrev State.withEnable (s : State) (c : Chan) (v : Word) : State := s.modRegs c (fieldSet .en v)

/-- The start condition is decided by the value written and the channel's DcMD, which the write leaves alone. -/
theorem writeEnable_eq (nest : Nest) (c : Chan) (v : Word) (s : State) :
    writeEnable nest c v s
      = match startDecision v (s.regs c).md with
        | .arm => arm nest c (s.withEnable c v)
        | .refuse why => .refused why
        | .nothing => .next (s.withEnable c v) := by
  cases c <;> rfl

/-! The start condition (43_dma.md R145). -/

theorem startDecision_eq (v md : Word) :
    startDecision v md
      = if md.toNat % 8 = 7 then
          if v.getLsbD 8 then (if v.getLsbD 0 then .arm else .nothing)
          else (if v.getLsbD 0 then .refuse .dmaGoWithoutEn else .nothing)
        else if v.getLsbD 8 then .refuse .dmaStartFactor else .nothing := by
  unfold startDecision enBit goBit
  by_cases hft : md.toNat % 8 = 7
  · rw [if_pos hft, if_pos ((startFactor_eq_iff md).2 hft)]
  · rw [if_neg hft, if_neg (mt (startFactor_eq_iff md).1 hft)]

theorem startDecision_of_arm {md : Word} (hen : v.getLsbD 8 = true) (hgo : v.getLsbD 0 = true)
    (hft : md.toNat % 8 = 7) : startDecision v md = .arm := by
  rw [startDecision_eq, if_pos hft, if_pos hen, if_pos hgo]

theorem startDecision_of_otherFactor {md : Word} (hen : v.getLsbD 8 = true) (hft : md.toNat % 8 ≠ 7) :
    startDecision v md = .refuse .dmaStartFactor := by
  rw [startDecision_eq, if_neg hft, if_pos hen]

theorem startDecision_of_goAlone {md : Word} (hen : v.getLsbD 8 = false) (hgo : v.getLsbD 0 = true)
    (hft : md.toNat % 8 = 7) : startDecision v md = .refuse .dmaGoWithoutEn := by
  rw [startDecision_eq, if_pos hft, hen, if_neg Bool.false_ne_true, if_pos hgo]

theorem startDecision_of_noStart {md : Word}
    (h : (v.getLsbD 8 = true ∧ v.getLsbD 0 = false ∧ md.toNat % 8 = 7) ∨ (v.getLsbD 8 = false ∧ md.toNat % 8 ≠ 7)
      ∨ (v.getLsbD 8 = false ∧ v.getLsbD 0 = false ∧ md.toNat % 8 = 7)) : startDecision v md = .nothing := by
  rcases h with ⟨hen, hgo, hft⟩ | ⟨hen, hft⟩ | ⟨hen, hgo, hft⟩
  · rw [startDecision_eq, if_pos hft, hen, hgo]; rfl
  · rw [startDecision_eq, if_neg hft, hen]; rfl
  · rw [startDecision_eq, if_pos hft, hen, hgo]; rfl

/-- A write that arms is the arm of the channel from the state with the value stored. -/
theorem exec_enableRow_of_arm (hs : s.CtrlMapped) (m : BitVec 8) (hen : v.getLsbD 8 = true)
    (hgo : v.getLsbD 0 = true) (hft : (s.regs c).md.toNat % 8 = 7) :
    exec (enableRow c m (.write v)) s = finishSilent (arm (handlers s) c (s.withEnable c v)) := by
  rw [exec_enableRow_write hs, writeEnable_eq, startDecision_of_arm hen hgo hft]

/-! The latch (43_dma.md R147, R148). -/

theorem arm_of_idle (nest : Nest) (hidle : (s.chan c).active = false) : arm nest c s = latch nest c s := by
  simp [arm, hidle]

theorem arm_of_active (nest : Nest) (ha : (s.chan c).active = true) :
    arm nest c s = andThen (drainChannel nest c s) (latch nest c) := by
  simp [arm, ha]

/-- A latch in direct mode loads the burst of the registers. -/
theorem latch_of_direct (nest : Nest) (hmode : (s.regs c).md.getLsbD 24 = false) :
    latch nest c s
      = .next (s.modChan c fun _ =>
          s.burst (s.latched c) (s.regs c).r (s.regs c).w (s.countOf c (s.regs c).c) true) := by
  simp only [latch, modeIndirect, hmode, Bool.false_eq_true, if_false, modChan_modChan]
  exact congrArg _ (modChan_congr (by rw [latchMode_eq_latched, loadBurst_eq_burst, byteCount_eq_countOf]))

/-- A latch in indirect mode loads the descriptor that DcW points at. -/
theorem latch_of_indirect (hq : s.Quiet) (n : Nat) (hmode : (s.regs c).md.getLsbD 24 = true) :
    latch (handlersTo n) c s
      = if s.loadAvoids (s.regs c).w then .next ((s.modChan c fun _ => s.latched c).loadedFrom c (s.regs c).w)
        else .refused .dmaToController := by
  simp only [latch, modeIndirect, hmode, if_true]
  rw [modChan_congr (f := latchMode _) (g := fun _ => s.latched c) (latchMode_eq_latched s c)]
  generalize ht : s.modChan c (fun _ => s.latched c) = t
  have active : (t.chan c).active = true := by rw [← ht, chan_modChan_self]; rfl
  have quiet : t.Quiet := by rw [← ht]; exact hq
  have avoids : t.loadAvoids (s.regs c).w = s.loadAvoids (s.regs c).w := by rw [← ht]; rfl
  rw [loadDescriptor_eq ((quiet_modChan _ _ _).2 quiet) (by simpa using active), chan_modChan_self, loadedFrom_modChan]
  exact congrArg (fun b => if b = true then _ else _) avoids

/-- What is latched depends on the registers other than DcEN. -/
theorem latched_withEnable (s : State) (c : Chan) (v : Word) : (s.withEnable c v).latched c = s.latched c := by
  unfold State.latched
  simp [fieldSet]

end Sys2Proof.Machine

/-! SUPPORT. The statements about arming a channel, settled. -/

namespace Sys2Proof.Machine

/-- Settles O44: each combination of the two bits and the start factor has its start decision. -/
theorem enableWriteWithoutStart : Obligations.EnableWriteWithoutStart := by
  intro s c m v hs factor
  rw [exec_enableRow_write hs, writeEnable_eq]
  refine ⟨fun hen hft => ?_, fun hen hgo hft => ?_, fun h => ?_⟩
  · rw [startDecision_of_otherFactor hen hft]; rfl
  · rw [startDecision_of_goAlone hen hgo hft]; rfl
  · rw [startDecision_of_noStart h]; rfl

/-- Settles O45: the arm of an idle channel is the latch, which in direct mode loads the burst of the registers. -/
theorem directArm : Obligations.DirectArm := by
  intro s c m v hs hen hgo hft hmode hidle
  rw [exec_enableRow_of_arm hs m hen hgo hft, arm_of_idle (s := s.withEnable c v) _ hidle,
    latch_of_direct _ (by rw [regs_modRegs_self]; exact hmode), latched_withEnable, regs_modRegs_self]
  rfl

/-- Settles O46: the arm of an idle channel is the latch, which in indirect mode loads a descriptor; its reads look at
neither the registers nor the channels. -/
theorem indirectArm : Obligations.IndirectArm := by
  intro s c m v hs hq hen hgo hft hmode hidle p avoids s1 s2 s3 n w r
  have loads : (s.withEnable c v).loadAvoids p = true := by
    simpa [State.loadAvoids] using avoids
  have pointer : ((s.withEnable c v).regs c).w = p := by rw [regs_modRegs_self]; rfl
  rw [exec_enableRow_of_arm hs m hen hgo hft, arm_of_idle (s := s.withEnable c v) _ hidle, handlers,
    latch_of_indirect (s := s.withEnable c v) hq _ (by rw [regs_modRegs_self]; exact hmode), pointer, loads,
    latched_withEnable, if_pos rfl]
  have channels : s3.ch = s.ch := by simp [s3, s2, s1]
  have registers : s3.dma = s.dma := by simp [s3, s2, s1]
  have ownRegisters : s3.regs c = s.regs c := by simp [s3, s2, s1]
  simp only [State.loadedFrom, accessed_modChan, accessed_modRegs, valueAt_modChan, valueAt_modRegs, modChan_modChan]
  show Host.Outcome.next _ = Host.Outcome.next _
  rw [← channels, ← registers, ← ownRegisters]
  rfl

/-- Settles O47: the arm of an active channel is its drain and then the latch. -/
theorem rearmDrainsFirst : Obligations.RearmDrainsFirst := by
  intro s t c m v hs hen hgo hft ha h
  rw [exec_enableRow_of_arm hs m hen hgo hft, arm_of_active (s := s.withEnable c v) _ ha] at h
  obtain ⟨x, hx, rfl⟩ := finishSilent_eq_next h
  obtain ⟨u, hu, hl⟩ := andThen_eq_next hx
  obtain ⟨-, -, idle⟩ := drainChannel_eq_next hu
  exact ⟨u, hu, idle, by rw [hl]; rfl⟩

end Sys2Proof.Machine

/-! SUPPORT. A unit with known phases, as the statements about units describe it. -/

namespace Sys2Proof.Machine

variable {s : State} {c : Chan}

/-- A channel whose next unit's two addresses avoid the controller. -/
theorem unitAvoids_of_avoidsCtrl (h : s.avoidsCtrl c 1) : s.unitAvoids c = true := by
  have here := h 0 Nat.one_pos
  simp only [Channel.readAt, Channel.writeAt, Nat.zero_mul, BitVec.add_zero, BitVec.zero_mul] at here
  simp [State.unitAvoids, here]

/-- The halves of a fill value. -/
theorem half_eq (v : Word) (low : Bool) :
    (if low then lowHalf v else highHalf v)
      = BitVec.ofNat 16 (if low then v.toNat % 65536 else v.toNat / 65536) := by
  apply BitVec.eq_of_toNat_eq
  cases low
  · simp [highHalf, Nat.shiftRight_eq_div_pow]
  · simp [lowHalf]

/-- The state after a unit, where the read phase and what is written are known. -/
theorem unitDone_eq {fetched : State} {v : Word} {op : BusOp} {k : Channel} (hf : s.unitFetched c = fetched)
    (hv : s.unitDatum c = v) (hop : (s.chan c).unitWrite v = op) (hk : (s.chan c).afterUnit v = k) :
    s.unitDone c = { fetched.accessed op (s.chan c).wa with ch := s.ch.set c k } := by
  have channels : (s.unitFetched c).ch = s.ch := by unfold State.unitFetched; split <;> simp
  subst hf hv hop hk
  simp only [State.unitDone, State.modChan, accessed_ch, channels]
  rfl

/-- A fill unit with the value it has after its read, if it makes one: it reads the whole value. -/
theorem unit_of_fill (hq : s.Quiet) (ha : (s.chan c).active = true) (fills : (s.chan c).copies = false)
    (avoids : s.avoidsCtrl c 1) (n : Nat) {reads : Bool} {fval : Word} {op : BusOp} {k : Channel}
    (hreads : (s.chan c).unitReads = reads)
    (hfval : (if reads then s.valueAt (.read .w32) (s.chan c).ra else (s.chan c).fval) = fval)
    (writes : (s.chan c).unitWrite fval = op) (after : (s.chan c).afterUnit fval = k) :
    unit (handlersTo n) c s
      = .next { (if reads then s.accessed (.read .w32) (s.chan c).ra else s).accessed op (s.chan c).wa with
          ch := s.ch.set c k } := by
  have width : (s.chan c).unitWidth = .w32 := by rw [Channel.unitWidth, fills]; rfl
  rw [unit_eq hq ha, if_pos (unitAvoids_of_avoidsCtrl avoids)]
  refine congrArg _ (unitDone_eq ?_ ?_ writes after)
  · rw [State.unitFetched, width, hreads]
  · rw [State.unitDatum, width, hreads, hfval]

end Sys2Proof.Machine

/-! SUPPORT. The statements about units, descriptors, segments and the end of a burst, settled. They have a namespace of
their own, as `CopyUnit` and `CloseSegment` are named after functions of the model. -/

namespace Sys2Proof.Machine.Settled

/-- Settles O48: a copy reads and writes the width of its burst. -/
theorem copyUnit : Obligations.CopyUnit := by
  intro s c n hq ha hr avoids k w v write size
  have copies : (s.chan c).copies = true := decide_eq_true hr
  have reads : (s.chan c).unitReads = true := unitReads_of_copies copies
  have width : (s.chan c).unitWidth = w := by simp only [Channel.unitWidth, copies, Bool.true_and]; rfl
  rw [unit_eq hq ha, if_pos (unitAvoids_of_avoidsCtrl avoids)]
  refine congrArg _ (unitDone_eq (v := v) ?fetched ?datum ?writes ?after)
  case fetched => rw [State.unitFetched, if_pos reads, width]
  case datum => rw [State.unitDatum, if_pos reads, width]
  case writes => simp only [Channel.unitWrite, copies, if_true]; rfl
  case after => simp only [Channel.afterUnit, copies, if_true]; rfl

/-- Settles O49: a narrow fill reads before a high half only. -/
theorem narrowFillUnit : Obligations.NarrowFillUnit := by
  intro s c n hq ha hr hn avoids k reads fval half
  have fills : (s.chan c).copies = false := decide_eq_false (not_not.2 hr)
  have hreads : (s.chan c).unitReads = reads := by rw [unitReads_of_fills fills, hn]; rfl
  have halves : (if (s.chan c).half then lowHalf fval else highHalf fval) = half := half_eq fval (s.chan c).half
  refine unit_of_fill hq ha fills avoids n (fval := fval) hreads rfl ?writes ?after
  case writes => simp only [Channel.unitWrite, fills, hn, Bool.false_eq_true, if_true, if_false, halves]
  case after => simp only [Channel.afterUnit, fills, hn, hreads, Bool.false_eq_true, if_true, if_false, k]

/-- Settles O50: a wide fill reads unless a constant source has the value. -/
theorem wideFillUnit : Obligations.WideFillUnit := by
  intro s c n hq ha hr hn avoids k reads fval
  have fills : (s.chan c).copies = false := decide_eq_false (not_not.2 hr)
  have hreads : (s.chan c).unitReads = reads := by rw [unitReads_of_fills fills, hn]; rfl
  refine unit_of_fill hq ha fills avoids n (fval := fval) hreads rfl ?writes ?after
  case writes => simp only [Channel.unitWrite, hn]; rfl
  case after => simp only [Channel.afterUnit, fills, hn, hreads, Bool.false_eq_true, if_false, k]

/-- Settles O51: a unit avoids the controller with both accesses or is refused, and so is a load with its three. -/
theorem engineNeverReachesController : Obligations.EngineNeverReachesController := by
  intro s c n hq ha
  dsimp only
  rw [unit_eq hq ha, loadDescriptor_eq hq ha]
  refine ⟨fun reads reached => ?_, fun _ reached => ?_, fun ⟨j, hj, reached⟩ => ?_⟩
  · have blocked : s.unitAvoids c = false := by simp [State.unitAvoids, reads, reached]
    rw [blocked]; rfl
  · have blocked : s.unitAvoids c = false := by simp [State.unitAvoids, reached]
    rw [blocked]; rfl
  · have blocked : s.loadAvoids (s.chan c).ptr = false := List.all_eq_false.2 ⟨j, hj, by simp [reached]⟩
    rw [blocked]; rfl

/-- Settles O52: the model's event is the specification's, in the address arithmetic of A29. -/
theorem closeSegment : Obligations.CloseSegment := by
  intro s c k inRam
  rw [closeSegment_eq, State.segmentEvents, inWram_eq]

/-- Settles O53: the raise comes after the write-back and the clear, with the same parameters. -/
theorem completion : Obligations.Completion := by
  intro s c k
  rw [complete_eq, writeBack_eq]
  rfl

/-- Settles O54: the close of a segment leaves the pointer, the mode and the last mark alone. -/
theorem burstEnd : Obligations.BurstEnd := by
  intro s c nest k
  have closed : k = { s.chan c with seg := (s.chan c).wa, segw := false } := chan_closeSegment_self s c
  refine ⟨fun ⟨hi, hl⟩ => ?_, fun h => ?_⟩
  · rw [closed] at hi hl
    exact endBurst_of_next nest hi hl
  · rw [closed] at h
    exact endBurst_of_last nest h

end Sys2Proof.Machine.Settled

/-! SUPPORT. What the engine keeps in a quiet environment, packaged once: a relation that the moves of a transfer keep
(accesses, changes of the channel, segment ends) relates the states before and after a unit and a descriptor load, and
with the completion those before and after any number of ticks. -/

namespace Sys2Proof.Machine

variable {R : State → State → Prop} {c d : Chan} {s t u : State} {n budget : Nat}

/-- A relation that the moves of a transfer of a channel keep. -/
structure MovesKept (R : State → State → Prop) (c : Chan) : Prop where
  refl : ∀ s, R s s
  trans : ∀ {s t u}, R s t → R t u → R s u
  accessed : ∀ s op a, R s (s.accessed op a)
  modChan : ∀ s f, R s (s.modChan c f)
  closeSegment : ∀ s, R s (closeSegment c s)

/-- A relation that, beside them, the completion keeps. -/
structure TicksKept (R : State → State → Prop) (c : Chan) : Prop extends MovesKept R c where
  complete : ∀ s, R s (complete c s)

theorem MovesKept.unitDone (K : MovesKept R c) (s : State) : R s (s.unitDone c) := by
  have fetched : R s (s.unitFetched c) := by
    unfold State.unitFetched; split
    · exact K.accessed _ _ _
    · exact K.refl s
  exact K.trans (K.trans fetched (K.accessed _ _ _)) (K.modChan _ _)

theorem MovesKept.loadedFrom (K : MovesKept R c) (s : State) (p : Word) : R s (s.loadedFrom c p) := by
  unfold State.loadedFrom
  exact K.trans (K.trans (K.accessed _ _ _) (K.accessed _ _ _)) (K.trans (K.accessed _ _ _) (K.modChan _ _))

theorem TicksKept.burstEnded (K : TicksKept R c) (s : State) : R s (s.burstEnded c) := by
  unfold State.burstEnded
  split
  · exact K.trans (K.closeSegment s) (K.loadedFrom _ _)
  · exact K.trans (K.closeSegment s) (K.complete _)

theorem TicksKept.tickDone (K : TicksKept R c) (s : State) : R s (s.tickDone c) := by
  unfold State.tickDone
  split
  · exact K.trans (K.unitDone s) (K.burstEnded _)
  · exact K.unitDone s

/-- A tick that answers a state answers the one of `tick_eq`. -/
theorem tick_eq_next (hq : s.Quiet) (ha : (s.chan c).active = true) (h : tick (handlersTo n) c s = .next t) :
    t = s.tickDone c := by
  rw [tick_eq hq ha] at h
  split at h
  · exact (Host.Outcome.next.inj h).symm
  · cases h

theorem quiet_of_tick (hq : s.Quiet) (h : tick (handlersTo n) c s = .next t) : t.Quiet :=
  ((quietSameTables_kept n).toEngineKept.tick h hq).1

theorem TicksKept.ticks (K : TicksKept R c) (hq : s.Quiet) (h : ticks (handlersTo n) c budget s = .next t) : R s t := by
  induction budget generalizing s with
  | zero => cases h; exact K.refl _
  | succ budget ih =>
    cases ha : (s.chan c).active with
    | false => rw [ticks_of_idle _ ha] at h; cases h; exact K.refl _
    | true =>
      rw [ticks_succ_of_active _ ha] at h
      obtain ⟨u, hu, h⟩ := andThen_eq_next h
      have first : R s u := tick_eq_next hq ha hu ▸ K.tickDone s
      exact K.trans first (ih (quiet_of_tick hq hu) h)

theorem TicksKept.stepChannel (K : TicksKept R c) (hq : s.Quiet)
    (h : stepChannel (handlersTo n) c budget s = .next t) : R s t := by
  obtain ⟨u, hu, h⟩ := andThen_eq_next h
  cases h
  split
  · exact K.trans (K.ticks hq hu) (K.closeSegment u)
  · exact K.ticks hq hu

theorem TicksKept.drainChannel (K : TicksKept R c) (hq : s.Quiet)
    (h : drainChannel (handlersTo n) c s = .next t) : R s t := by
  obtain ⟨k, hk, -⟩ := drainChannel_eq_next h
  exact K.ticks hq hk

/-! The other channels. -/

theorem chan_raised (s : State) (r : IrqRecord) (d : Chan) : (s.raised r).chan d = s.chan d := by
  unfold State.raised; dsimp only; split <;> rfl

theorem chan_complete_self (s : State) (c : Chan) : (complete c s).chan c = Channel.idle := by
  rw [complete_eq, chan_raised, chan_modChan_self]

theorem chan_complete_ne (s : State) (h : c ≠ d) : (complete c s).chan d = s.chan d := by
  rw [complete_eq, chan_raised, chan_modChan_ne _ h, writeBack_eq]
  rfl

/-- The engine's work on a channel leaves every other channel alone. -/
theorem otherChannel_kept (h : c ≠ d) : TicksKept (fun s t => t.chan d = s.chan d) c where
  refl _ := rfl
  trans f g := g.trans f
  accessed s op a := chan_accessed s op a d
  modChan s f := chan_modChan_ne s h f
  closeSegment s := chan_closeSegment_ne s h
  complete s := chan_complete_ne s h

/-! The block's other state. -/

/-- What the engine leaves alone beside what every instruction does: DcC, DcAD, DcEN and DcMD, IMS and the inputs; and
it steps no DSP (43_dma.md R161, R167). -/
structure EngineRan (s t : State) : Prop where
  registers : ∀ c, ∀ f ∈ [DmaField.c, .ad, .en, .md], fieldGet f (t.regs c) = fieldGet f (s.regs c)
  ims : t.ims = s.ims
  stream : t.stream = s.stream
  port : t.port = s.port
  history : ∃ events, t.history = s.history ++ events ∧ ∀ e ∈ events, ∀ n, e ≠ .dspStep n

theorem EngineRan.trans (h : EngineRan s t) (k : EngineRan t u) : EngineRan s u := by
  obtain ⟨l, hl, nl⟩ := h.history
  obtain ⟨m, hm, nm⟩ := k.history
  exact ⟨fun c f hf => (k.registers c f hf).trans (h.registers c f hf), k.ims.trans h.ims, k.stream.trans h.stream,
    k.port.trans h.port, l ++ m, by rw [hm, hl, List.append_assoc],
    fun e he => (List.mem_append.1 he).elim (nl e) (nm e)⟩

theorem EngineRan.of_sameHistory
    (hr : ∀ c, ∀ f ∈ [DmaField.c, .ad, .en, .md], fieldGet f (t.regs c) = fieldGet f (s.regs c)) (hi : t.ims = s.ims)
    (hs : t.stream = s.stream) (hp : t.port = s.port) (hh : t.history = s.history) : EngineRan s t :=
  ⟨hr, hi, hs, hp, [], by rw [hh, List.append_nil], fun _ he => nomatch he⟩

theorem EngineRan.raised (s : State) (r : IrqRecord) : EngineRan s (s.raised r) := by
  have noStep : ∀ e ∈ deliveryEvents s.cfg.mirror r.vector r.level, ∀ n, e ≠ .dspStep n := by
    intro e he n
    simp only [deliveryEvents, List.mem_cons, Option.mem_toList, Option.map_eq_some_iff] at he
    rcases he with rfl | ⟨m, -, rfl⟩ <;> nofun
  unfold State.raised
  dsimp only
  split
  · exact ⟨fun _ _ _ => rfl, rfl, rfl, rfl, _, rfl, noStep⟩
  · exact .of_sameHistory (fun _ _ _ => rfl) rfl rfl rfl rfl

/-- A write-back writes DcR and DcW of its channel only (43_dma.md R161). -/
theorem EngineRan.writeBack (s : State) (c : Chan) : EngineRan s (writeBack c s) := by
  rw [writeBack_eq]
  refine .of_sameHistory (fun d f hf => ?_) rfl rfl rfl rfl
  by_cases h : c = d
  · subst h
    simp only [List.mem_cons, List.not_mem_nil, or_false] at hf
    simp only [State.regs, Trio.get_set_self]
    rcases hf with rfl | rfl | rfl | rfl <;> rfl
  · simp only [State.regs, Trio.get_set_ne _ h]

theorem engineRan_modChan (s : State) (c : Chan) (f : Channel → Channel) : EngineRan s (s.modChan c f) :=
  .of_sameHistory (fun _ _ _ => rfl) rfl rfl rfl rfl

theorem engineRan_kept (c : Chan) : TicksKept EngineRan c where
  refl _ := .of_sameHistory (fun _ _ _ => rfl) rfl rfl rfl rfl
  trans := EngineRan.trans
  accessed s op a := by
    obtain ⟨events, hh, plain⟩ := accessed_history s op a
    exact ⟨by simp, by simp, by simp, by simp, events, hh, fun e he => (plain e he).2⟩
  modChan s f := engineRan_modChan s c f
  closeSegment s := by
    rw [closeSegment_eq]
    refine ⟨fun _ _ _ => rfl, rfl, rfl, rfl, s.segmentEvents c, rfl, fun e he n => ?_⟩
    obtain ⟨start, length, rfl⟩ := eq_notifyWrite_of_mem he
    nofun
  complete s := by
    rw [complete_eq]
    exact ((EngineRan.writeBack s c).trans (engineRan_modChan _ _ _)).trans (EngineRan.raised _ _)

/-! No raise. -/

theorem noRaise_kept (c : Chan) : MovesKept (fun s t => t.noRaiseSince s) c where
  refl s := ⟨rfl, rfl, rfl, [], (List.append_nil _).symm, fun _ he => nomatch he⟩
  trans := by
    rintro s t u ⟨hq, hi, ha, l, hl, nl⟩ ⟨kq, ki, ka, m, hm, nm⟩
    exact ⟨kq.trans hq, ki.trans hi, ka.trans ha, l ++ m, by rw [hm, hl, List.append_assoc],
      fun e he => (List.mem_append.1 he).elim (nl e) (nm e)⟩
  accessed s op a := by
    obtain ⟨events, hh, plain⟩ := accessed_history s op a
    refine ⟨by simp, by simp, by simp, events, hh, fun e he core v l h => ?_⟩
    obtain ⟨hi, -⟩ := plain e he
    rw [h] at hi
    cases hi
  modChan s f := ⟨rfl, rfl, rfl, [], (List.append_nil _).symm, fun _ he => nomatch he⟩
  closeSegment s := by
    rw [closeSegment_eq]
    refine ⟨rfl, rfl, rfl, s.segmentEvents c, rfl, fun e he core v l => ?_⟩
    obtain ⟨start, length, rfl⟩ := eq_notifyWrite_of_mem he
    nofun

end Sys2Proof.Machine

/-! SUPPORT. When the engine's loops end: a finite number of ticks whose accesses avoid the controller, the ticks of a
direct transfer, and a drain (43_dma.md R150, R153, R169). -/

namespace Sys2Proof.Machine

variable {nest : Nest} {c d : Chan} {s t : State} {n budget : Nat}

/-! A finite number of ticks. -/

/-- Ticks whose accesses avoid the controller complete. -/
theorem ticks_of_chanAvoids (hq : s.Quiet) (h : chanAvoids (handlersTo n) c budget s = true) :
    ∃ t, ticks (handlersTo n) c budget s = .next t := by
  induction budget generalizing s with
  | zero => exact ⟨s, rfl⟩
  | succ budget ih =>
    cases ha : (s.chan c).active with
    | false => exact ⟨s, ticks_of_idle _ ha⟩
    | true =>
      simp only [chanAvoids, ha, Bool.not_true, Bool.false_or, Bool.and_eq_true] at h
      obtain ⟨avoids, later⟩ := h
      have one : tick (handlersTo n) c s = .next (s.tickDone c) := by rw [tick_eq hq ha, if_pos avoids]
      rw [one] at later
      obtain ⟨t, ht⟩ := ih (quiet_of_tick hq one) later
      exact ⟨t, by rw [ticks_succ_of_active _ ha, one]; exact ht⟩

theorem stepChannel_of_chanAvoids (hq : s.Quiet) (h : chanAvoids (handlersTo n) c budget s = true) :
    ∃ t, stepChannel (handlersTo n) c budget s = .next t := by
  obtain ⟨u, hu⟩ := ticks_of_chanAvoids hq h
  exact ⟨_, by rw [stepChannel, hu]; rfl⟩

/-! No slot at the discriminator. -/

theorem noCombo_of_sameTables (h : SameTables s t) (hs : s.NoCombo) : t.NoCombo := fun e he =>
  hs e (h.pt ▸ he)

theorem tickAvoids_of_noCombo (h : s.NoCombo) (c : Chan) : s.tickAvoids c = true := by
  simp [State.tickAvoids, reachesCtrl_of_noCombo _ h]

theorem chanAvoids_of_noCombo (hq : s.Quiet) (h : s.NoCombo) : chanAvoids (handlersTo n) c budget s = true := by
  induction budget generalizing s with
  | zero => rfl
  | succ budget ih =>
    simp only [chanAvoids, tickAvoids_of_noCombo h, Bool.true_and]
    cases (s.chan c).active with
    | false => rfl
    | true =>
      cases ht : tick (handlersTo n) c s with
      | next t =>
        obtain ⟨quiet, same⟩ := (quietSameTables_kept n).toEngineKept.tick ht hq
        exact ih quiet (noCombo_of_sameTables same h)
      | fault r => rfl
      | refused r => rfl

theorem execAvoids_of_noCombo (hq : s.Quiet) (h : s.NoCombo) : execAvoids (handlersTo n) budget s = true := by
  have later : ∀ {d : Chan} {p : State → Bool} {s : State}, s.Quiet → s.NoCombo →
      (∀ t, t.Quiet → t.NoCombo → p t = true) → thenAlso (stepChannel (handlersTo n) d budget s) p = true := by
    intro d p s hq h hp
    cases hs : stepChannel (handlersTo n) d budget s with
    | next t =>
      obtain ⟨quiet, same⟩ := (quietSameTables_kept n).toEngineKept.stepChannel hs hq
      exact hp t quiet (noCombo_of_sameTables same h)
    | fault r => rfl
    | refused r => rfl
  refine Bool.and_eq_true_iff.2 ⟨chanAvoids_of_noCombo hq h, later hq h fun a qa ha => ?_⟩
  exact Bool.and_eq_true_iff.2 ⟨chanAvoids_of_noCombo qa ha, later qa ha fun b qb hb => chanAvoids_of_noCombo qb hb⟩

/-! The ticks of a direct transfer (43_dma.md R150). -/

theorem unitSize_pos (k : Channel) : k.unitSize = 2 ∨ k.unitSize = 4 := by
  unfold Channel.unitSize; split <;> simp

@[simp] theorem afterUnit_unitSize (k : Channel) (v : Word) : (k.afterUnit v).unitSize = k.unitSize := by
  simp [Channel.unitSize]

@[simp] theorem afterUnit_readStride (k : Channel) (v : Word) : (k.afterUnit v).readStride = k.readStride := by
  simp [Channel.readStride]

theorem afterUnit_readAt (k : Channel) (v : Word) (j : Nat) : (k.afterUnit v).readAt j = k.readAt (j + 1) := by
  rw [Channel.readAt, Channel.readAt, afterUnit_ra, afterUnit_readStride, BitVec.add_assoc, ← BitVec.ofNat_add,
    Nat.add_comm, Nat.succ_mul]

theorem afterUnit_writeAt (k : Channel) (v : Word) (j : Nat) : (k.afterUnit v).writeAt j = k.writeAt (j + 1) := by
  rw [Channel.writeAt, Channel.writeAt, afterUnit_wa, afterUnit_waAdd, BitVec.add_assoc, Nat.add_comm, BitVec.ofNat_add,
    BitVec.add_mul, BitVec.one_mul]

/-- A signed word is positive when it is neither zero nor in the upper half. -/
theorem toInt_pos_iff (x : Word) : 0 < x.toInt ↔ 0 < x.toNat ∧ x.toNat < 2 ^ 31 := by
  have := x.isLt
  rw [BitVec.toInt_eq_toNat_cond]
  split <;> omega

/-- One unit fewer is left while the count stays positive. -/
theorem afterUnit_unitsLeft {k : Channel} {v : Word} (h : 0 < k.tn.toInt) (h' : 0 < (k.afterUnit v).tn.toInt) :
    k.unitsLeft = (k.afterUnit v).unitsLeft + 1 := by
  rw [toInt_pos_iff] at h h'
  have count : (k.afterUnit v).tn.toNat = (2 ^ 32 - k.unitSize % 2 ^ 32 + k.tn.toNat) % 2 ^ 32 := by
    rw [afterUnit_tn, BitVec.toNat_sub, BitVec.toNat_ofNat]
  simp only [Channel.unitsLeft, afterUnit_unitSize]
  rcases unitSize_pos k with hs | hs <;> rw [hs] at count ⊢ <;> omega

/-- A tick of a direct transfer ends it, or is its unit and leaves a positive count. -/
theorem tick_of_direct (hq : s.Quiet) (ha : (s.chan c).active = true) (hd : (s.chan c).indirect = false)
    (avoids : s.unitAvoids c = true) :
    ∃ t, tick (handlersTo n) c s = .next t
      ∧ ((t.chan c).active = false ∨ (t = s.unitDone c ∧ 0 < (t.chan c).tn.toInt)) := by
  refine ⟨s.tickDone c, ?_, ?_⟩
  · rw [tick_eq hq ha, tickAvoids_eq, avoids, Channel.hasNext, hd]
    simp
  · rcases Int.lt_or_le 0 ((s.unitDone c).chan c).tn.toInt with more | done
    · rw [tickDone_of_positive more]
      exact .inr ⟨rfl, more⟩
    · rw [tickDone_of_done_last done (.inl hd), chan_complete_self]
      exact .inl rfl

/-- A direct transfer with a positive count ends with the units that are left of it, if they avoid the controller. -/
theorem ticks_of_direct {m : Nat} (hq : s.Quiet) (ha : (s.chan c).active = true) (hd : (s.chan c).indirect = false)
    (hp : 0 < (s.chan c).tn.toInt) (hm : (s.chan c).unitsLeft = m) (avoids : s.avoidsCtrl c m) :
    ∃ t, ticks (handlersTo n) c m s = .next t ∧ (t.chan c).active = false := by
  induction m generalizing s with
  | zero =>
    rw [toInt_pos_iff] at hp
    unfold Channel.unitsLeft at hm
    rcases unitSize_pos (s.chan c) with hs | hs <;> rw [hs] at hm <;> omega
  | succ m ih =>
    have next : s.unitAvoids c = true := unitAvoids_of_avoidsCtrl fun j hj => avoids j (by omega)
    obtain ⟨t, one, idle | ⟨rfl, more⟩⟩ := tick_of_direct (n := n) hq ha hd next
    · exact ⟨t, by rw [ticks_succ_of_active _ ha, one, andThen_next, ticks_of_idle _ idle], idle⟩
    · rw [ticks_succ_of_active _ ha, one, andThen_next]
      rw [chan_unitDone_self] at more
      refine ih (quiet_unitDone hq c) (by simpa using ha) (by simpa using hd) (by simpa using more) ?left ?coming
      case left =>
        have fewer := afterUnit_unitsLeft hp more
        rw [chan_unitDone_self]
        omega
      case coming =>
        intro j hj
        rw [chan_unitDone_self, afterUnit_readAt, afterUnit_writeAt, reachesCtrl_unitDone, reachesCtrl_unitDone]
        exact avoids (j + 1) (by omega)

theorem avoidsCtrl_of_noCombo (h : s.NoCombo) (c : Chan) (m : Nat) : s.avoidsCtrl c m := fun _ _ =>
  ⟨reachesCtrl_of_noCombo _ h, reachesCtrl_of_noCombo _ h⟩

/-- A direct transfer ends whatever its count where no slot holds the discriminator: after one unit the count is
positive, if the burst is not done. -/
theorem ticks_of_direct_of_noCombo (hq : s.Quiet) (ha : (s.chan c).active = true)
    (hd : (s.chan c).indirect = false) (h : s.NoCombo) :
    ∃ m t, ticks (handlersTo n) c m s = .next t ∧ (t.chan c).active = false := by
  have next : s.unitAvoids c = true := unitAvoids_of_avoidsCtrl (avoidsCtrl_of_noCombo h c 1)
  obtain ⟨t, one, idle | ⟨rfl, more⟩⟩ := tick_of_direct (n := n) hq ha hd next
  · exact ⟨1, t, by rw [ticks_succ_of_active _ ha, one, andThen_next, ticks_zero], idle⟩
  · obtain ⟨quiet, same⟩ := (quietSameTables_kept n).toEngineKept.tick one hq
    obtain ⟨t, ht, idle⟩ := ticks_of_direct (n := n) quiet (by simpa using ha) (by simpa using hd) more rfl
      (avoidsCtrl_of_noCombo (noCombo_of_sameTables same h) c _)
    exact ⟨_, t, by rw [ticks_succ_of_active _ ha, one, andThen_next, ht], idle⟩

/-! Drains. -/

theorem drainChannel_of_idle (h : (s.chan c).active = false) : drainChannel nest c s = .next s := by
  rw [drainChannel_eq, drainLoop_of_idle h, Option.getD_some]

/-- The loop of a drain has the state that some number of ticks reaches with the channel idle. -/
theorem drainLoop_of_ticks_next {k : Nat} (hk : ticks nest c k s = .next t) (idle : (t.chan c).active = false) :
    drainLoop nest c s = some (.next t) :=
  drainLoop_eq_some_iff.2 ⟨k, hk, fun u hu => by cases hu; exact idle⟩

/-- The loop of a drain stops where some number of ticks does. -/
theorem drainLoop_of_ticks_stop {k : Nat} {r : Res State} (hk : ticks nest c k s = r) (stop : ∀ t, r ≠ .next t) :
    drainLoop nest c s = some r :=
  drainLoop_eq_some_iff.2 ⟨k, hk, fun t ht => absurd ht (stop t)⟩

/-- A drain answers a state exactly if some number of ticks reaches it with the channel idle. -/
theorem drainChannel_eq_next_iff :
    drainChannel nest c s = .next t ↔ ∃ k, ticks nest c k s = .next t ∧ (t.chan c).active = false := by
  refine ⟨drainChannel_eq_next, fun ⟨k, hk, idle⟩ => ?_⟩
  rw [drainChannel_eq, drainLoop_of_ticks_next hk idle, Option.getD_some]

/-- A drain is refused exactly if some number of ticks is. -/
theorem drainChannel_eq_refused_iff {r : Refusal} :
    drainChannel nest c s = .refused r ↔ ∃ k, ticks nest c k s = .refused r := by
  rw [drainChannel_eq]
  constructor
  · intro h
    cases hl : drainLoop nest c s with
    | none => rw [hl] at h; cases h
    | some x =>
      rw [hl, Option.getD_some] at h
      obtain ⟨k, hk, -⟩ := drainLoop_eq_some_iff.1 hl
      exact ⟨k, hk.trans h⟩
  · rintro ⟨k, hk⟩
    rw [drainLoop_of_ticks_stop hk (fun _ hr => by cases hr), Option.getD_some]

/-- The channel is active after any number of ticks, none of which stops. -/
def NeverEnds (nest : Nest) (c : Chan) (s : State) : Prop :=
  ∀ k, ∃ t, ticks nest c k s = .next t ∧ (t.chan c).active = true

/-- The loop of a drain has no result exactly if it never ends. -/
theorem drainLoop_eq_none_iff : drainLoop nest c s = none ↔ NeverEnds nest c s := by
  constructor
  · intro h k
    have noResult : ∀ r, drainLoop nest c s ≠ some r := fun r hr => by rw [h] at hr; cases hr
    cases hk : ticks nest c k s with
    | next t =>
      refine ⟨t, rfl, ?_⟩
      cases ha : (t.chan c).active with
      | true => rfl
      | false => exact absurd (drainLoop_of_ticks_next hk ha) (noResult _)
    | fault r => exact absurd (drainLoop_of_ticks_stop hk fun _ h => by cases h) (noResult _)
    | refused r => exact absurd (drainLoop_of_ticks_stop hk fun _ h => by cases h) (noResult _)
  · intro h
    cases hl : drainLoop nest c s with
    | none => rfl
    | some r =>
      obtain ⟨k, hk, idle⟩ := drainLoop_eq_some_iff.1 hl
      obtain ⟨t, ht, active⟩ := h k
      rw [idle t (hk.symm.trans ht)] at active
      cases active

/-- A drain that never ends is the hang (43_dma.md R169). -/
theorem drainChannel_of_neverEnds (h : NeverEnds nest c s) : drainChannel nest c s = .fault .dmaHang := by
  rw [drainChannel_eq, drainLoop_eq_none_iff.2 h, Option.getD_none]

/-- A drain faults only if it never ends, or if a tick does. -/
theorem drainChannel_eq_fault {f : Fault} (h : drainChannel nest c s = .fault f) :
    NeverEnds nest c s ∨ ∃ k, ticks nest c k s = .fault f := by
  rw [drainChannel_eq] at h
  cases hl : drainLoop nest c s with
  | none => exact .inl (drainLoop_eq_none_iff.1 hl)
  | some r =>
    rw [hl, Option.getD_some] at h
    obtain ⟨k, hk, -⟩ := drainLoop_eq_some_iff.1 hl
    exact .inr ⟨k, hk.trans h⟩

/-- If the channel is active, its transfer is direct and avoids the controller. -/
def State.DirectAvoids (s : State) (c : Chan) : Prop :=
  (s.chan c).active = true → (s.chan c).indirect = false
    ∧ (s.NoCombo ∨ (0 < (s.chan c).tn.toInt ∧ s.avoidsCtrl c (s.chan c).unitsLeft))

/-- A drain of an idle channel, or of a direct transfer that avoids the controller, completes. -/
theorem drainChannel_of_directAvoids (hq : s.Quiet) (h : s.DirectAvoids c) :
    ∃ t, drainChannel (handlersTo n) c s = .next t ∧ (t.chan c).active = false := by
  cases ha : (s.chan c).active with
  | false => exact ⟨s, drainChannel_of_idle ha, ha⟩
  | true =>
    obtain ⟨hd, noSlot | ⟨hp, avoids⟩⟩ := h ha
    · obtain ⟨k, t, ht, idle⟩ := ticks_of_direct_of_noCombo (n := n) hq ha hd noSlot
      exact ⟨t, drainChannel_eq_next_iff.2 ⟨k, ht, idle⟩, idle⟩
    · obtain ⟨t, ht, idle⟩ := ticks_of_direct (n := n) hq ha hd hp rfl avoids
      exact ⟨t, drainChannel_eq_next_iff.2 ⟨_, ht, idle⟩, idle⟩

/-- A drain of one channel leaves what is said of another as it is. -/
theorem directAvoids_of_drainChannel (hq : s.Quiet) (hcd : c ≠ d) (h : drainChannel (handlersTo n) c s = .next t)
    (hd : s.DirectAvoids d) : t.DirectAvoids d := by
  obtain ⟨-, same⟩ := (quietSameTables_kept n).toEngineKept.drainChannel h hq
  have cfg : t.cfg = s.cfg :=
    ((runExtended_kept.toCtrl (runExtended_kept.handlersTo n)).toEngineKept.drainChannel h).cfg
  have channel : t.chan d = s.chan d := (otherChannel_kept hcd).drainChannel hq h
  unfold State.DirectAvoids State.avoidsCtrl
  rw [channel]
  simp only [reachesCtrl_congr same.pt cfg]
  exact fun ha => (hd ha).imp_right fun hr => hr.imp_left (noCombo_of_sameTables same)

end Sys2Proof.Machine

/-! SUPPORT. What the engine raises in a quiet environment: the end interrupts alone, and for one transfer nothing
before its completion (43_dma.md R162, R165, R172). -/

namespace Sys2Proof.Machine

variable {c : Chan} {s t : State} {n budget : Nat}

/-! The end interrupts. -/

theorem mem_enqueued {order : PriorityOrder} {r x : IrqRecord} {q : List IrqRecord} (h : x ∈ enqueued order r q) :
    x ∈ q ∨ x = r := by
  unfold enqueued at h
  split at h
  · exact .inl h
  · exact (List.mem_cons.1 ((take_append_drop_perm r q _).mem_iff.1 h)).symm

/-- From a quiet state every delivery and every queued record is an end interrupt's, and the environment stays quiet. -/
structure RaisedOnlyEnds (s t : State) : Prop where
  quiet : t.Quiet
  cfg : t.cfg = s.cfg
  history : ∃ events, t.history = s.history ++ events ∧ ∀ e ∈ events, e.isInterrupt = true → isEndDelivery s.cfg e
  queue : ∀ r ∈ t.q, r ∈ s.q ∨ ∃ c, r = s.cfg.dmaEnd.get c

theorem RaisedOnlyEnds.of_same (hq : t.Quiet) (hc : t.cfg = s.cfg) (hh : t.history = s.history) (hr : t.q = s.q) :
    RaisedOnlyEnds s t :=
  ⟨hq, hc, ⟨[], by rw [hh, List.append_nil], fun _ he => nomatch he⟩, fun r h => .inl (hr ▸ h)⟩

theorem RaisedOnlyEnds.trans {u : State} (h : RaisedOnlyEnds s t) (k : RaisedOnlyEnds t u) : RaisedOnlyEnds s u := by
  obtain ⟨-, hcfg, ⟨l, hl, nl⟩, hqueue⟩ := h
  obtain ⟨quiet, kcfg, ⟨m, hm, nm⟩, kqueue⟩ := k
  rw [hcfg] at nm kqueue
  refine ⟨quiet, kcfg.trans hcfg, ⟨l ++ m, by rw [hm, hl, List.append_assoc], fun e he => ?_⟩, fun r hr => ?_⟩
  · exact (List.mem_append.1 he).elim (nl e) (nm e)
  · exact (kqueue r hr).elim (hqueue r) .inr

/-- A call or a note that is no delivery. -/
theorem RaisedOnlyEnds.of_emit {e : Event} {rest : List Reaction} (he : e.isInterrupt = false)
    (hq : ∀ r ∈ rest, r.nested = []) : RaisedOnlyEnds s (State.emit { s with script := rest } e) :=
  ⟨hq, rfl, ⟨[e], rfl, fun x hx h => by rw [List.mem_singleton.1 hx, he] at h; cases h⟩, fun _ hr => .inl hr⟩

theorem RaisedOnlyEnds.of_raiseEnd (hq : s.Quiet) (c : Chan) :
    RaisedOnlyEnds s (raiseIrq (s.cfg.dmaEnd.get c) s) := by
  rw [raiseIrq_eq_raised]
  unfold State.raised
  dsimp only
  split
  · exact ⟨hq, rfl, ⟨_, rfl, fun e he _ => ⟨c, he⟩⟩, fun r hr => .inl hr⟩
  · refine ⟨hq, rfl, ⟨[], (List.append_nil _).symm, fun _ he => nomatch he⟩, fun r hr => ?_⟩
    exact (mem_enqueued hr).imp_right fun h => ⟨c, h⟩

/-- The engine raises the end interrupts only. -/
theorem raisedOnlyEnds_kept (n : Nat) :
    EngineKept (fun s t => s.Quiet → RaisedOnlyEnds s t) (handlersTo n) where
  refl _ hq := .of_same hq rfl rfl rfl
  trans f g hq := (f hq).trans (g (f hq).quiet)
  ret _ _ hq := .of_same hq rfl rfl rfl
  draws _ _ hq := .of_same hq rfl rfl rfl
  note _ _ he hq := .of_emit he hq
  call s r rest e t hs he h hq := by
    rw [hq r (by simp [hs]), handlersTo_nil] at h
    cases h
    exact .of_emit he fun x hx => hq x (by rw [hs]; exact List.mem_cons_of_mem r hx)
  modChan _ _ _ _ hq := .of_same hq rfl rfl rfl
  modRegs _ _ _ hq := .of_same hq rfl rfl rfl
  raiseEnd _ c hq := .of_raiseEnd hq c

theorem writeEnable_raisedOnlyEnds {v : Word} (hq : s.Quiet) (h : writeEnable (handlersTo n) c v s = .next t) :
    RaisedOnlyEnds s t := by
  have K := raisedOnlyEnds_kept n
  rw [writeEnable_eq] at h
  split at h
  · exact (K.trans (K.modRegs s c _) (K.arm h)) hq
  · cases h
  · cases h; exact K.modRegs s c _ hq

/-! One transfer. -/

theorem active_loadedFrom (s : State) (c : Chan) (p : Word) :
    ((s.loadedFrom c p).chan c).active = (s.chan c).active := by
  unfold State.loadedFrom
  rw [chan_modChan_self]
  simp [State.burst]

/-- The state `t` ends a transfer that had raised nothing since `s`, at a burst that was done and the last. -/
def EndsTransfer (c : Chan) (s t : State) : Prop :=
  ∃ u, t = complete c (closeSegment c u) ∧ u.noRaiseSince s
    ∧ (u.chan c).tn.toInt ≤ 0 ∧ ((u.chan c).indirect = true → (u.chan c).last = true)

/-- A tick leaves the channel active and has raised nothing, or it ends the transfer. -/
theorem tick_raises (hq : s.Quiet) (ha : (s.chan c).active = true) (h : tick (handlersTo n) c s = .next t) :
    ((t.chan c).active = true ∧ t.noRaiseSince s) ∨ ((t.chan c).active = false ∧ EndsTransfer c s t) := by
  have K := noRaise_kept c
  have active : ((s.unitDone c).chan c).active = true := by simpa using ha
  rw [tick_eq_next hq ha h, State.tickDone]
  split
  · next done =>
    unfold State.burstEnded
    split
    · refine .inl ⟨?_, K.trans (K.unitDone s) (K.trans (K.closeSegment _) (K.loadedFrom _ _))⟩
      rw [active_loadedFrom, chan_closeSegment_self]
      exact active
    · next last =>
      refine .inr ⟨by rw [chan_complete_self]; rfl, s.unitDone c, rfl, K.unitDone s, of_decide_eq_true done, ?_⟩
      simpa [Channel.hasNext] using last
  · exact .inl ⟨active, K.unitDone s⟩

/-- Any number of ticks of an active channel leaves it active and has raised nothing, or ends the transfer. -/
theorem ticks_raises (hq : s.Quiet) (ha : (s.chan c).active = true) (h : ticks (handlersTo n) c budget s = .next t) :
    ((t.chan c).active = true ∧ t.noRaiseSince s) ∨ ((t.chan c).active = false ∧ EndsTransfer c s t) := by
  have K := noRaise_kept c
  induction budget generalizing s with
  | zero => cases h; exact .inl ⟨ha, K.refl _⟩
  | succ budget ih =>
    rw [ticks_succ_of_active _ ha] at h
    obtain ⟨u, hu, h⟩ := andThen_eq_next h
    rcases tick_raises hq ha hu with ⟨active, quietly⟩ | ⟨idle, ended⟩
    · refine (ih (quiet_of_tick hq hu) active h).imp (fun ⟨a, later⟩ => ⟨a, K.trans quietly later⟩) ?_
      rintro ⟨idle, w, rfl, later, done, last⟩
      exact ⟨idle, w, rfl, K.trans quietly later, done, last⟩
    · rw [ticks_of_idle _ idle] at h
      cases h
      exact .inr ⟨idle, ended⟩

end Sys2Proof.Machine

/-! SUPPORT. EXEC and DRAIN as the steps and drains of the three channels (43_dma.md R166 to R168). -/

namespace Sys2Proof.Machine

variable {s u : State} {n budget : Nat}

theorem andThen_assoc {α β γ : Type} (x : Res α) (f : α → Res β) (g : β → Res γ) :
    andThen (andThen x f) g = andThen x fun a => andThen (f a) g := by
  cases x <;> rfl

theorem exec_exec_eq (s : State) (ticks : Word) :
    exec (.exec ticks) s
      = andThen (stepChannel (handlers s) .c0 ticks.toNat s) fun a =>
          andThen (stepChannel (handlers s) .c1 ticks.toNat a) fun b =>
          andThen (stepChannel (handlers s) .c2 ticks.toNat b) fun d =>
          andThen (extCall (handlers s) (.dspStep ticks) d) fun t => .next { t with ret := none } := by
  simp only [exec, execExec, execWith, finishSilent, andThen_assoc]
  rfl

theorem exec_drain_eq (s : State) :
    exec .drain s
      = andThen (drainChannel (handlers s) .c0 s) fun a =>
          andThen (drainChannel (handlers s) .c1 a) fun b =>
          andThen (drainChannel (handlers s) .c2 b) fun t => .next { t with ret := none } := by
  simp only [exec, execDrain, drainWith, finishSilent, andThen_assoc]
  rfl

/-- What an instruction that does not configure leaves alone, where the engine alone ran until a state `u` and nothing
after it but the script, the history and the returned value changed. -/
theorem frame_of_engineRan {i : Instr} {script : List Reaction} {history : List Event} (hq : s.Quiet)
    (hi : configures i = false) (ran : EngineRan s u)
    (h : exec i s = .next { u with script := script, history := history, ret := none }) :
    (∀ c, ∀ f ∈ [DmaField.c, .ad, .en, .md], fieldGet f (u.regs c) = fieldGet f (s.regs c))
      ∧ u.pt = s.pt ∧ u.mr = s.mr ∧ u.mw = s.mw ∧ u.ims = s.ims ∧ u.cfg = s.cfg ∧ u.refusalMark = s.refusalMark
      ∧ u.stream = s.stream ∧ u.port = s.port ∧ u.pos = s.pos := by
  obtain ⟨hpt, hmr, hmw⟩ := exec_sameTables hq hi h
  obtain ⟨-, hcfg, hpos, hmark⟩ := runExtended_kept.exec h
  exact ⟨ran.registers, hpt, hmr, hmw, ran.ims, hcfg, hmark, ran.stream, ran.port, hpos⟩

/-- Three steps of a quiet environment that avoid the controller complete, with the engine's frame. -/
theorem steps_of_execAvoids (hq : s.Quiet) (h : execAvoids (handlersTo n) budget s = true) :
    ∃ a b d, stepChannel (handlersTo n) .c0 budget s = .next a ∧ stepChannel (handlersTo n) .c1 budget a = .next b
      ∧ stepChannel (handlersTo n) .c2 budget b = .next d ∧ d.Quiet ∧ EngineRan s d := by
  have quiet : ∀ {c s t}, State.Quiet s → stepChannel (handlersTo n) c budget s = .next t → t.Quiet := fun hq h =>
    ((quietSameTables_kept n).toEngineKept.stepChannel h hq).1
  obtain ⟨avoids0, h⟩ := Bool.and_eq_true_iff.1 h
  obtain ⟨a, ha⟩ := stepChannel_of_chanAvoids hq avoids0
  rw [ha] at h
  obtain ⟨avoids1, h⟩ := Bool.and_eq_true_iff.1 h
  have qa := quiet hq ha
  obtain ⟨b, hb⟩ := stepChannel_of_chanAvoids qa avoids1
  rw [hb] at h
  have qb := quiet qa hb
  obtain ⟨d, hd⟩ := stepChannel_of_chanAvoids qb h
  exact ⟨a, b, d, ha, hb, hd, quiet qb hd, ((engineRan_kept .c0).stepChannel hq ha).trans
    (((engineRan_kept .c1).stepChannel qa hb).trans ((engineRan_kept .c2).stepChannel qb hd))⟩

/-- Three drains of a quiet environment, each of an idle channel or of a direct transfer that avoids the controller,
complete and leave every channel idle, with the engine's frame. -/
theorem drains_of_directAvoids (hq : s.Quiet) (h : ∀ c, s.DirectAvoids c) :
    ∃ a b d, drainChannel (handlersTo n) .c0 s = .next a ∧ drainChannel (handlersTo n) .c1 a = .next b
      ∧ drainChannel (handlersTo n) .c2 b = .next d ∧ (∀ c, (d.chan c).active = false) ∧ EngineRan s d := by
  have quiet : ∀ {c s t}, State.Quiet s → drainChannel (handlersTo n) c s = .next t → t.Quiet := fun hq h =>
    ((quietSameTables_kept n).toEngineKept.drainChannel h hq).1
  obtain ⟨a, ha, idle0⟩ := drainChannel_of_directAvoids (n := n) hq (h .c0)
  have qa := quiet hq ha
  obtain ⟨b, hb, idle1⟩ := drainChannel_of_directAvoids (n := n) qa
    (directAvoids_of_drainChannel hq (by decide) ha (h .c1))
  have qb := quiet qa hb
  obtain ⟨d, hd, idle2⟩ := drainChannel_of_directAvoids (n := n) qb
    (directAvoids_of_drainChannel qa (by decide) hb (directAvoids_of_drainChannel hq (by decide) ha (h .c2)))
  have other : ∀ {c e s t}, c ≠ e → State.Quiet s → drainChannel (handlersTo n) c s = .next t → t.chan e = s.chan e :=
    fun hce hq h => (otherChannel_kept hce).drainChannel hq h
  refine ⟨a, b, d, ha, hb, hd, fun c => ?_, ((engineRan_kept .c0).drainChannel hq ha).trans
    (((engineRan_kept .c1).drainChannel qa hb).trans ((engineRan_kept .c2).drainChannel qb hd))⟩
  cases c with
  | c0 => rwa [other (by decide) qb hd, other (by decide) qa hb]
  | c1 => rwa [other (by decide) qb hd]
  | c2 => exact idle2

end Sys2Proof.Machine

/-! SUPPORT. The statements about the engine's steps, settled. -/

namespace Sys2Proof.Machine

/-- Settles O56: the three steps complete and run the engine alone, and the DSP's step is one event after theirs. -/
theorem execCompletes : Obligations.ExecCompletes := by
  intro s ticks
  refine ⟨exec_exec_eq s ticks, fun hq h => ?_⟩
  have avoids : execAvoids (handlers s) ticks.toNat s = true := h.elim (execAvoids_of_noCombo hq) id
  obtain ⟨a, b, d, ha, hb, hd, qd, ran⟩ := steps_of_execAvoids hq avoids
  have result : exec (.exec ticks) s
      = .next { d with script := d.script.tail, history := d.history ++ [.dspStep ticks], ret := none } := by
    rw [exec_exec_eq, handlers, ha, andThen_next, hb, andThen_next, hd, andThen_next, extCall_of_quiet qd]
    rfl
  obtain ⟨registers, pt, mr, mw, ims, cfg, mark, stream, port, pos⟩ := frame_of_engineRan hq rfl ran result
  obtain ⟨events, hh, noStep⟩ := ran.history
  exact ⟨_, events, result, by rw [hh], noStep, registers, pt, mr, mw, ims, cfg, mark, stream, port, pos, rfl⟩

/-- Settles O57: a drain has the result of some finite number of ticks, and a direct transfer that avoids the controller
ends with the units that are left of it. -/
theorem drainCompletes : Obligations.DrainCompletes := by
  refine ⟨exec_drain_eq, fun nest c s => ⟨fun t => drainChannel_eq_next_iff, fun r => drainChannel_eq_refused_iff,
    drainChannel_of_neverEnds, fun f => drainChannel_eq_fault⟩, fun s hq h => ?_⟩
  obtain ⟨a, b, d, ha, hb, hd, idle, ran⟩ := drains_of_directAvoids (n := s.script.length) hq h
  have result : exec .drain s = .next { d with script := d.script, history := d.history, ret := none } := by
    rw [exec_drain_eq, handlers, ha, andThen_next, hb, andThen_next, hd, andThen_next]
  obtain ⟨registers, pt, mr, mw, ims, cfg, mark, stream, port, pos⟩ := frame_of_engineRan hq rfl ran result
  obtain ⟨events, hh, noStep⟩ := ran.history
  exact ⟨_, events, result, idle, hh, noStep, registers, pt, mr, mw, ims, cfg, mark, stream, port, pos, rfl⟩

/-- Settles O59: of what the engine does only a completion raises, and it raises the channel's end interrupt. -/
theorem engineRaisesOnlyEnds : Obligations.EngineRaisesOnlyEnds := by
  intro i s t hi hq h
  suffices raised : RaisedOnlyEnds s t from ⟨raised.history, raised.queue⟩
  have K := raisedOnlyEnds_kept s.script.length
  rcases hi with rfl | ⟨ticks, rfl⟩ | ⟨hs, c, m, v, rfl⟩
  · exact K.drainWith h hq
  · exact K.execWith h hq
  · rw [exec_enableRow_write hs] at h
    obtain ⟨u, hu, rfl⟩ := finishSilent_eq_next h
    have enabled := writeEnable_raisedOnlyEnds hq hu
    exact enabled.trans (K.ret u none enabled.quiet)

/-- Settles O60: the state after a unit is exact, and a tick raises nothing unless it ends the transfer. -/
theorem indirectChainEnds : Obligations.IndirectChainEnds := by
  intro s c n hq ha
  refine ⟨fun avoids hi => ?_, fun budget t h => ?_⟩
  · have unitAvoids : s.unitAvoids c = true := by
      rw [tickAvoids_eq] at avoids
      exact (Bool.and_eq_true_iff.1 avoids).1
    have one : tick (handlersTo n) c s = .next (s.tickDone c) := by rw [tick_eq hq ha, if_pos avoids]
    refine ⟨s.unitDone c, by rw [unit_eq hq ha, if_pos unitAvoids], (noRaise_kept c).unitDone s, by simp, by simp,
      fun more => ?_, fun done last => ?_, fun done last => ?_⟩
    · rw [one, tickDone_of_positive more]
    · rw [one, tickDone_of_done_last done (.inr last)]
    · dsimp only
      rw [one, tickDone_of_done_next done hi last, loadedFrom_eq]
  · rcases ticks_raises hq ha h with ⟨active, quietly⟩ | ⟨idle, ended⟩
    · exact ⟨fun _ => quietly, fun idle => Bool.noConfusion (active.symm.trans idle)⟩
    · refine ⟨fun active => Bool.noConfusion (active.symm.trans idle), fun _ => ⟨?_, ended⟩⟩
      obtain ⟨u, rfl, -⟩ := ended
      exact chan_complete_self _ c

/-- Settles O55: no unit of an idle channel moves, so EXEC is the DSP's step alone and DRAIN does nothing. -/
theorem idleStep : Obligations.IdleStep := by
  refine ⟨fun nest c budget s h => ⟨stepChannel_of_idle budget h, drainChannel_of_idle h⟩, fun s h => ⟨?_, ?_⟩⟩
  · simp only [exec_drain_eq, drainChannel_of_idle (h _), andThen_next]
  · intro hq ticks
    rw [exec_exec_of_idle h, handlers, extCall_of_quiet hq]
    rfl

end Sys2Proof.Machine

/-! SUPPORT. The arbiter's commands in one step each, raises that are held back, and a retest that empties the queue
(44_interrupt_arbiter.md R174, R176, R177, R180, R181). -/

namespace Sys2Proof.Machine

variable {s : State}

/-! The commands. -/

theorem exec_raise (v : BitVec 8) (l : BitVec 4) (m : BitVec 16) (st : BitVec 32) (s : State) :
    exec (.raise v l m st) s = .next (silent (s.raised ⟨v, l, m, st⟩)) := by
  rw [← raiseIrq_eq_raised]
  rfl

theorem exec_retest (s : State) : exec .retest s = .next (silent s.retested) := by
  rw [← retestQueue_eq_retested]
  rfl

theorem exec_rmstat (before after : BitVec 32) (s : State) :
    exec (.rmstat before after) s = .next (silent (s.droppedBy (before &&& ~~~after))) := by
  rw [← removeByStatus_eq_droppedBy]
  rfl

theorem exec_remove (v : BitVec 8) (l : BitVec 4) (st : BitVec 32) (s : State) :
    exec (.remove v l st) s = .next (silent (removeVector v st s)) := rfl

theorem exec_ims_write (hs : s.CtrlMapped) (m : BitVec 8) (v : Word) :
    exec (.ims m (.write v)) s = .next (silent { s with ims := v.setWidth 16 }.retested) := by
  rw [exec_ims_of_ctrlMapped hs, imsRegister, finishAccess_next, retestQueue_eq_retested]
  rfl

/-! Masks. -/

theorem lets_eq_true_iff {mask : BitVec 16} : s.lets mask = true ↔ mask &&& s.ims = 0 := beq_iff_eq

theorem lets_eq_false_iff {mask : BitVec 16} : s.lets mask = false ↔ mask &&& s.ims ≠ 0 := beq_eq_false_iff_ne

/-! Raises that are held back (44_interrupt_arbiter.md R174, R176). -/

/-- A raise whose mask value is masked only queues its record and sets its status bits, gated or not; a gated one
consumes AIACK all the same. -/
theorem exec_raise_of_masked {r : IrqRecord} (h : r.mask &&& s.ims ≠ 0) :
    exec (.raise r.vector r.level r.mask r.status) s = .next (silent { s with
      aiack := s.aiack && !(r.mask == s.cfg.ackMask)
      ist := s.ist ||| r.status
      q := enqueued s.cfg.priorityOrder r s.q }) := by
  simp only [exec_raise, State.raised, lets_eq_false_iff.2 h, Bool.false_and, Bool.false_eq_true, if_false]

theorem enqueued_nil (order : PriorityOrder) (r : IrqRecord) : enqueued order r [] = [r] := rfl

/-- Beside one record of another vector the record of the higher rank stands first, whichever came first. -/
theorem enqueued_singleton {order : PriorityOrder} {high low : IrqRecord} (hv : low.vector ≠ high.vector)
    (hr : rank order low.level < rank order high.level) :
    enqueued order low [high] = [high, low] ∧ enqueued order high [low] = [high, low] := by
  have notAfter : ¬ rank order high.level < rank order low.level := Nat.not_lt_of_gt hr
  constructor
  · simp [enqueued, hv.symm, hr]
  · simp [enqueued, hv, notAfter]

/-! A retest that empties the queue (44_interrupt_arbiter.md R177). -/

/-- Under ALL with every record unmasked, the queue is delivered from its end and left empty. -/
theorem retested_of_all_unmasked (hall : s.cfg.retestMode = .all) (h : ∀ r ∈ s.q, r.mask &&& s.ims = 0) :
    s.retested.q = []
      ∧ s.retested.history
          = s.history ++ s.q.reverse.map fun r => .sendInterrupt .primary r.vector r.level := by
  have unmasked : ∀ r ∈ s.q, s.lets r.mask = true := fun r hr => lets_eq_true_iff.2 (h r hr)
  have due : s.due = s.q.reverse := by rw [due_of_all hall, List.filter_eq_self.2 unmasked]
  have kept : s.kept = [] := by
    rw [kept_of_all hall, List.filter_eq_nil_iff]
    exact fun r hr => by simp [unmasked r hr]
  exact ⟨kept, by rw [State.retested, due]⟩

/-- Two raises that are held back, then a write of IMS that unmasks every record: all three complete, and the queue that
the two enqueues made is delivered from its end. -/
theorem delivered_of_raises_of_release (hs : s.CtrlMapped) (hall : s.cfg.retestMode = .all) {first second : IrqRecord}
    (h1 : first.mask &&& s.ims ≠ 0) (h2 : second.mask &&& s.ims ≠ 0) {q : List IrqRecord}
    (hq : enqueued s.cfg.priorityOrder second (enqueued s.cfg.priorityOrder first s.q) = q) (m : BitVec 8) {v : Word}
    (released : ∀ r ∈ q, r.mask &&& v.setWidth 16 = 0) :
    ∃ t1 t2 t3,
      exec (.raise first.vector first.level first.mask first.status) s = .next t1
      ∧ exec (.raise second.vector second.level second.mask second.status) t1 = .next t2
      ∧ exec (.ims m (.write v)) t2 = .next t3
      ∧ t3.history = s.history ++ q.reverse.map (fun r => .sendInterrupt .primary r.vector r.level)
      ∧ t3.q = [] := by
  subst hq
  refine ⟨_, _, _, exec_raise_of_masked h1, exec_raise_of_masked h2, exec_ims_write ?mapped m v, ?delivered⟩
  case mapped => exact hs
  case delivered =>
    refine (retested_of_all_unmasked ?all ?unmasked).symm
    case all => exact hall
    case unmasked => exact released

end Sys2Proof.Machine

/-! SUPPORT. The statements about the interrupt arbiter, settled. -/

namespace Sys2Proof.Machine

/-- Settles O37: the model's raise is the specification's, and the command returns no value. -/
theorem raiseResult : Obligations.RaiseResult := fun s v l m st => exec_raise v l m st s

/-- Settles O38: the model's retest is the specification's, and the command returns no value. -/
theorem retestResult : Obligations.RetestResult := exec_retest

/-- Settles O39: what a retest under ALL keeps is exactly the masked records, and it leaves IMS alone. -/
theorem retestLeavesMasked : Obligations.RetestLeavesMasked := by
  intro s t hall h r hr
  rw [exec_retest] at h
  cases h
  have kept : r ∈ s.kept := hr
  rw [kept_of_all hall] at kept
  obtain ⟨-, masked⟩ := List.mem_filter.1 kept
  have ims : (silent s.retested).ims = s.ims := rfl
  rw [ims, ← lets_eq_false_iff]
  simpa using masked

/-- Settles O40: the model's removal by status is the specification's, and the command returns no value. -/
theorem rmstatResult : Obligations.RmstatResult := fun s before after => exec_rmstat before after s

/-- Settles O42: in either order the two raises leave the lower level at the end of the queue, where the retest of the
IMS write begins. -/
theorem priorityOrderOfDelivery : Obligations.PriorityOrderOfDelivery := by
  intro s v1 v2 l1 l2 b st1 st2 m v firstIsHigher hs hempty horder hall hv hl hmasked hreleased
  obtain ⟨lowSecond, highSecond⟩ := enqueued_singleton (order := .lowLevelFirst)
    (low := ⟨v1, l1, b, st1⟩) (high := ⟨v2, l2, b, st2⟩) hv hl
  have released : ∀ r ∈ [IrqRecord.mk v2 l2 b st2, ⟨v1, l1, b, st1⟩], r.mask &&& v.setWidth 16 = 0 :=
    List.forall_mem_cons.2 ⟨hreleased, List.forall_mem_singleton.2 hreleased⟩
  cases firstIsHigher with
  | true =>
    refine delivered_of_raises_of_release (first := ⟨v1, l1, b, st1⟩) (second := ⟨v2, l2, b, st2⟩)
      hs hall hmasked hmasked ?_ m released
    rw [hempty, horder, enqueued_nil, highSecond]
  | false =>
    refine delivered_of_raises_of_release (first := ⟨v2, l2, b, st2⟩) (second := ⟨v1, l1, b, st1⟩)
      hs hall hmasked hmasked ?_ m released
    rw [hempty, horder, enqueued_nil, lowSecond]

/-- Settles O41: the record of the vector goes, whatever its level, and the two ways to write "another vector" agree. -/
theorem removeResult : Obligations.RemoveResult := by
  intro s v l st
  have other : (fun r : IrqRecord => r.vector != v) = fun r => decide (r.vector ≠ v) := by
    funext r
    rw [bne, beq_eq_decide, decide_not]
  rw [exec_remove, removeVector, other]
  rfl

end Sys2Proof.Machine

/-! SUPPORT. The block after RESET, and the register rows while slot 0xBF holds the stub (70_reset_and_hazards.md R211,
40_dispatcher.md R106). -/

namespace Sys2Proof.Machine

variable {s : State}

/-! The reset block. -/

theorem exec_reset (s : State) : exec .reset s = .next (silent (resetBlock s)) := rfl

theorem page_resetBlock (s : State) (p : Nat) : (resetBlock s).page p = .unhandled := tableGet_nil _ p

theorem masks_resetBlock (s : State) (a : Word) : (resetBlock s).readMask a = 0 ∧ (resetBlock s).writeMask a = 0 :=
  ⟨tableGet_nil _ _, tableGet_nil _ _⟩

theorem chan_resetBlock (s : State) (c : Chan) : (resetBlock s).chan c = Channel.idle := by
  cases c <;> rfl

/-- The registers of a channel that have a reset value. -/
theorem regs_resetBlock (s : State) (c : Chan) :
    ((resetBlock s).regs c).ad = s.cfg.resetAd ∧ ((resetBlock s).regs c).en = s.cfg.resetEn
      ∧ ((resetBlock s).regs c).md = s.cfg.resetMd := by
  cases c <;> exact ⟨rfl, rfl, rfl⟩

/-- The registers without one hold the draws that follow the state's own, in the order of power-on. -/
theorem fieldGet_resetBlock (s : State) (c : Chan) {f : DmaField} (hf : f ∈ [DmaField.r, .w, .c]) :
    fieldGet f ((resetBlock s).regs c) = Config.draw (s.draws + resetDraw c f) := by
  simp only [List.mem_cons, List.not_mem_nil, or_false] at hf
  rcases hf with rfl | rfl | rfl <;> cases c <;> rfl

theorem resetDraw_lt (c : Chan) (f : DmaField) : resetDraw c f < 9 := by
  have place := unspecifiedPlace_lt f
  have channel : chanPlace c < 3 := by cases c <;> decide
  unfold resetDraw
  omega

/-! The stub. -/

/-- A paged access at a slot that holds the stub reads 0 and does nothing, whatever its width. -/
theorem access_of_stub {addr : Word} (hp : specPaged addr = true) (h : s.page (specPage addr) = .unhandled)
    (onCtrl : OnCtrl) (nest : Nest) (op : BusOp) : access onCtrl nest op addr s = .next (s, 0) := by
  rw [access_of_paged hp, routePage, pageOf_a29_eq, h]
  rfl

theorem portAccess_of_stub (h : s.page 0xBF = .unhandled) (nest : Nest) (off m : BitVec 8) (op : RegOp) :
    portAccess nest off m op s = .next { s with ret := op.toBus.returns 0 } := by
  obtain ⟨-, slot, -⟩ := registerAddress_zone off m
  rw [portAccess, busAccess, access_of_stub (specPaged_registerAddress off m) (by rw [slot]; exact h),
    finishAccess_next]

end Sys2Proof.Machine

/-! SUPPORT. A direct transfer under a budget below the units that are left of it: each tick is its unit, and nothing is
raised (43_dma.md R150, R153, 70_reset_and_hazards.md R226). -/

namespace Sys2Proof.Machine

variable {R : State → State → Prop} {c : Chan} {s : State} {k : Channel} {n m budget : Nat}

/-! A number of units that leave the count positive. -/

/-- The state after a number of units of a channel, with no burst end among them. -/
def State.unitsDone (c : Chan) : Nat → State → State
  | 0, s => s
  | m + 1, s => (s.unitDone c).unitsDone c m

theorem MovesKept.unitsDone (K : MovesKept R c) (m : Nat) (s : State) : R s (s.unitsDone c m) := by
  induction m generalizing s with
  | zero => exact K.refl s
  | succ m ih => exact K.trans (K.unitDone s) (ih _)

theorem dma_kept (c : Chan) : MovesKept (fun s t => t.dma = s.dma) c where
  refl _ := rfl
  trans h k := k.trans h
  accessed _ _ _ := by simp
  modChan _ _ := rfl
  closeSegment s := by rw [closeSegment_eq]

theorem active_unitsDone (c : Chan) (m : Nat) (s : State) :
    ((s.unitsDone c m).chan c).active = (s.chan c).active := by
  induction m generalizing s with
  | zero => rfl
  | succ m ih => rw [State.unitsDone, ih, chan_unitDone_self, afterUnit_active]

theorem ra_unitsDone (c : Chan) (m : Nat) (s : State) :
    ((s.unitsDone c m).chan c).ra = (s.chan c).readAt m := by
  induction m generalizing s with
  | zero => simp [State.unitsDone, Channel.readAt]
  | succ m ih => rw [State.unitsDone, ih, chan_unitDone_self, afterUnit_readAt]

theorem wa_unitsDone (c : Chan) (m : Nat) (s : State) :
    ((s.unitsDone c m).chan c).wa = (s.chan c).writeAt m := by
  induction m generalizing s with
  | zero => simp [State.unitsDone, Channel.writeAt]
  | succ m ih => rw [State.unitsDone, ih, chan_unitDone_self, afterUnit_writeAt]

/-! The count. -/

/-- A unit takes its size off the signed count, where the count stays positive. -/
theorem afterUnit_count (h : 0 < k.tn.toInt) (more : 1 < k.unitsLeft) (v : Word) :
    0 < (k.afterUnit v).tn.toInt ∧ (k.afterUnit v).tn.toInt = k.tn.toInt - k.unitSize := by
  rw [toInt_pos_iff] at h
  unfold Channel.unitsLeft at more
  rw [afterUnit_tn, BitVec.toInt_eq_toNat_cond, BitVec.toInt_eq_toNat_cond, BitVec.toNat_sub, BitVec.toNat_ofNat]
  rcases unitSize_pos k with hs | hs <;> rw [hs] at more ⊢ <;> omega

theorem count_unitsDone (hp : 0 < (s.chan c).tn.toInt) (below : m < (s.chan c).unitsLeft) :
    ((s.unitsDone c m).chan c).tn.toInt = (s.chan c).tn.toInt - m * (s.chan c).unitSize := by
  induction m generalizing s with
  | zero => simp [State.unitsDone]
  | succ m ih =>
    obtain ⟨more, less⟩ := afterUnit_count hp (by omega) (s.unitDatum c)
    have fewer := afterUnit_unitsLeft hp more
    rw [← chan_unitDone_self] at more less fewer
    rw [State.unitsDone, ih more (by omega), less, chan_unitDone_self, afterUnit_unitSize]
    push_cast
    ring

/-! The ticks and the step. -/

theorem avoidsCtrl_unitDone (avoids : s.avoidsCtrl c (m + 1)) : (s.unitDone c).avoidsCtrl c m := fun j hj => by
  rw [chan_unitDone_self, afterUnit_readAt, afterUnit_writeAt, reachesCtrl_unitDone, reachesCtrl_unitDone]
  exact avoids (j + 1) (by omega)

/-- A tick that leaves the count positive is its unit. -/
theorem tick_of_positive (hq : s.Quiet) (ha : (s.chan c).active = true) (avoids : s.unitAvoids c = true)
    (more : 0 < ((s.unitDone c).chan c).tn.toInt) : tick (handlersTo n) c s = .next (s.unitDone c) := by
  rw [tick_eq hq ha, tickAvoids_eq, avoids, burstDone_eq, decide_eq_false (Int.not_le.2 more),
    tickDone_of_positive more]
  rfl

/-- Fewer ticks than the units that are left are as many units. -/
theorem ticks_of_lt_unitsLeft (hq : s.Quiet) (ha : (s.chan c).active = true) (hp : 0 < (s.chan c).tn.toInt)
    (below : budget < (s.chan c).unitsLeft) (avoids : s.avoidsCtrl c budget) :
    ticks (handlersTo n) c budget s = .next (s.unitsDone c budget) := by
  induction budget generalizing s with
  | zero => rfl
  | succ budget ih =>
    obtain ⟨more, -⟩ := afterUnit_count hp (by omega) (s.unitDatum c)
    have fewer := afterUnit_unitsLeft hp more
    rw [← chan_unitDone_self] at more fewer
    have first : s.unitAvoids c = true := unitAvoids_of_avoidsCtrl fun j hj => avoids j (by omega)
    rw [ticks_succ_of_active _ ha, tick_of_positive hq ha first more, andThen_next, State.unitsDone]
    exact ih (quiet_unitDone hq c) (by simpa using ha) more (by omega) (avoidsCtrl_unitDone avoids)

/-- A step with fewer ticks than the units that are left makes as many units and closes the segment. -/
theorem stepChannel_of_lt_unitsLeft (hq : s.Quiet) (ha : (s.chan c).active = true) (hp : 0 < (s.chan c).tn.toInt)
    (below : budget < (s.chan c).unitsLeft) (avoids : s.avoidsCtrl c budget) :
    stepChannel (handlersTo n) c budget s = .next (closeSegment c (s.unitsDone c budget)) := by
  rw [stepChannel, ticks_of_lt_unitsLeft hq ha hp below avoids, andThen_next, active_unitsDone, if_pos ha]

/-- A step with at least as many ticks as the units that are left completes a direct transfer. -/
theorem stepChannel_of_unitsLeft_le (hq : s.Quiet) (ha : (s.chan c).active = true)
    (hd : (s.chan c).indirect = false) (hp : 0 < (s.chan c).tn.toInt)
    (avoids : s.avoidsCtrl c (s.chan c).unitsLeft) (reaches : (s.chan c).unitsLeft ≤ budget) :
    ∃ t, stepChannel (handlersTo n) c budget s = .next t ∧ t.chan c = Channel.idle := by
  obtain ⟨t, done, idle⟩ := ticks_of_direct (n := n) hq ha hd hp rfl avoids
  have whole : ticks (handlersTo n) c budget s = .next t := by
    rw [← Nat.add_sub_of_le reaches, ticks_add, done, andThen_next, ticks_of_idle _ idle]
  refine ⟨t, by rw [stepChannel, whole, andThen_next, idle]; rfl, ?_⟩
  rcases ticks_raises hq ha done with ⟨active, -⟩ | ⟨-, u, rfl, -⟩
  · rw [idle] at active
    cases active
  · exact chan_complete_self _ c

end Sys2Proof.Machine

/-! SUPPORT. The statements about reset and hazards, settled. -/

namespace Sys2Proof.Machine

/-- Settles O36: a register row is the access at its own address, whose slot holds the stub. -/
theorem registerRowsBehindStub : Obligations.RegisterRowsBehindStub := by
  intro s off m op _ stub
  obtain ⟨-, -, row⟩ := registerRow_spec off m op
  rw [row, portAccess_of_stub stub]

/-- Settles O43: the nine unspecified registers take the next nine draws, in the order `resetDraw` gives. -/
theorem resetResult : Obligations.ResetResult := by
  intro s
  refine ⟨_, exec_reset s, page_resetBlock s, masks_resetBlock s, chan_resetBlock s, rfl, regs_resetBlock s,
    rfl, rfl, rfl, ⟨fun c f => s.draws + resetDraw c f, ?different, ?fresh⟩, rfl, rfl, rfl, rfl, rfl, rfl, rfl, rfl⟩
  case different =>
    intro c f d g same hf hg
    exact resetDraw_injective (Nat.add_left_cancel same) hf hg
  case fresh =>
    intro c f hf
    exact ⟨fieldGet_resetBlock s c hf, Nat.le_add_right _ _, Nat.add_lt_add_left (resetDraw_lt c f) _⟩

/-- Settles O58: below the units that are left the step is its units and the segment's end, which raise nothing; from
there on it completes. -/
theorem directTransferByBudget : Obligations.DirectTransferByBudget := by
  intro s c n budget hq ha hd hp avoids
  have others {t : State} (h : stepChannel (handlersTo n) c budget s = .next t) : ∀ d, d ≠ c → t.chan d = s.chan d :=
    fun d hne => (otherChannel_kept hne.symm).stepChannel hq h
  rcases Nat.lt_or_ge budget (s.chan c).unitsLeft with below | reaches
  · have step := stepChannel_of_lt_unitsLeft (n := n) hq ha hp below fun j hj => avoids j (hj.trans below)
    have raised := noRaise_kept c
    obtain ⟨q, ist, aiack, -⟩ := raised.trans (raised.unitsDone budget s) (raised.closeSegment _)
    have dma := (dma_kept c).trans ((dma_kept c).unitsDone budget s) ((dma_kept c).closeSegment _)
    refine ⟨_, step, fun _ => ⟨?active, ?count, ?ra, ?wa, q, ist, aiack, dma⟩,
      fun reaches => absurd reaches (Nat.not_le.2 below), others step⟩
    all_goals rw [chan_closeSegment_self]
    case active => exact (active_unitsDone c budget s).trans ha
    case count => exact count_unitsDone hp below
    case ra => exact ra_unitsDone c budget s
    case wa => exact wa_unitsDone c budget s
  · obtain ⟨t, step, idle⟩ := stepChannel_of_unitsLeft_le (n := n) hq ha hd hp avoids reaches
    exact ⟨t, step, fun below => absurd below (Nat.not_lt.2 reaches), fun _ => idle, others step⟩

end Sys2Proof.Machine
